-- ==== Sys2Proof/Word.lean ====
section
/-! DEFINITION. The widths of the block and the two kinds of memory entry (spec/00_scope.md R5, R6;
spec/10_state.md R21, R39, R41). Every value is an unsigned integer (R6). -/

namespace Sys2Proof

/-- A host register or a command word: 32 bits (R23, R90). -/
abbrev Word32 := BitVec 32

/-- A symbol field: 9 bits, of which 0..256 are symbols (R5 `SYM_BITS`, R95). -/
abbrev Symbol := BitVec 9

/-- A tree-memory index field or a node counter: 10 bits (R21, R39). -/
abbrev NodeIx := BitVec 10

/-- One data unit: 8 bits (R5 `BYTE_BITS`). -/
abbrev Byte := BitVec 8

/-- The KIND bit of a tree-memory entry: 0 = internal node, 1 = leaf (R39). -/
inductive NodeKind where
  | internal
  | leaf
deriving DecidableEq, Repr, Inhabited

/-- One entry of the tree memory NODE (R39). -/
structure Node where
  kind  : NodeKind
  sym   : Symbol
  left  : NodeIx
  right : NodeIx
deriving DecidableEq, Repr, Inhabited

/-- One entry of the code table CODE (R41). -/
structure CodeEntry where
  valid : Bool
  len   : BitVec 9
  bits  : BitVec 256
deriving DecidableEq, Repr, Inhabited

end Sys2Proof
end

