-- ==== Sys2Proof/Config.lean ====
section
/-! DEFINITION. The parameters of the block (spec/00_scope.md R5) and the free values: what the spec
leaves open and a model may give any value (spec/93_implementation_defined.md I6, I11, I12, I13). -/

namespace Sys2Proof.Config

/-- `EOF_SYM`, the end-of-stream symbol (R5). -/
def eofSym : Symbol := 256

/-- `NSYM`, the number of symbols and of code-table entries (R5, R41). -/
def nsym : Nat := 257

/-- `NODE_CAP`, the number of tree-memory entries (R5, R39). -/
def nodeCap : Nat := 513

/-- `MAX_CODE_LEN`, the longest code in bits (R5, R141). -/
def maxCodeLen : Nat := 256

/-- `REG_SPACE`, the size of the host register window in bytes (R5, R60). -/
def regSpace : Nat := 256

/-- `MAGIC_VALUE - 1`. The spec leaves the constant OPEN with the premise that it is not 0 (R5, D28, I6):
this free value ranges over exactly 0 .. 2^32 - 2. DESIGN CHOICE of this form (log 1). -/
opaque magicOffset : Fin 4294967295

/-- `MAGIC_VALUE`, a free 32-bit constant that is not 0 (R5, D28, log 1). -/
def magicValue : Word32 := BitVec.ofNat 32 (magicOffset.val + 1)

/-- What a tree-memory entry holds where the spec calls it unspecified (R241, I11, I12), by draw and index:
a free value (log 2). -/
opaque freeNode : Nat → Nat → Node

/-- What a code-table entry holds where the spec calls it unspecified (R241, I11, I12), by draw and symbol:
a free value (log 2). -/
opaque freeCode : Nat → Nat → CodeEntry

/-- What `CMDLATCH` holds outside a command, by draw (R21, I13): a free value (log 3). -/
opaque freeLatch : Nat → Word32

/-- What `CUR` holds outside a DECODE, by draw (R21, I13): a free value (log 3). -/
opaque freeCur : Nat → NodeIx

end Sys2Proof.Config
end

