-- ==== Sys2Proof/Syntax.lean ====
section
/-! DEFINITION. The command set HTW-1: one constructor per row of spec/opcode_table.json
(spec/30_encoding.md R90 to R93; spec/40_command_control.md R128). -/

namespace Sys2Proof

/-- The two host registers a write to which runs something: CMD (R24) and CTRL (R25). -/
inductive Port where
  | cmd
  | ctrl
deriving DecidableEq, Repr

/-- One 32-bit host write to CMD or CTRL: where the block's commands come from (R22, R61). -/
structure HostWord where
  port : Port
  word : Word32
deriving DecidableEq, Repr

/-- The commands of HTW-1 (R91), the soft reset (R128) and the default row (R93). -/
inductive Instr where
  /-- NOP (R126). -/
  | nop
  /-- LDT, LOAD_TREE (R150). -/
  | ldt
  /-- STT, STORE_TREE (R153). -/
  | stt
  /-- DRV, DERIVE (R140). -/
  | drv
  /-- CKM, CHECK_MAGIC (R190). -/
  | ckm
  /-- WRM, WRITE_MAGIC (R171). -/
  | wrm
  /-- ENC, ENCODE (R172). -/
  | enc
  /-- ENS, ENCODE_SYM, the table's data-byte row: the symbol is the byte `b` (R173). -/
  | ens (b : Byte)
  /-- ENS, ENCODE_SYM, the table's EOF row: the symbol is 256 (R173). -/
  | ensEof
  /-- DEC, DECODE (R191). -/
  | dec
  /-- RWD, REWIND (R127). -/
  | rwd
  /-- SRST, a CTRL write with bit 0 = 1; `ignored` is its bits 31:1 (R25, R128). -/
  | srst (ignored : BitVec 31)
  /-- The default row: a CMD word that spells no command (R93). -/
  | illegal (w : Word32)
deriving DecidableEq, Repr

end Sys2Proof
end

