-- ==== Sys2Proof/Machine/State.lean ====
section
/-! DEFINITION. The state of the block and of its environment as plain data (spec/10_state.md R20 to R44),
the ways a step can stop, and the state after reset. -/

namespace Sys2Proof.Machine

/-- The error codes of ERRCODE bits 7:0 (R211). Every other value is never written (R211, I17), so the
register is held as one of these names; `ErrCode.code` (Flags.lean) gives its 8 bits. -/
inductive ErrCode where
  | none
  | invalidMagic
  | malformedHeader
  | truncatedStream
  | unencodableSymbol
  | badCommand
  | noTree
  | noTable
  | treeCapacity
  | badSymbol
  | duplicateSymbol
  | degenerateTree
deriving DecidableEq, Repr

/-- The tree memory NODE[0..512] (R39): the entries written, in strictly rising index order; an entry not
listed holds the free value of draw `draw` (log 2). -/
structure NodeMem where
  draw  : Nat
  cells : List (Nat × Node)
deriving DecidableEq, Repr

/-- What the code-table entries that are not listed hold: the unspecified contents of a draw (R241, log 2), or
the zeros DERIVE writes to every entry (R140). -/
inductive CodeBase where
  | free (draw : Nat)
  | cleared
deriving DecidableEq, Repr

/-- The code table CODE[0..256] (R41): the entries written, in strictly rising symbol order, over `base`. -/
structure CodeMem where
  base  : CodeBase
  cells : List (Nat × CodeEntry)
deriving DecidableEq, Repr

/-- Where in the running command's pseudocode the next engine step resumes, with the locals that are live
there (R8, R21, R22). Every point but `start` stands right after a stream access. `none` is EXH (R7, I3). -/
inductive Point where
  /-- The first step of every command: the decode of R123. -/
  | start
  /-- LOAD_TREE, after `f <- ReadBits(1)` (R150). -/
  | ldtFlag (f : Option (BitVec 1)) (n : NodeIx) (stack : List NodeIx) (attach : Bool)
  /-- LOAD_TREE, after `v <- ReadBits(9)` of the leaf with index `i` (R150). -/
  | ldtSym (v : Option Symbol) (n i : NodeIx) (stack : List NodeIx)
  /-- STORE_TREE, after the flag bit 0 of internal node `i` (R153). -/
  | sttInternal (i : NodeIx) (stack : List NodeIx)
  /-- STORE_TREE, after the flag bit 1 of leaf `i` (R153). -/
  | sttLeaf (i : NodeIx) (stack : List NodeIx)
  /-- STORE_TREE, after a leaf's symbol field: back at the loop test (R153). -/
  | sttLoop (stack : List NodeIx)
  /-- CHECK_MAGIC, after `v <- ReadBits(32)` (R190). -/
  | ckmRead (v : Option Word32)
  /-- WRITE_MAGIC, after its write (R171). -/
  | wrmWritten
  /-- ENCODE, after `v <- ReadBits(8)` (R172). -/
  | encRead (v : Option Byte)
  /-- ENCODE in EmitCode(`y`), after the first `k` bits of the code (R170, R172). -/
  | encBits (y : Symbol) (k : Nat)
  /-- ENCODE_SYM in EmitCode, after the first `k` bits of the code (R170, R173). -/
  | ensBits (k : Nat)
  /-- DECODE, after `r <- ReadBits(1)` (R191). -/
  | decRead (r : Option (BitVec 1))
  /-- DECODE, after the write of a data leaf's byte, the bit `r` not yet used (R191). -/
  | decWritten (r : BitVec 1)
  /-- REWIND, after `Rewind()` (R127). -/
  | rwdDone
deriving DecidableEq, Repr

/-- The sequencing state ENG (R22): IDLE, or RUN at a point of the running command. -/
inductive Eng where
  | idle
  | run (p : Point)
deriving DecidableEq, Repr

/-- One move of the agents of R4 and R225, or of the platform's reset input (R240). The model's own
(log 6): a list of them says in which order the agents move. -/
inductive Move where
  /-- The engine takes one step. -/
  | engine
  /-- A host read of `width` bits at byte offset `offset` (R61). -/
  | read (width offset : Nat)
  /-- A host write of `width` bits at byte offset `offset` (R61). -/
  | write (width offset : Nat) (value : Word32)
  /-- A program line's wait: read STATUS until BUSY = 0, then stop the program if ERR = 1 (R99). -/
  | poll
  /-- The platform's reset input (R240). -/
  | platformReset
deriving DecidableEq, Repr

/-- The state of the block (R20), of its environment (R43), and the model's own scheduling data. -/
structure State where
  /-- STATUS.DONE (R28). -/
  done       : Bool
  /-- STATUS.ERR (R28). -/
  err        : Bool
  /-- STATUS.TREE_VALID (R29). -/
  treeValid  : Bool
  /-- STATUS.TABLE_VALID (R30). -/
  tableValid : Bool
  /-- STATUS.OVR (R31). -/
  ovr        : Bool
  /-- ERRCODE.CODE (R32). -/
  errCode    : ErrCode
  /-- MAGIC, hardwired to MAGIC_VALUE (R33). -/
  magic      : Word32
  /-- NODE_COUNT.N (R34). -/
  nodeCount  : NodeIx
  /-- IN_BITS (R35). -/
  inBits     : Word32
  /-- OUT_BITS (R36). -/
  outBits    : Word32
  /-- SYM_COUNT (R37). -/
  symCount   : Word32
  /-- The tree memory NODE (R39). -/
  nodes      : NodeMem
  /-- The code table CODE (R41). -/
  codes      : CodeMem
  /-- ENG and the resume point (R22). -/
  eng        : Eng
  /-- CMDLATCH, the accepted command word (R21, R120). -/
  cmdLatch   : Word32
  /-- CUR, the decoder's current node (R21, R191). -/
  cur        : NodeIx
  /-- IN, the input bits, first bit first (R43, R62). -/
  input      : List Bool
  /-- IP, the input cursor (R43, R62). -/
  ip         : Nat
  /-- OUT, the bits appended so far, first bit first (R43, R68). -/
  out        : List Bool
  /-- The moves still to come (the model's own, log 6). -/
  agenda     : List Move
  /-- The values the host's reads have returned, oldest first (the model's own, log 6). -/
  reads      : List Word32
  /-- The next draw of the free values (the model's own, log 4). -/
  draws      : Nat
deriving DecidableEq, Repr

/-- How the model stops where the spec has no behaviour. No state that satisfies the machine invariant
(Safety.lean) reaches one: each is safe (log 8). -/
inductive Fault where
  /-- An access to NODE at an index of 513 or more, which R60 says does not exist. Raised by LDT, STT, DRV
  and DEC. Safe. -/
  | noSuchNode
  /-- An access to CODE at a symbol above 256, which R60 says does not exist. Raised by DRV, ENC and ENS.
  Safe. -/
  | noSuchCode
  /-- An engine step whose resume point is none of the running command's, or with no command running; R22
  gives the machine no such state. Raised by every command. Safe. -/
  | strayPoint
  /-- A `pop` of an empty stack, which R7 and R152 say never occurs. Raised by LDT. Safe. -/
  | emptyPop
  /-- DERIVE's loop does not end, because the tree memory is not the full tree of R40. Raised by DRV. Safe
  (log 14). -/
  | deriveDiverges
deriving DecidableEq, Repr

/-- What the model refuses. -/
inductive Refusal where
  /-- An instruction with no meaning yet; raised by `exec`'s arm. Safe. -/
  | notModelled (mnemonic : String)
  /-- A host access that is not a 32-bit word at an aligned offset in 0x00..0xFF: "a model refuses it" (R61,
  I18). Raised by a host move. Safe. -/
  | hostAccess
deriving DecidableEq, Repr

/-- The state right after power-on reset (R44): the registers at their reset values; NODE, CODE, CMDLATCH and
CUR at the free values of draw 0 (R241, logs 2 and 3); the environment empty (log 5), no move pending
(log 6). -/
def State.reset : State where
  done := false
  err := false
  treeValid := false
  tableValid := false
  ovr := false
  errCode := .none
  magic := Config.magicValue
  nodeCount := 0
  inBits := 0
  outBits := 0
  symCount := 0
  nodes := ⟨0, []⟩
  codes := ⟨.free 0, []⟩
  eng := .idle
  cmdLatch := Config.freeLatch 0
  cur := Config.freeCur 0
  input := []
  ip := 0
  out := []
  agenda := []
  reads := []
  draws := 1

end Sys2Proof.Machine
end

