-- ==== Sys2Proof/Machine/Flags.lean ====
section
/-! DEFINITION. STATUS and ERRCODE as the words a host reads, and every change of a status flag
(spec/10_state.md R26 to R32; spec/60_exceptions.md R211). -/

namespace Sys2Proof.Machine

/-- STATUS.BUSY: 1 while ENG = RUN (R26, R27). -/
def State.busy (s : State) : Bool :=
  match s.eng with
  | .idle => false
  | .run _ => true

/-- The STATUS word: BUSY, DONE, ERR, TREE_VALID, TABLE_VALID, OVR in bits 0 to 5, bits 31:6 read as 0 (R26). -/
def State.statusWord (s : State) : Word32 :=
  (0 : BitVec 26) ++ BitVec.ofBool s.ovr ++ BitVec.ofBool s.tableValid ++ BitVec.ofBool s.treeValid ++
    BitVec.ofBool s.err ++ BitVec.ofBool s.done ++ BitVec.ofBool s.busy

/-- The 8-bit values of the error codes (R211). -/
def ErrCode.code : ErrCode → BitVec 8
  | .none => 0x00
  | .invalidMagic => 0x01
  | .malformedHeader => 0x02
  | .truncatedStream => 0x03
  | .unencodableSymbol => 0x04
  | .badCommand => 0x10
  | .noTree => 0x11
  | .noTable => 0x12
  | .treeCapacity => 0x13
  | .badSymbol => 0x14
  | .duplicateSymbol => 0x15
  | .degenerateTree => 0x16

/-- DONE, ERR and ERRCODE at a command's acceptance: all cleared (R28, R32, R120). -/
def State.flagsAccept (s : State) : State := { s with done := false, err := false, errCode := .none }

/-- `finish` sets DONE (R28, R124). -/
def State.flagsFinish (s : State) : State := { s with done := true }

/-- `raise e` sets ERR and ERRCODE (R28, R32, R125). -/
def State.flagsRaise (e : ErrCode) (s : State) : State := { s with err := true, errCode := e }

/-- A dropped CMD write sets OVR (R31, R121). -/
def State.flagOverrun (s : State) : State := { s with ovr := true }

/-- The start of LOAD_TREE: `TREE_VALID <- 0; TABLE_VALID <- 0; NODE_COUNT <- 0` (R29, R30, R34, R150). -/
def State.flagsUnload (s : State) : State :=
  { s with treeValid := false, tableValid := false, nodeCount := 0 }

/-- The end of a successful LOAD_TREE: `NODE_COUNT <- n; TREE_VALID <- 1` (R29, R34, R150). -/
def State.flagsLoaded (n : NodeIx) (s : State) : State := { s with treeValid := true, nodeCount := n }

/-- `TABLE_VALID <- 0` at the start of DERIVE (R30, R140). -/
def State.flagTableStale (s : State) : State := { s with tableValid := false }

/-- `TABLE_VALID <- 1` at the end of a successful DERIVE (R30, R140). -/
def State.flagTableValid (s : State) : State := { s with tableValid := true }

end Sys2Proof.Machine
end

