-- ==== Sys2Proof/WellFormed.lean ====
section
/-! DEFINITION. Which terms of `Instr` stand for a word of the hardware. Only the default row can be
ill-formed: its word must spell no command (spec/30_encoding.md R91, R93). -/

namespace Sys2Proof

/-- `w` is one of the legal command words that R91 lists: the nine words 0x0000000<OP> of the commands
without operand, and `0x00000007 | (s << 4)` for s in 0..256. -/
def legalWord (w : Word32) : Bool :=
  (w.toNat < 10) || (w.toNat % 16 == 7 && w.toNat / 16 ≤ 256)

/-- An instruction is well-formed when it stands for a word of its row of the opcode table. -/
def Instr.wf : Instr → Bool
  | .nop => true
  | .ldt => true
  | .stt => true
  | .drv => true
  | .ckm => true
  | .wrm => true
  | .enc => true
  | .ens _ => true
  | .ensEof => true
  | .dec => true
  | .rwd => true
  | .srst _ => true
  | .illegal w => !legalWord w

end Sys2Proof
end

