-- ==== Sys2Proof/Decode.lean ====
section
/-! DEFINITION. The decoder, total on every host word, and the encoder, both from the encoding tables of
spec/30_encoding.md R90 to R93 and spec/10_state.md R25. A word is taken whole from one 32-bit host write
(R90), so there is no byte order. -/

namespace Sys2Proof

/-- `OP = w[3:0]` (R24, R90). -/
def opField (w : Word32) : BitVec 4 := w.extractLsb' 0 4

/-- `SYM = w[12:4]` (R24, R90). -/
def symField (w : Word32) : Symbol := w.extractLsb' 4 9

/-- `RSV = w[31:13]` (R24, R90). -/
def rsvField (w : Word32) : BitVec 19 := w.extractLsb' 13 19

/-- Why a host word runs no instruction of the table. -/
inductive Reject where
  /-- A CTRL write with bit 0 = 0: it has no effect (R25, R128). -/
  | ctrlNoEffect
deriving DecidableEq, Repr

/-- The operation named by OP, for a word whose SYM and RSV fields are 0 (R91). -/
def decodeOp (w : Word32) : Instr :=
  match (opField w).toNat with
  | 0 => .nop
  | 1 => .ldt
  | 2 => .stt
  | 3 => .drv
  | 4 => .ckm
  | 5 => .wrm
  | 6 => .enc
  | 7 => .ens 0
  | 8 => .dec
  | 9 => .rwd
  | _ => .illegal w

/-- ENCODE_SYM's operand: 0..255 a data byte, 256 EOF, above 256 no command (R92, R93). -/
def decodeEns (w : Word32) : Instr :=
  if (symField w).toNat < 256 then .ens ((symField w).setWidth 8)
  else if (symField w).toNat = 256 then .ensEof
  else .illegal w

/-- A CMD word: the four tests of R123 in their order, then the operation map of R91. Total: a word that
spells no command is the table's default row. -/
def decodeCmd (w : Word32) : Instr :=
  if rsvField w ≠ 0 then .illegal w
  else if 10 ≤ (opField w).toNat then .illegal w
  else if opField w = 7 then decodeEns w
  else if symField w ≠ 0 then .illegal w
  else decodeOp w

/-- A CTRL word: bit 0 = 1 is the soft reset, bits 31:1 are ignored (R25). -/
def decodeCtrl (w : Word32) : Except Reject Instr :=
  if w.getLsbD 0 then .ok (.srst (w.extractLsb' 1 31)) else .error .ctrlNoEffect

/-- The decoder: total on every host word, rejecting by name. -/
def decode (h : HostWord) : Except Reject Instr :=
  match h.port with
  | .cmd => .ok (decodeCmd h.word)
  | .ctrl => decodeCtrl h.word

/-- The command word of an operation and a symbol operand: `OP | SYM << 4`, RSV = 0 (R90). -/
def cmdWord (op : BitVec 4) (sym : Symbol) : Word32 := (0 : BitVec 19) ++ sym ++ op

/-- The encoder: the host write of an instruction, from the tables of R91 and R25. -/
def encode : Instr → HostWord
  | .nop => ⟨.cmd, cmdWord 0x0 0⟩
  | .ldt => ⟨.cmd, cmdWord 0x1 0⟩
  | .stt => ⟨.cmd, cmdWord 0x2 0⟩
  | .drv => ⟨.cmd, cmdWord 0x3 0⟩
  | .ckm => ⟨.cmd, cmdWord 0x4 0⟩
  | .wrm => ⟨.cmd, cmdWord 0x5 0⟩
  | .enc => ⟨.cmd, cmdWord 0x6 0⟩
  | .ens b => ⟨.cmd, cmdWord 0x7 (b.setWidth 9)⟩
  | .ensEof => ⟨.cmd, cmdWord 0x7 256⟩
  | .dec => ⟨.cmd, cmdWord 0x8 0⟩
  | .rwd => ⟨.cmd, cmdWord 0x9 0⟩
  | .srst ignored => ⟨.ctrl, ignored ++ (1 : BitVec 1)⟩
  | .illegal w => ⟨.cmd, w⟩

/-- The port a row of spec/opcode_table.json is written to. The rows of format CMD give all 32 bits of the
word; the one row of format CTRL (SRST) gives bit 0 alone, so a row of fewer than 32 bits is a CTRL write.
DESIGN CHOICE (log 11): the table's numbering does not carry the format column. -/
def tablePort (nbits : Nat) : Port := if nbits < 32 then .ctrl else .cmd

/-- The host's reading of one row of the opcode table: the instruction the decoder reads from the word `w` of
`nbits` bits, every bit above `nbits` being 0. -/
def decodeTableWord (nbits w : Nat) : Option Instr :=
  if 32 < nbits then none
  else match decode ⟨tablePort nbits, BitVec.ofNat 32 (w % 2 ^ nbits)⟩ with
    | .ok i => some i
    | .error _ => none

end Sys2Proof
end

