-- ==== Sys2Proof/Machine/Operands.lean ====
section
/-! DEFINITION. The operand forms: bit strings and their values, most significant bit first
(spec/20_memory.md R64, R68, R71), byte order (R63), the node and code values the commands build
(spec/10_state.md R39, R41), a code's bits (spec/30_encoding.md R97). -/

namespace Sys2Proof.Machine

/-- The unsigned value of a bit string whose first bit is the most significant (R64). -/
def bitsValue (bits : List Bool) : Nat := bits.foldl (fun acc b => 2 * acc + b.toNat) 0

/-- The low `n` bits of `v`, bit `n-1` first (R68): bits of `v` above `n-1` are ignored. -/
def lowBits : Nat → Nat → List Bool
  | 0, _ => []
  | n + 1, v => v.testBit n :: lowBits n v

/-- The bit sequence of a byte-oriented source: each byte's most significant bit first (R63). -/
def bitsOfBytes (bytes : List Byte) : List Bool := bytes.flatMap fun b => lowBits 8 b.toNat

/-- `(KIND 1, SYM v, LEFT 0, RIGHT 0)` (R39, R150). -/
def leafNode (v : Symbol) : Node := ⟨.leaf, v, 0, 0⟩

/-- `(KIND 0, SYM 0, LEFT i + 1, RIGHT 0)`: an internal node's left child is node i + 1 (R150). -/
def openNode (i : NodeIx) : Node := ⟨.internal, 0, i + 1, 0⟩

/-- KIND alone says whether an entry is a leaf, never the value of SYM (R39). -/
def nodeIsLeaf (e : Node) : Bool :=
  match e.kind with
  | .internal => false
  | .leaf => true

/-- The entry is the EOF leaf (R191). -/
def nodeIsEof (e : Node) : Bool := nodeIsLeaf e && e.sym == Config.eofSym

/-- The child a bit selects: 0 = left, 1 = right (R191). -/
def childOf (e : Node) (r : BitVec 1) : NodeIx := if r = 0 then e.left else e.right

/-- `(VALID 0, LEN 0, BITS 0)`: what DERIVE first writes to every entry (R140). -/
def noCode : CodeEntry := ⟨false, 0, 0⟩

/-- `(VALID 1, LEN l, BITS b)` (R140). -/
def codeOf (l b : Nat) : CodeEntry := ⟨true, BitVec.ofNat 9 l, BitVec.ofNat 256 b⟩

/-- Bit `k` of a code string, k = 0 first: `BITS[LEN - 1 - k]` (R41, R97, R170). -/
def codeBit (c : CodeEntry) (k : Nat) : Bool := c.bits.getLsbD (c.len.toNat - 1 - k)

/-- The symbol of an ENS data byte: `zext_9` (R92). -/
def symbolOfByte (b : Byte) : Symbol := b.setWidth 9

/-- The word a host register reads as, from its low field (R32, R34: the upper bits read as 0). -/
def zext32 {n : Nat} (v : BitVec n) : Word32 := v.setWidth 32

end Sys2Proof.Machine
end

