-- ==== Sys2Proof/Machine/Ops.lean ====
section
/-! DEFINITION. The shared operations: the two internal memories (spec/20_memory.md R60), the stream ports
(R62 to R69), and the life of a command: acceptance, `finish`, `raise`, reset
(spec/40_command_control.md R120 to R125; spec/70_reset_and_hazards.md R240). -/

namespace Sys2Proof.Machine

/-- What a meaning answers. -/
abbrev Result := Host.Outcome State Fault Refusal

/-! ### Lists of (index, entry) in strictly rising index order -/

/-- The entry listed at `i`. -/
def cellsGet {α : Type} : List (Nat × α) → Nat → Option α
  | [], _ => none
  | (j, x) :: rest, i => if i = j then some x else cellsGet rest i

/-- List `x` at `i`, in place of any entry there. -/
def cellsPut {α : Type} : List (Nat × α) → Nat → α → List (Nat × α)
  | [], i, x => [(i, x)]
  | (j, y) :: rest, i, x =>
    if i < j then (i, x) :: (j, y) :: rest
    else if i = j then (i, x) :: rest
    else (j, y) :: cellsPut rest i x

/-- List nothing at `i`. -/
def cellsDrop {α : Type} : List (Nat × α) → Nat → List (Nat × α)
  | [], _ => []
  | (j, y) :: rest, i => if i = j then rest else (j, y) :: cellsDrop rest i

/-- The indices rise strictly, start at `lo` or above and stay below `bound`. -/
def cellsWf {α : Type} (bound : Nat) : Nat → List (Nat × α) → Bool
  | _, [] => true
  | lo, (j, _) :: rest => decide (lo ≤ j) && decide (j < bound) && cellsWf bound (j + 1) rest

/-! ### The tree memory and the code table (R39, R41) -/

/-- `NODE[i]`. -/
def NodeMem.read (m : NodeMem) (i : Nat) : Node := (cellsGet m.cells i).getD (Config.freeNode m.draw i)

/-- `NODE[i] <- e`. -/
def NodeMem.write (m : NodeMem) (i : Nat) (e : Node) : NodeMem := { m with cells := cellsPut m.cells i e }

/-- The canonical form of the tree memory (log 2). -/
def NodeMem.wf (m : NodeMem) : Bool := cellsWf Config.nodeCap 0 m.cells

/-- What a code-table entry that is not listed holds. -/
def CodeBase.entry : CodeBase → Nat → CodeEntry
  | .free draw, y => Config.freeCode draw y
  | .cleared, _ => noCode

/-- `CODE[y]`. -/
def CodeMem.read (m : CodeMem) (y : Nat) : CodeEntry := (cellsGet m.cells y).getD (m.base.entry y)

/-- `CODE[y] <- e`. Over a cleared table an entry equal to the cleared one is not listed. -/
def CodeMem.write (m : CodeMem) (y : Nat) (e : CodeEntry) : CodeMem :=
  match m.base with
  | .free _ => { m with cells := cellsPut m.cells y e }
  | .cleared => { m with cells := if e = noCode then cellsDrop m.cells y else cellsPut m.cells y e }

/-- `for s in 0..256: CODE[s] <- (VALID 0, LEN 0, BITS 0)` (R140). -/
def CodeMem.zeros : CodeMem := ⟨.cleared, []⟩

/-- The canonical form of the code table (log 2). -/
def CodeMem.wf (m : CodeMem) : Bool :=
  cellsWf Config.nsym 0 m.cells &&
    match m.base with
    | .free _ => true
    | .cleared => m.cells.all fun c => c.2 != noCode

/-- The canonical form of both memories (log 2, log 16). -/
def Memory.wf (s : State) : Bool := s.nodes.wf && s.codes.wf

/-- Read `NODE[i]` for `k`; R60 gives no entry at 513 or above. -/
def withNode (i : NodeIx) (s : State) (k : Node → Result) : Result :=
  if i.toNat < Config.nodeCap then k (s.nodes.read i.toNat) else .fault .noSuchNode

/-- `NODE[i] <- e`, then `k`. -/
def putNode (i : NodeIx) (e : Node) (s : State) (k : State → Result) : Result :=
  if i.toNat < Config.nodeCap then k { s with nodes := s.nodes.write i.toNat e } else .fault .noSuchNode

/-- Read `CODE[y]` for `k`; R60 gives no entry above 256. -/
def withCode (y : Symbol) (s : State) (k : CodeEntry → Result) : Result :=
  if y.toNat < Config.nsym then k (s.codes.read y.toNat) else .fault .noSuchCode

/-- `CODE[y] <- e`. -/
def State.putCode (y : Symbol) (e : CodeEntry) (s : State) : State :=
  { s with codes := s.codes.write y.toNat e }

/-- Every entry of CODE zeroed (R140). -/
def State.zeroCodes (s : State) : State := { s with codes := CodeMem.zeros }

/-- NODE becomes unspecified: any value (R150, R241, I11, I12, log 2). -/
def State.forgetNodes (s : State) : State := { s with nodes := ⟨s.draws, []⟩, draws := s.draws + 1 }

/-- CODE becomes unspecified: any value (R140, R241, I11, I12, log 2). -/
def State.forgetCodes (s : State) : State := { s with codes := ⟨.free s.draws, []⟩, draws := s.draws + 1 }

/-! ### The stream ports (R62 to R69) -/

/-- The bits not yet consumed, `b_IP ... b_{L-1}` (R62). -/
def State.unread (s : State) : List Bool := s.input.drop s.ip

/-- The value `ReadBits(n)` returns: `none` is EXH, when fewer than `n` bits remain (R64, R65). -/
def State.peekBits (n : Nat) (s : State) : Option (BitVec n) :=
  if n ≤ s.input.length - s.ip then some (BitVec.ofNat n (bitsValue (s.unread.take n))) else none

/-- How many bits `ReadBits(n)` consumes: `n`, or all that are left (R64 to R66). -/
def State.readSize (n : Nat) (s : State) : Nat := min n (s.input.length - s.ip)

/-- The effect of `ReadBits(n)` on IP and IN_BITS (R64 to R66). -/
def State.consume (n : Nat) (s : State) : State :=
  { s with
    ip := if n ≤ s.input.length - s.ip then s.ip + n else s.input.length
    inBits := s.inBits + BitVec.ofNat 32 (s.readSize n) }

/-- `WriteBits(n, v)` (R68, R69). -/
def State.writeBits (n v : Nat) (s : State) : State :=
  { s with out := s.out ++ lowBits n v, outBits := s.outBits + BitVec.ofNat 32 n }

/-- `Rewind()`: `IP <- 0`, nothing else (R67). -/
def State.rewind (s : State) : State := { s with ip := 0 }

/-! ### The life of a command (R120 to R125) -/

/-- A step ends here, right after a stream access; the next one resumes at `p` (R8). -/
def State.resumeAt (p : Point) (s : State) : State := { s with eng := .run p }

/-- `v <- ReadBits(n)`, where the step ends (R8); the next one resumes at `p v`. -/
def State.readThen (n : Nat) (p : Option (BitVec n) → Point) (s : State) : State :=
  (s.consume n).resumeAt (p (s.peekBits n))

/-- `WriteBits(n, v)`, where the step ends (R8); the next one resumes at `p`. -/
def State.writeThen (n v : Nat) (p : Point) (s : State) : State := (s.writeBits n v).resumeAt p

/-- `CUR <- i` (R191). -/
def State.setCur (i : NodeIx) (s : State) : State := { s with cur := i }

/-- `SYM_COUNT <- SYM_COUNT + 1` mod 2^32 (R37). -/
def State.countSymbol (s : State) : State := { s with symCount := s.symCount + 1 }

/-- The engine goes IDLE and BUSY to 0; the working registers lose their meaning, so CMDLATCH and CUR take
free values (R21, R124, I13, log 3). -/
def State.endCommand (s : State) : State :=
  { s with
    eng := .idle
    cmdLatch := Config.freeLatch s.draws
    cur := Config.freeCur s.draws
    draws := s.draws + 1 }

/-- `finish` (R124). -/
def State.finish (s : State) : State := s.flagsFinish.endCommand

/-- `raise e` (R125): it undoes nothing. -/
def State.raise (e : ErrCode) (s : State) : State := (s.flagsRaise e).endCommand

/-- Acceptance of the word `w` (R120). -/
def State.accept (w : Word32) (s : State) : State :=
  { s.flagsAccept with cmdLatch := w, inBits := 0, outBits := 0, symCount := 0, eng := .run .start }

/-- A hardware or soft reset: the block takes the state of R44, the environment and MAGIC keep theirs (R240,
R243); what R44 leaves unspecified takes free values (R241, logs 2 and 3). -/
def State.resetBlock (s : State) : State :=
  { s with
    done := false
    err := false
    treeValid := false
    tableValid := false
    ovr := false
    errCode := .none
    nodeCount := 0
    inBits := 0
    outBits := 0
    symCount := 0
    nodes := ⟨s.draws, []⟩
    codes := ⟨.free s.draws, []⟩
    eng := .idle
    cmdLatch := Config.freeLatch s.draws
    cur := Config.freeCur s.draws
    draws := s.draws + 1 }

end Sys2Proof.Machine
end

