-- ==== Sys2Proof/Machine/CodeTable.lean ====
section
/-! DEFINITION. DERIVE (spec/41_code_table.md R140 to R142). -/

namespace Sys2Proof.Machine

/-- DERIVE raises `e`: the contents of CODE are unspecified afterwards (R140, I12). -/
def drvRaise (e : ErrCode) (s : State) : Result := .next (s.forgetCodes.raise e)

/-- A bound on the loop of R140: over a tree memory without a cycle the loop pops at most NODE_CAP entries
before the first entry it pops twice and at most NODE_CAP more before DUPLICATE_SYMBOL (log 14). -/
def drvFuel : Nat := 2 * Config.nodeCap

/-- The `while S != []` loop of R140 over the stack of (node index, length, code value). -/
def drvLoop : Nat → List (NodeIx × Nat × Nat) → State → Result
  | _, [], s => .next s.flagTableValid.finish
  | 0, _ :: _, _ => .fault .deriveDiverges
  | fuel + 1, (i, l, b) :: rest, s =>
    withNode i s fun e =>
      if nodeIsLeaf e then
        withCode e.sym s fun c =>
          if c.valid then drvRaise .duplicateSymbol s
          else drvLoop fuel rest (s.putCode e.sym (codeOf l b))
      else drvLoop fuel ((e.left, l + 1, 2 * b) :: (e.right, l + 1, 2 * b + 1) :: rest) s

/-- DRV, DERIVE (R140): one engine step, having no stream access. -/
def execDrv (s : State) : Result :=
  match s.eng with
  | .run .start =>
    if s.treeValid then drvLoop drvFuel [(0, 0, 0)] s.flagTableStale.zeroCodes
    else drvRaise .noTree s
  | _ => .fault .strayPoint

end Sys2Proof.Machine
end

