-- ==== Sys2Proof/Machine/Control.lean ====
section
/-! DEFINITION. NOP, REWIND, the soft reset and the default row
(spec/40_command_control.md R123, R126 to R128). -/

namespace Sys2Proof.Machine

/-- NOP (R126): `finish`. -/
def execNop (s : State) : Result :=
  match s.eng with
  | .run .start => .next s.finish
  | _ => .fault .strayPoint

/-- REWIND (R127): `Rewind()`, then `finish` in the next step. -/
def execRwd (s : State) : Result :=
  match s.eng with
  | .run .start => .next (s.rewind.resumeAt .rwdDone)
  | .run .rwdDone => .next s.finish
  | _ => .fault .strayPoint

/-- SRST (R128): the host's CTRL write resets the block whether BUSY is 0 or 1; bits 31:1 are ignored. -/
def execSrst (_ignored : BitVec 31) (s : State) : Result := .next s.resetBlock

/-- A word that spells no command: `raise BAD_COMMAND` in the first step (R93, R123). -/
def execIllegal (_w : Word32) (s : State) : Result :=
  match s.eng with
  | .run .start => .next (s.raise .badCommand)
  | _ => .fault .strayPoint

end Sys2Proof.Machine
end

