-- ==== Sys2Proof/Machine/Decoder.lean ====
section
/-! DEFINITION. CHECK_MAGIC and DECODE (spec/44_decoder.md R190 to R195). -/

namespace Sys2Proof.Machine

/-- CKM, CHECK_MAGIC (R190). A short read and a wrong field both raise INVALID_MAGIC. -/
def execCkm (s : State) : Result :=
  match s.eng with
  | .run .start => .next (s.readThen 32 .ckmRead)
  | .run (.ckmRead v) => if v = some s.magic then .next s.finish else .next (s.raise .invalidMagic)
  | _ => .fault .strayPoint

/-- The head of DECODE's loop: `r <- ReadBits(1)` (R191). -/
def decReadBit (s : State) : Result := .next (s.readThen 1 .decRead)

/-- DECODE's descent by the bit `r`, back to the head of the loop (R191). -/
def decDescend (r : BitVec 1) (s : State) : Result :=
  withNode s.cur s fun e => decReadBit (s.setCur (childOf e r))

/-- DECODE from the value read, with the current node tested before that bit is used: the EOF leaf first, then
exhaustion, then a data leaf, whose byte is written (R191, D11, D12). -/
def decReadStep (r : Option (BitVec 1)) (s : State) : Result :=
  withNode s.cur s fun e =>
    if nodeIsEof e then .next s.finish
    else match r with
      | none => .next (s.raise .truncatedStream)
      | some b =>
        if nodeIsLeaf e then .next (s.writeThen 8 e.sym.toNat (.decWritten b)) else decDescend b s

/-- DEC, DECODE (R191). -/
def execDec (s : State) : Result :=
  match s.eng with
  | .run .start =>
    if s.treeValid then
      withNode 0 s fun e =>
        if nodeIsLeaf e && !nodeIsEof e then .next (s.raise .degenerateTree) else decReadBit (s.setCur 0)
    else .next (s.raise .noTree)
  | .run (.decRead r) => decReadStep r s
  | .run (.decWritten b) => decDescend b (s.countSymbol.setCur 0)
  | _ => .fault .strayPoint

end Sys2Proof.Machine
end

