-- ==== Sys2Proof/Machine/Encoder.lean ====
section
/-! DEFINITION. WRITE_MAGIC, ENCODE and ENCODE_SYM (spec/43_encoder.md R170 to R174). -/

namespace Sys2Proof.Machine

/-- WRM, WRITE_MAGIC (R171). -/
def execWrm (s : State) : Result :=
  match s.eng with
  | .run .start => .next (s.writeThen 32 s.magic.toNat .wrmWritten)
  | .run .wrmWritten => .next s.finish
  | _ => .fault .strayPoint

/-- `EmitCode` from its bit `k` on (R170): one bit of the code string, where the step ends and the next resumes
at `p (k + 1)`; after the last bit, `k = LEN`, the command goes on with `rest` in the same step. -/
def emitCode (c : CodeEntry) (k : Nat) (p : Nat → Point) (s : State) (rest : State → Result) : Result :=
  if k < c.len.toNat then .next (s.writeThen 1 (codeBit c k).toNat (p (k + 1))) else rest s

/-- The head of ENCODE's loop: `v <- ReadBits(8)` (R172). -/
def encReadByte (s : State) : Result := .next (s.readThen 8 .encRead)

/-- What ENCODE does after EmitCode(`y`): after EOF it finishes, after a data byte it counts it and loops
(R172). -/
def encAfter (y : Symbol) (s : State) : Result :=
  if y = Config.eofSym then .next s.finish else encReadByte s.countSymbol

/-- The symbol ENCODE emits for the value read: the byte, or EOF at the end of the input (R172). -/
def encSymbol (v : Option Byte) : Symbol :=
  match v with
  | none => Config.eofSym
  | some b => symbolOfByte b

/-- ENCODE from the value read (R172). -/
def encReadStep (v : Option Byte) (s : State) : Result :=
  withCode (encSymbol v) s fun c =>
    if c.valid then emitCode c 0 (.encBits (encSymbol v)) s (encAfter (encSymbol v))
    else .next (s.raise .unencodableSymbol)

/-- ENC, ENCODE (R172). -/
def execEnc (s : State) : Result :=
  match s.eng with
  | .run .start => if s.tableValid then encReadByte s else .next (s.raise .noTable)
  | .run (.encRead v) => encReadStep v s
  | .run (.encBits y k) => withCode y s fun c => emitCode c k (.encBits y) s (encAfter y)
  | _ => .fault .strayPoint

/-- `SYM_COUNT <- 1; finish`: the end of ENCODE_SYM (R173). -/
def ensFinish (s : State) : Result := .next { s with symCount := 1 }.finish

/-- ENCODE_SYM of the symbol `y` (R173). -/
def encodeSymbol (y : Symbol) (s : State) : Result :=
  match s.eng with
  | .run .start =>
    if s.tableValid then
      withCode y s fun c =>
        if c.valid then emitCode c 0 .ensBits s ensFinish else .next (s.raise .unencodableSymbol)
    else .next (s.raise .noTable)
  | .run (.ensBits k) => withCode y s fun c => emitCode c k .ensBits s ensFinish
  | _ => .fault .strayPoint

/-- ENS, ENCODE_SYM of a data byte (R173). -/
def execEns (b : Byte) (s : State) : Result := encodeSymbol (symbolOfByte b) s

/-- ENS EOF, ENCODE_SYM of the end-of-stream symbol (R173). -/
def execEnsEof (s : State) : Result := encodeSymbol Config.eofSym s

end Sys2Proof.Machine
end

