-- ==== Sys2Proof/Machine/TreeCodec.lean ====
section
/-! DEFINITION. LOAD_TREE and STORE_TREE (spec/42_tree_codec.md R150 to R154). -/

namespace Sys2Proof.Machine

/-- LOAD_TREE raises `e`: the contents of NODE are unspecified afterwards (R150, I12). -/
def ldtRaise (e : ErrCode) (s : State) : Result := .next (s.forgetNodes.raise e)

/-- The head of LOAD_TREE's loop: `f <- ReadBits(1)` (R150). -/
def ldtReadFlag (n : NodeIx) (stack : List NodeIx) (attach : Bool) (s : State) : Result :=
  .next (s.readThen 1 fun f => .ldtFlag f n stack attach)

/-- `if attach: p <- pop(S); NODE[p].RIGHT <- i; attach <- false` (R150), then `k` with the stack left. -/
def ldtAttach (i : NodeIx) (stack : List NodeIx) (attach : Bool) (s : State)
    (k : List NodeIx → State → Result) : Result :=
  match attach, stack with
  | false, _ => k stack s
  | true, [] => .fault .emptyPop
  | true, p :: rest => withNode p s fun e => putNode p { e with right := i } s (k rest)

/-- LOAD_TREE from the flag bit `f` of node `n` (R150). -/
def ldtFlagStep (f : Option (BitVec 1)) (n : NodeIx) (stack : List NodeIx) (attach : Bool) (s : State) : Result :=
  match f with
  | none => ldtRaise .malformedHeader s
  | some b =>
    if n.toNat = Config.nodeCap then ldtRaise .treeCapacity s
    else ldtAttach n stack attach s fun rest t =>
      if b = 1 then .next (t.readThen 9 fun v => .ldtSym v (n + 1) n rest)
      else putNode n (openNode n) t (ldtReadFlag (n + 1) (n :: rest) false)

/-- LOAD_TREE from the symbol field `v` of leaf `i` (R150). -/
def ldtSymStep (v : Option Symbol) (n i : NodeIx) (stack : List NodeIx) (s : State) : Result :=
  match v with
  | none => ldtRaise .malformedHeader s
  | some y =>
    if Config.eofSym < y then ldtRaise .badSymbol s
    else putNode i (leafNode y) s fun t =>
      match stack with
      | [] => .next (t.flagsLoaded n).finish
      | _ :: _ => ldtReadFlag n stack true t

/-- LDT, LOAD_TREE (R150). -/
def execLdt (s : State) : Result :=
  match s.eng with
  | .run .start => ldtReadFlag 0 [] false s.flagsUnload
  | .run (.ldtFlag f n stack attach) => ldtFlagStep f n stack attach s
  | .run (.ldtSym v n i stack) => ldtSymStep v n i stack s
  | _ => .fault .strayPoint

/-- STORE_TREE's loop test and the node it pops, up to the flag bit or `finish` (R153). -/
def sttLoopStep (stack : List NodeIx) (s : State) : Result :=
  match stack with
  | [] => .next s.finish
  | i :: rest =>
    withNode i s fun e =>
      if nodeIsLeaf e then .next (s.writeThen 1 1 (.sttLeaf i rest))
      else .next (s.writeThen 1 0 (.sttInternal i rest))

/-- STT, STORE_TREE (R153). -/
def execStt (s : State) : Result :=
  match s.eng with
  | .run .start => if s.treeValid then sttLoopStep [0] s else .next (s.raise .noTree)
  | .run (.sttLeaf i stack) => withNode i s fun e => .next (s.writeThen 9 e.sym.toNat (.sttLoop stack))
  | .run (.sttInternal i stack) => withNode i s fun e => sttLoopStep (e.left :: e.right :: stack) s
  | .run (.sttLoop stack) => sttLoopStep stack s
  | _ => .fault .strayPoint

end Sys2Proof.Machine
end

