-- ==== Sys2Proof/Machine/Dispatch.lean ====
section
/-! DEFINITION. One arm per constructor of Instr. An arm is ONE ENGINE STEP of the command, from the point
where it stands up to and including its next stream access or its end (spec/00_scope.md R8); for SRST it is
the host step of the CTRL write (spec/40_command_control.md R128). -/

namespace Sys2Proof.Machine

def exec (i : Instr) (s : State) : Host.Outcome State Fault Refusal :=
  match i with
  | .nop => Sys2Proof.Machine.execNop s
  | .ldt => Sys2Proof.Machine.execLdt s
  | .stt => Sys2Proof.Machine.execStt s
  | .drv => Sys2Proof.Machine.execDrv s
  | .ckm => Sys2Proof.Machine.execCkm s
  | .wrm => Sys2Proof.Machine.execWrm s
  | .enc => Sys2Proof.Machine.execEnc s
  | .ens b => Sys2Proof.Machine.execEns b s
  | .ensEof => Sys2Proof.Machine.execEnsEof s
  | .dec => Sys2Proof.Machine.execDec s
  | .rwd => Sys2Proof.Machine.execRwd s
  | .srst ignored => Sys2Proof.Machine.execSrst ignored s
  | .illegal w => Sys2Proof.Machine.execIllegal w s

end Sys2Proof.Machine
end

