-- ==== Sys2Proof/Machine/HostPort.lean ====
section
/-! DEFINITION. The engine's turn and the host's register accesses (spec/10_state.md R22 to R38;
spec/20_memory.md R61, R75; spec/40_command_control.md R120 to R122, R129). -/

namespace Sys2Proof.Machine

/-- The value a host read at byte offset `offset` returns; no read has a side effect (R23 to R38, R75). -/
def State.readReg (offset : Nat) (s : State) : Word32 :=
  match offset with
  | 0x08 => s.statusWord
  | 0x0C => zext32 s.errCode.code
  | 0x10 => s.magic
  | 0x14 => zext32 s.nodeCount
  | 0x18 => s.inBits
  | 0x1C => s.outBits
  | 0x20 => s.symCount
  | _ => 0

/-- A 32-bit access at a word-aligned offset in 0x00..0xFF; a model refuses any other (R61, I18). -/
def accessOk (width offset : Nat) : Bool :=
  width == 32 && offset % 4 == 0 && decide (offset < Config.regSpace)

/-- A host read: the value goes to the host (R61, R129). -/
def hostRead (width offset : Nat) (s : State) : Result :=
  if accessOk width offset then .next { s with reads := s.reads ++ [s.readReg offset] }
  else .refused .hostAccess

/-- A host write to CMD: accepted when BUSY = 0 (R120), dropped with OVR when BUSY = 1 (R121). -/
def writeCmd (w : Word32) (s : State) : Result :=
  if s.busy then .next s.flagOverrun else .next (s.accept w)

/-- A host write to CTRL: the soft reset, or nothing (R25, R128). -/
def writeCtrl (w : Word32) (s : State) : Result :=
  match decode ⟨.ctrl, w⟩ with
  | .ok i => exec i s
  | .error _ => .next s

/-- A host write: CMD at 0x00, CTRL at 0x04, ignored at every other offset (R23, R38, R61, R75). -/
def hostWrite (width offset : Nat) (w : Word32) (s : State) : Result :=
  if accessOk width offset then
    match offset with
    | 0x00 => writeCmd w s
    | 0x04 => writeCtrl w s
    | _ => .next s
  else .refused .hostAccess

/-- The engine's turn: one step of the command in CMDLATCH while ENG = RUN (R8, R122, R123); an IDLE engine
takes no step (R224, log 7). -/
def engineTurn (s : State) : Result :=
  match s.eng with
  | .idle => .next s
  | .run _ => exec (decodeCmd s.cmdLatch) s

/-- A program line's wait (R99): the host reads STATUS; while BUSY = 1 the engine steps and the host reads
again; at BUSY = 0 the program stops if ERR = 1 and goes on otherwise (log 15). -/
def pollStatus (s : State) : Result :=
  .next { s with
    reads := s.reads ++ [s.readReg 0x08]
    agenda := if s.busy then .engine :: .poll :: s.agenda else if s.err then [] else s.agenda }

/-- One move of an agent (R4, R77, R225, R240). -/
def takeMove (m : Move) (s : State) : Result :=
  match m with
  | .engine => engineTurn s
  | .read width offset => hostRead width offset s
  | .write width offset value => hostWrite width offset value s
  | .poll => pollStatus s
  | .platformReset => .next s.resetBlock

/-- The host write of `h`, as a move (R61). -/
def moveOf (h : HostWord) : Move :=
  match h.port with
  | .cmd => .write 32 0x00 h.word
  | .ctrl => .write 32 0x04 h.word

/-- The state in which the very next step runs the instruction of the host word `h`: for a CMD word the
command has just been accepted (R120) and the engine moves next; for a CTRL word that write comes next
(log 12). -/
def State.withHostWord (h : HostWord) (s : State) : State :=
  match h.port with
  | .cmd => { s.accept h.word with agenda := .engine :: s.agenda }
  | .ctrl => { s with agenda := moveOf h :: s.agenda }

end Sys2Proof.Machine
end

