-- ==== Sys2Proof/Machine/Step.lean ====
section
/-! DEFINITION. One step of the system: the next move of the agenda, or, when none is left, the engine's turn
(spec/20_memory.md R77; spec/70_reset_and_hazards.md R252 weak fairness). -/

namespace Sys2Proof.Machine

/-- One step. -/
def step (s : State) : Host.Outcome State Fault Refusal :=
  match s.agenda with
  | [] => engineTurn s
  | m :: rest => takeMove m { s with agenda := rest }

/-- `s` with one instruction of the opcode table about to run: the next step runs exactly it (log 12). -/
def State.withFetchWord (s : State) (nbits w : Nat) : State :=
  s.withHostWord ⟨tablePort nbits, BitVec.ofNat 32 (w % 2 ^ nbits)⟩

end Sys2Proof.Machine
end

