-- ==== Sys2Proof/Machine/Program.lean ====
section
/-! DEFINITION. The host's command programs: the assembler syntax and the pseudo-instructions of
spec/30_encoding.md R99 and R100. -/

namespace Sys2Proof.Machine

/-- The pseudo-instructions of R100. -/
inductive Pseudo where
  | decompress
  | compress
  | ensEof
deriving DecidableEq, Repr

/-- One line of a program (R99). -/
inductive Line where
  | instr (i : Instr)
  | pseudo (p : Pseudo)
deriving DecidableEq, Repr

/-- The expansions of R100. -/
def Pseudo.expand : Pseudo → List Instr
  | .decompress => [.ckm, .ldt, .dec]
  | .compress => [.ldt, .drv, .wrm, .stt, .enc]
  | .ensEof => [.ensEof]

/-- The instructions a line stands for (R99, R100). -/
def Line.instrs : Line → List Instr
  | .instr i => [i]
  | .pseudo p => p.expand

/-- What the host does for one instruction: write CMD, then wait and stop on error; SRST is the CTRL write
alone (R99). -/
def instrMoves (i : Instr) : List Move :=
  match (encode i).port with
  | .cmd => [moveOf (encode i), .poll]
  | .ctrl => [moveOf (encode i)]

/-- The host's moves for a program (R99). -/
def programMoves (lines : List Line) : List Move := (lines.flatMap Line.instrs).flatMap instrMoves

/-- A host program is about to start on the input bits `bits` (R225: the host supplies IN before the run). -/
def State.withProgram (bits : List Bool) (lines : List Line) (s : State) : State :=
  { s with input := bits, ip := 0, agenda := programMoves lines }

/-! ### The text of a program (R99; the lexical choices of log 19) -/

/-- The mnemonics of R91 without operand, SRST (R99) and the pseudo-instructions (R100). -/
def mnemonics : List (List Char × Line) :=
  [ (['N', 'O', 'P'], .instr .nop), (['L', 'D', 'T'], .instr .ldt), (['S', 'T', 'T'], .instr .stt),
    (['D', 'R', 'V'], .instr .drv), (['C', 'K', 'M'], .instr .ckm), (['W', 'R', 'M'], .instr .wrm),
    (['E', 'N', 'C'], .instr .enc), (['D', 'E', 'C'], .instr .dec), (['R', 'W', 'D'], .instr .rwd),
    (['S', 'R', 'S', 'T'], .instr (.srst 0)), (['E', 'N', 'S', '_', 'E', 'O', 'F'], .pseudo .ensEof),
    (['C', 'O', 'M', 'P', 'R', 'E', 'S', 'S'], .pseudo .compress),
    (['D', 'E', 'C', 'O', 'M', 'P', 'R', 'E', 'S', 'S'], .pseudo .decompress) ]

/-- The value of a digit in base `base`. -/
def digitValue (base : Nat) (c : Char) : Option Nat :=
  let n := c.toNat
  let v :=
    if 48 ≤ n ∧ n ≤ 57 then n - 48
    else if 65 ≤ n ∧ n ≤ 70 then n - 55
    else if 97 ≤ n ∧ n ≤ 102 then n - 87
    else base
  if v < base then some v else none

/-- The value of a digit string in base `base`, after the digits that gave `acc`. -/
def digitsValue (base : Nat) : Nat → List Char → Option Nat
  | acc, [] => some acc
  | acc, c :: rest =>
    match digitValue base c with
    | some v => digitsValue base (base * acc + v) rest
    | none => none

/-- `<sym>`: a decimal number, a `0x` hexadecimal number, or `EOF` (R99). -/
def parseSym : List Char → Option Nat
  | [] => none
  | ['E', 'O', 'F'] => some 256
  | '0' :: 'x' :: c :: rest => digitsValue 16 0 (c :: rest)
  | c :: rest => digitsValue 10 0 (c :: rest)

/-- ENS of a symbol number, which must be 0..256 (R92). -/
def ensLine (n : Nat) : Option Line :=
  if n < 256 then some (.instr (.ens (BitVec.ofNat 8 n)))
  else if n = 256 then some (.instr .ensEof)
  else none

/-- The word being read, reversed in `word`, as a list of words: none when nothing of it has been read. -/
def lastWord (word : List Char) : List (List Char) := if word.isEmpty then [] else [word.reverse]

/-- The words of a text line up to its comment, split at blanks (R99); `word` is the word being read,
reversed. -/
def lineWords : List Char → List Char → List (List Char)
  | word, [] => lastWord word
  | word, c :: rest =>
    if c = ';' then lastWord word
    else if c = ' ' ∨ c = '\t' ∨ c = '\r' then lastWord word ++ lineWords [] rest
    else lineWords (c :: word) rest

/-- One text line: no program line when blank, none where it is not of the syntax of R99. -/
def parseLine (text : List Char) : Option (List Line) :=
  match lineWords [] text with
  | [] => some []
  | [m] => (mnemonics.lookup m).map fun l => [l]
  | [m, x] => if m = ['E', 'N', 'S'] then (parseSym x).bind fun n => (ensLine n).map fun l => [l] else none
  | _ => none

/-- The lines of a text; `line` is the line being read, reversed. -/
def textLines : List Char → List Char → List (List Char)
  | line, [] => [line.reverse]
  | line, c :: rest => if c = '\n' then line.reverse :: textLines [] rest else textLines (c :: line) rest

/-- All lines of a program, none where one of them is not of the syntax. -/
def parseLines : List (List Char) → Option (List Line)
  | [] => some []
  | l :: rest =>
    match parseLine l, parseLines rest with
    | some a, some b => some (a ++ b)
    | _, _ => none

/-- The assembler (R99). -/
def parseProgram (text : List Char) : Option (List Line) := parseLines (textLines [] text)

end Sys2Proof.Machine
end

