-- ==== Sys2Proof/Machine/Format.lean ====
section
/-! DEFINITION. The stream formats of spec/30_encoding.md R94 to R98 as functions of a code tree: what the
commands read and write, said without the engine. -/

namespace Sys2Proof.Machine

/-- A full binary code tree: a leaf owns a symbol, an internal node has two children (R9, R94). -/
inductive Tree where
  | leaf (sym : Symbol)
  | node (left right : Tree)
deriving DecidableEq, Repr

/-- How many nodes the tree has. -/
def Tree.size : Tree → Nat
  | .leaf _ => 1
  | .node l r => l.size + r.size + 1

/-- The leaves' symbols in pre-order. -/
def Tree.symbols : Tree → List Symbol
  | .leaf v => [v]
  | .node l r => l.symbols ++ r.symbols

/-- Every leaf's symbol is 0..256 (R95). -/
def Tree.symsOk (t : Tree) : Bool := t.symbols.all fun v => decide (v ≤ Config.eofSym)

/-- The serialized tree: flag 1 and nine symbol bits for a leaf, flag 0 and both subtrees for an internal node
(R94). -/
def Tree.serialize : Tree → List Bool
  | .leaf v => true :: lowBits 9 v.toNat
  | .node l r => false :: (l.serialize ++ r.serialize)

/-- One field of a header's bits: a flag bit, or a leaf's nine symbol bits (R94). -/
inductive HeaderField where
  | flag (b : Bool)
  | symbol (v : Symbol)
deriving DecidableEq, Repr

/-- The fields that stand complete in a header's bits, read from a flag on (`none`) or inside a symbol field of which
`some` bits have been read (R94). It needs no whole tree, so it also reads a header that is cut. -/
def headerFields : Option (List Bool) → List Bool → List HeaderField
  | _, [] => []
  | none, b :: rest => .flag b :: headerFields (if b then some [] else none) rest
  | some field, b :: rest =>
    if field.length < 8 then headerFields (some (field ++ [b])) rest
    else .symbol (BitVec.ofNat 9 (bitsValue (field ++ [b]))) :: headerFields none rest

/-- The field is a flag bit. -/
def HeaderField.isFlag : HeaderField → Bool
  | .flag _ => true
  | .symbol _ => false

/-- The field is no symbol that R95 leaves without a meaning. -/
def HeaderField.ok : HeaderField → Bool
  | .flag _ => true
  | .symbol v => decide (v ≤ Config.eofSym)

/-- How many flag bits a header's bits hold: one for each node begun (R94). -/
def headerFlags (bits : List Bool) : Nat := (headerFields none bits).countP HeaderField.isFlag

/-- Every symbol field that stands complete in a header's bits is 0..256 (R95). -/
def headerSymsOk (bits : List Bool) : Bool := (headerFields none bits).all HeaderField.ok

/-- The fields of a serialized tree, in stream order (R94). -/
def Tree.fields : Tree → List HeaderField
  | .leaf v => [.flag true, .symbol v]
  | .node l r => .flag false :: (l.fields ++ r.fields)

/-- Each leaf's symbol with its root-to-leaf path, 0 (false) = left, 1 (true) = right, in pre-order (R97). -/
def Tree.paths : Tree → List (Symbol × List Bool)
  | .leaf v => [(v, [])]
  | .node l r =>
    (l.paths.map fun c => (c.1, false :: c.2)) ++ (r.paths.map fun c => (c.1, true :: c.2))

/-- The code of a symbol: the path of its first leaf in pre-order; none where no leaf carries it (R97, R140). -/
def Tree.code (t : Tree) (y : Symbol) : Option (List Bool) := t.paths.lookup y

/-- The code-table entry of a code string: `LEN = len`, `BITS = sum over k of c_k * 2^(len-1-k)` (R97). -/
def codeEntryOf (bits : List Bool) : CodeEntry := codeOf bits.length (bitsValue bits)

/-- The code-table entry of a symbol under a tree: its code, or an absent one (R41, R140). -/
def Tree.codeEntry (t : Tree) (y : Symbol) : CodeEntry :=
  match t.code y with
  | some p => codeEntryOf p
  | none => noCode

/-- The codes of a list of symbols, one after another; none where one of them has no code (R96, R172). -/
def Tree.codesOf (t : Tree) : List Symbol → Option (List Bool)
  | [] => some []
  | y :: rest =>
    match t.code y, t.codesOf rest with
    | some p, some q => some (p ++ q)
    | _, _ => none

/-- The payload of data bytes: their codes, then the EOF code (R96). -/
def Tree.payload (t : Tree) (data : List Byte) : Option (List Bool) :=
  t.codesOf (data.map symbolOfByte ++ [Config.eofSym])

/-- The compressed file before padding: magic, serialized tree, payload (R96). -/
def fileBits (magic : Word32) (t : Tree) (payload : List Bool) : List Bool :=
  lowBits 32 magic.toNat ++ t.serialize ++ payload

/-- The bytes of a bit string, eight bits each, the first bit as bit 7; a shorter rest is left out. -/
def bytesOfBits : List Bool → List Byte
  | b7 :: b6 :: b5 :: b4 :: b3 :: b2 :: b1 :: b0 :: rest =>
    BitVec.ofNat 8 (bitsValue [b7, b6, b5, b4, b3, b2, b1, b0]) :: bytesOfBits rest
  | _ => []

/-- How many pad bits complete the last byte (R70). -/
def padCount (out : List Bool) : Nat := (8 - out.length % 8) % 8

/-- The sink's packing of OUT into bytes, its last byte completed by the bits `pad 0`, `pad 1`, ..., any values
(R70, I2, log 9). -/
def packBits (pad : Nat → Bool) (out : List Bool) : List Byte :=
  bytesOfBits (out ++ (List.range (padCount out)).map pad)

end Sys2Proof.Machine
end

