-- ==== Sys2Proof/Safety.lean ====
section
/-! DEFINITION. The terms the claims are stated in: whole commands, the end of a run, and the machine
invariant that rules out the states no run reaches (spec/10_state.md R26 to R34, R40; spec/41_code_table.md
R141; spec/42_tree_codec.md R151, R152). -/

namespace Sys2Proof.Machine

/-- `n` engine steps (R8, R122), stopping at a fault or refusal. -/
def engineSteps : Nat → State → Result
  | 0, s => .next s
  | n + 1, s =>
    match engineTurn s with
    | .next t => engineSteps n t
    | .fault r => .fault r
    | .refused r => .refused r

/-- The command `i` has been accepted and stands at its start (R120, R123). -/
def Started (i : Instr) (s : State) : Prop := s.eng = .run .start ∧ decodeCmd s.cmdLatch = i

/-- The symbol an ENCODE_SYM names (R173): a data byte, or EOF. -/
def EncodesSymbol (i : Instr) (y : Symbol) : Prop :=
  (∃ b : Byte, i = .ens b ∧ y = symbolOfByte b) ∨ (i = .ensEof ∧ y = Config.eofSym)

/-- The code string of a code-table entry, first bit first (R97, R170). -/
def codeString (c : CodeEntry) : List Bool := (List.range c.len.toNat).map (codeBit c)

/-- The move is a reset: the platform's, or a CTRL write with bit 0 = 1 (R128, R240). -/
def Move.resets : Move → Bool
  | .engine => false
  | .read _ _ => false
  | .write width offset value => width == 32 && offset == 0x04 && value.getLsbD 0
  | .poll => false
  | .platformReset => true

/-- The move is a host write to CMD (R24). -/
def Move.issues : Move → Bool
  | .engine => false
  | .read _ _ => false
  | .write width offset _ => width == 32 && offset == 0x00
  | .poll => false
  | .platformReset => false

/-- The tree-memory entries LOAD_TREE stores to in the step that resumes at a point (R150): the entry whose right
child begins, and the entry of the node just read. -/
def ldtStores : Point → List Nat
  | .ldtFlag (some b) n stack attach =>
    (if attach then (stack.take 1).map (·.toNat) else []) ++ (if b = 0 then [n.toNat] else [])
  | .ldtSym (some _) _ i _ => [i.toNat]
  | _ => []

/-- What a run leaves to observe: OUT, IP and the host registers (R226). -/
structure Observation where
  status    : Word32
  errCode   : Word32
  magic     : Word32
  nodeCount : Word32
  inBits    : Word32
  outBits   : Word32
  symCount  : Word32
  ip        : Nat
  out       : List Bool
deriving DecidableEq, Repr

/-- The observation of a state (R226). -/
def State.observe (s : State) : Observation where
  status := s.readReg 0x08
  errCode := s.readReg 0x0C
  magic := s.readReg 0x10
  nodeCount := s.readReg 0x14
  inBits := s.readReg 0x18
  outBits := s.readReg 0x1C
  symCount := s.readReg 0x20
  ip := s.ip
  out := s.out

/-- A run of a host program has ended: no move left and ENG = IDLE (R226). -/
def State.runEnded (s : State) : Bool := s.agenda.isEmpty && !s.busy

/-- Two runs show the outside world the same: both go on, with the same observation and the same values returned
to the host, or both are refused for the same reason. -/
def SameShown : Result → Result → Prop
  | .next a, .next b => a.observe = b.observe ∧ a.reads = b.reads ∧ a.agenda = b.agenda
  | .refused r, .refused r' => r = r'
  | _, _ => False

/-- `NODE[i]` onwards holds the tree `t` in pre-order (R40): a leaf with a symbol 0..256, or an internal node
whose left subtree starts at `i + 1` and whose right subtree follows it. -/
def NodeMem.holds (m : NodeMem) : Nat → Tree → Prop
  | i, .leaf v => m.read i = leafNode v ∧ v ≤ Config.eofSym
  | i, .node l r =>
    m.read i = ⟨.internal, 0, BitVec.ofNat 10 (i + 1), BitVec.ofNat 10 (i + 1 + l.size)⟩ ∧
      m.holds (i + 1) l ∧ m.holds (i + 1 + l.size) r

/-- The loaded tree is `t` (R40): NODE[0..NODE_COUNT-1] holds it and NODE_COUNT is its size. -/
def State.hasTree (s : State) (t : Tree) : Prop :=
  s.treeValid = true ∧ s.nodeCount.toNat = t.size ∧ t.size ≤ Config.nodeCap ∧ s.nodes.holds 0 t

/-- CODE is the table of the tree `t`, whose symbols are distinct (R141). -/
def State.hasTable (s : State) (t : Tree) : Prop :=
  t.symbols.Nodup ∧ ∀ y : Symbol, y ≤ Config.eofSym → s.codes.read y.toNat = t.codeEntry y

/-- Entry `i` is an internal node whose left child is the next entry (R40). -/
def NodeMem.opensAt (m : NodeMem) (i : Nat) : Prop :=
  (m.read i).kind = .internal ∧ (m.read i).sym = 0 ∧ (m.read i).left = BitVec.ofNat 10 (i + 1)

/-- While LOAD_TREE runs: `stack` holds exactly the internal nodes on the path from the root to node `i`, the
next one to be filled, whose right subtree has not begun (R151). -/
inductive Spine (m : NodeMem) : List NodeIx → Nat → Prop where
  | root : Spine m [] 0
  | left {stack : List NodeIx} {p : NodeIx} :
      Spine m stack p.toNat → m.opensAt p.toNat → Spine m (p :: stack) (p.toNat + 1)
  | right {stack : List NodeIx} {p : Nat} {l : Tree} :
      Spine m stack p → m.opensAt p → m.holds (p + 1) l →
      (m.read p).right = BitVec.ofNat 10 (p + 1 + l.size) → Spine m stack (p + 1 + l.size)

/-- LOAD_TREE with `n` nodes allocated: with `attach` the top of the stack has its left subtree complete up to
node `n - 1`; without it node `n` is the next to be filled (R150 to R152). -/
def LoadOk (m : NodeMem) (n : NodeIx) (stack : List NodeIx) (attach : Bool) : Prop :=
  n.toNat ≤ Config.nodeCap ∧
    match attach, stack with
    | false, _ => Spine m stack n.toNat
    | true, [] => False
    | true, p :: rest =>
      ∃ l : Tree, Spine m rest p.toNat ∧ m.opensAt p.toNat ∧ m.holds (p.toNat + 1) l ∧
        n.toNat = p.toNat + 1 + l.size

/-- No tree is loaded: what LOAD_TREE leaves while it runs (R29, R30, R34). -/
def Unloaded (s : State) : Prop := s.treeValid = false ∧ s.tableValid = false ∧ s.nodeCount = 0

/-- Some tree stands at entry `i` of the tree memory, all of it below 513. -/
def NodeMem.treeAt (m : NodeMem) (i : Nat) : Prop :=
  ∃ t : Tree, m.holds i t ∧ i + t.size ≤ Config.nodeCap

/-- EmitCode stands after `k` bits of a code that is in the table (R170). -/
def EmitOk (s : State) (y : Symbol) (k : Nat) : Prop :=
  s.tableValid = true ∧ y ≤ Config.eofSym ∧ (s.codes.read y.toNat).valid = true ∧ 1 ≤ k ∧
    k ≤ (s.codes.read y.toNat).len.toNat

/-- The resume point belongs to the running command `i`, with locals that its pseudocode can reach (R22, R151,
R152, R170, R191). -/
def PointOk (i : Instr) (s : State) : Point → Prop
  | .start => True
  | .ldtFlag _ n stack attach => i = .ldt ∧ Unloaded s ∧ LoadOk s.nodes n stack attach
  | .ldtSym _ n j stack =>
    i = .ldt ∧ Unloaded s ∧ n.toNat = j.toNat + 1 ∧ j.toNat < Config.nodeCap ∧ Spine s.nodes stack j.toNat
  | .sttInternal j stack =>
    i = .stt ∧ s.treeValid = true ∧ (s.nodes.read j.toNat).kind = .internal ∧
      ∀ k ∈ j :: stack, s.nodes.treeAt k.toNat
  | .sttLeaf j stack =>
    i = .stt ∧ s.treeValid = true ∧ (s.nodes.read j.toNat).kind = .leaf ∧
      ∀ k ∈ j :: stack, s.nodes.treeAt k.toNat
  | .sttLoop stack => i = .stt ∧ s.treeValid = true ∧ ∀ k ∈ stack, s.nodes.treeAt k.toNat
  | .ckmRead _ => i = .ckm
  | .wrmWritten => i = .wrm
  | .encRead _ => i = .enc ∧ s.tableValid = true
  | .encBits y k => i = .enc ∧ EmitOk s y k
  | .ensBits k =>
    (∃ b : Byte, i = .ens b ∧ EmitOk s (symbolOfByte b) k) ∨ (i = .ensEof ∧ EmitOk s Config.eofSym k)
  | .decRead _ =>
    i = .dec ∧ s.treeValid = true ∧ s.nodes.treeAt s.cur.toNat ∧
      (nodeIsLeaf (s.nodes.read 0) = true → nodeIsEof (s.nodes.read 0) = true ∧ s.cur = 0)
  | .decWritten _ => i = .dec ∧ s.treeValid = true ∧ nodeIsLeaf (s.nodes.read 0) = false
  | .rwdDone => i = .rwd

/-- The invariant of the registers (R26 to R33, R62): every step keeps it. -/
structure RegInv (s : State) : Prop where
  /-- The cursor stays inside IN (R62). -/
  cursor : s.ip ≤ s.input.length
  /-- MAGIC_VALUE is not 0 (R5, R33). -/
  magicNonzero : s.magic ≠ 0
  /-- DONE = ERR = 1 never holds (R28). -/
  doneOrErr : ¬(s.done = true ∧ s.err = true)
  /-- DONE = ERR = 0 while BUSY = 1 (R28). -/
  busyClear : s.busy = true → s.done = false ∧ s.err = false
  /-- ERRCODE is 0x00 unless the last command ended by `raise` (R32). -/
  errCode : s.err = true ↔ s.errCode ≠ .none
  /-- A table belongs to a loaded tree (R29, R30). -/
  table : s.tableValid = true → s.treeValid = true

/-- The machine invariant: the registers', the canonical form of the memories, the loaded tree (R40), the
derived table (R141) and the running command's resume point. Every step keeps it, and from a state that has it
no step faults. -/
structure Inv (s : State) : Prop where
  regs : RegInv s
  mem : Memory.wf s = true
  /-- NODE_COUNT is nonzero exactly when TREE_VALID = 1 (R34). -/
  count : s.treeValid = true ↔ s.nodeCount ≠ 0
  /-- When TREE_VALID = 1 the tree memory holds a full tree in pre-order (R40), and when TABLE_VALID = 1 the
  code table is that tree's (R141). -/
  tree : s.treeValid = true → ∃ t : Tree, s.hasTree t ∧ (s.tableValid = true → s.hasTable t)
  point : ∀ p : Point, s.eng = .run p → PointOk (decodeCmd s.cmdLatch) s p

end Sys2Proof.Machine
end

