-- ==== Sys2Proof/Certificates/Slice0/Obligations.lean ====
section
/-! DEFINITION. The statements for the provers. Each docstring names the rules it formalises. "The working
registers" are CMDLATCH and CUR: when a command ends they lose their meaning (R21, R124), so a statement about
an ended command says nothing of them, nor of the model's counter `draws` (logs 3 and 4). -/

open Sys2Proof Sys2Proof.Machine

/-! ### Reset -/

/-- R240, R243, R44: the soft reset, and with the same effect the platform's reset input, leaves ENG = IDLE, every
readable register 0 but MAGIC, and IN, IP and OUT unchanged. That the moves still to come and the values already
read also stay, so that a reset ends no host program, is the model's choice (log 17). -/
def Obligations.ResetClearsRegistersKeepsStreams : Prop :=
  ∀ (ignored : BitVec 31) (s : State), ∃ t : State,
    exec (.srst ignored) s = .next t ∧ takeMove .platformReset s = .next t ∧
      t.eng = .idle ∧ (∀ offset, offset ≠ 0x10 → t.readReg offset = 0) ∧ t.readReg 0x10 = s.magic ∧
      t.input = s.input ∧ t.ip = s.ip ∧ t.out = s.out ∧ t.agenda = s.agenda ∧ t.reads = s.reads

/-- R44, R33: the state after power-on: ENG = IDLE, every readable register 0 but MAGIC, which holds
MAGIC_VALUE, not 0 (R5). -/
def Obligations.PowerOnRegisters : Prop :=
  State.reset.eng = .idle ∧ (∀ offset, offset ≠ 0x10 → State.reset.readReg offset = 0) ∧
    State.reset.readReg 0x10 = Config.magicValue ∧ Config.magicValue ≠ 0

/-! ### Encodings -/

/-- R91, R25: words written out from the operation map decode to their commands. -/
def Obligations.OperationMapWords : Prop :=
  decode ⟨.cmd, 0x00000000⟩ = .ok .nop ∧ decode ⟨.cmd, 0x00000001⟩ = .ok .ldt ∧
  decode ⟨.cmd, 0x00000002⟩ = .ok .stt ∧ decode ⟨.cmd, 0x00000003⟩ = .ok .drv ∧
  decode ⟨.cmd, 0x00000004⟩ = .ok .ckm ∧ decode ⟨.cmd, 0x00000005⟩ = .ok .wrm ∧
  decode ⟨.cmd, 0x00000006⟩ = .ok .enc ∧ decode ⟨.cmd, 0x00000427⟩ = .ok (.ens 0x42) ∧
  decode ⟨.cmd, 0x00001007⟩ = .ok .ensEof ∧ decode ⟨.cmd, 0x00000008⟩ = .ok .dec ∧
  decode ⟨.cmd, 0x00000009⟩ = .ok .rwd ∧ decode ⟨.ctrl, 0xFFFFFFFF⟩ = .ok (.srst 0x7FFFFFFF) ∧
  decode ⟨.ctrl, 0xFFFFFFFE⟩ = .error .ctrlNoEffect ∧
  decode ⟨.cmd, 0x00001017⟩ = .ok (.illegal 0x00001017)

/-- R90 to R93: decoding the encoding of a well-formed instruction gives it back, every operand at every value. -/
def Obligations.DecodeEncode : Prop := ∀ i : Instr, i.wf = true → decode (encode i) = .ok i

/-- R90 to R93: every host word that runs something is the encoding of the well-formed instruction it decodes to,
so no two words of one register decode to one instruction. That this holds of CTRL words, whose bits 31:1 R25
calls ignored, and of the words that spell no command is the model's choice (log 13): the constructors of SRST
and of the default row keep those bits. -/
def Obligations.EncodeDecode : Prop :=
  ∀ (h : HostWord) (i : Instr), decode h = .ok i → i.wf = true ∧ encode i = h

/-- R93: a word spells no command exactly when RSV is not 0, or OP is 0xA..0xF, or SYM is not 0 on a command other
than ENCODE_SYM, or ENCODE_SYM names a symbol above 256; it is accepted, and its first step raises BAD_COMMAND
and changes nothing else (R123, R125). -/
def Obligations.IllegalWordRaisesBadCommand : Prop :=
  ∀ (w : Word32) (s : State), s.eng = .run .start → s.cmdLatch = w →
    ((w.toNat / 2 ^ 13 ≠ 0 ∨ 10 ≤ w.toNat % 16 ∨ (w.toNat % 16 ≠ 7 ∧ w.toNat / 16 % 512 ≠ 0) ∨
        (w.toNat % 16 = 7 ∧ 256 < w.toNat / 16 % 512)) ↔ decodeCmd w = .illegal w) ∧
    (decodeCmd w = .illegal w → ∃ t : State, exec (.illegal w) s = .next t ∧ engineTurn s = .next t ∧
      t = { s with err := true, errCode := .badCommand, eng := .idle, cmdLatch := t.cmdLatch, cur := t.cur,
                   draws := t.draws })

/-! ### The host's side -/

/-- R120: a CMD write with BUSY = 0 is accepted in that same host step, and nothing else changes. -/
def Obligations.AcceptanceStartsCommand : Prop :=
  ∀ (w : Word32) (s : State), s.busy = false → ∃ t : State,
    takeMove (.write 32 0x00 w) s = .next t ∧ t.busy = true ∧
      t = { s with cmdLatch := w, done := false, err := false, errCode := .none, inBits := 0, outBits := 0,
                   symCount := 0, eng := .run .start }

/-- R121: a CMD write with BUSY = 1 is dropped and sets OVR; nothing else changes. -/
def Obligations.OverrunDropsWrite : Prop :=
  ∀ (w : Word32) (s : State), s.busy = true → takeMove (.write 32 0x00 w) s = .next { s with ovr := true }

/-- R31: OVR is set when a CMD write is dropped because BUSY = 1, stays 1 until a reset, and nothing else sets or
clears it, whatever the step. -/
def Obligations.OverrunFlagIsSticky : Prop :=
  ∀ s t : State, step s = .next t →
    t.ovr = match s.agenda with
      | [] => s.ovr
      | m :: _ => !m.resets && (s.ovr || (m.issues && s.busy))

/-- R26: the bits of STATUS, and a write to it is ignored. -/
def Obligations.StatusWordLayout : Prop :=
  ∀ (s : State) (w : Word32),
    s.readReg 0x08 = s.statusWord ∧ s.statusWord.getLsbD 0 = s.busy ∧ s.statusWord.getLsbD 1 = s.done ∧
    s.statusWord.getLsbD 2 = s.err ∧ s.statusWord.getLsbD 3 = s.treeValid ∧
    s.statusWord.getLsbD 4 = s.tableValid ∧ s.statusWord.getLsbD 5 = s.ovr ∧
    (∀ k, 6 ≤ k → s.statusWord.getLsbD k = false) ∧ (s.busy = true ↔ s.eng ≠ .idle) ∧
    takeMove (.write 32 0x08 w) s = .next s

/-- R23, R24, R25, R32 to R37, R211: what each register of the map reads as, and the values of the error codes, all
distinct, in ERRCODE bits 7:0 with bits 31:8 read as 0. -/
def Obligations.RegisterMapReads : Prop :=
  (∀ s : State, s.readReg 0x00 = 0 ∧ s.readReg 0x04 = 0 ∧ (s.readReg 0x0C).toNat = s.errCode.code.toNat ∧
    s.readReg 0x10 = s.magic ∧ (s.readReg 0x14).toNat = s.nodeCount.toNat ∧ s.readReg 0x18 = s.inBits ∧
    s.readReg 0x1C = s.outBits ∧ s.readReg 0x20 = s.symCount) ∧
  (∀ a b : ErrCode, a.code = b.code → a = b) ∧
  ErrCode.none.code = 0x00 ∧ ErrCode.invalidMagic.code = 0x01 ∧ ErrCode.malformedHeader.code = 0x02 ∧
  ErrCode.truncatedStream.code = 0x03 ∧ ErrCode.unencodableSymbol.code = 0x04 ∧
  ErrCode.badCommand.code = 0x10 ∧ ErrCode.noTree.code = 0x11 ∧ ErrCode.noTable.code = 0x12 ∧
  ErrCode.treeCapacity.code = 0x13 ∧ ErrCode.badSymbol.code = 0x14 ∧ ErrCode.duplicateSymbol.code = 0x15 ∧
  ErrCode.degenerateTree.code = 0x16

/-- R23, R38, R75: a write to any read-only register or reserved offset, 0x08 to 0xFC, is ignored; a reserved offset,
0x24 to 0xFC, reads 0; no read of any register has a side effect: it only hands the value to the host. That the
host's values stand in the list `reads` is the model's choice (log 6). -/
def Obligations.ReservedOffsetsAndReads : Prop :=
  ∀ (s : State) (offset : Nat) (w : Word32), offset % 4 = 0 → offset < 256 →
    takeMove (.read 32 offset) s = .next { s with reads := s.reads ++ [s.readReg offset] } ∧
    (0x08 ≤ offset → takeMove (.write 32 offset w) s = .next s) ∧
    (0x24 ≤ offset → s.readReg offset = 0)

/-- R61, I18: a host access of another width, at an unaligned offset or outside the window is refused. -/
def Obligations.OddHostAccessRefused : Prop :=
  ∀ (s : State) (width offset : Nat) (w : Word32), (width ≠ 32 ∨ offset % 4 ≠ 0 ∨ 256 ≤ offset) →
    takeMove (.read width offset) s = .refused .hostAccess ∧
      takeMove (.write width offset w) s = .refused .hostAccess

/-- R25: a CTRL write with bit 0 = 0 has no effect; with bit 0 = 1 it is the soft reset, BUSY or not, bits 31:1
ignored; CTRL reads 0. -/
def Obligations.ControlWrite : Prop :=
  ∀ (s : State) (w : Word32),
    s.readReg 0x04 = 0 ∧ (w.getLsbD 0 = false → takeMove (.write 32 0x04 w) s = .next s) ∧
    (w.getLsbD 0 = true → takeMove (.write 32 0x04 w) s = takeMove .platformReset s)

/-- R99: a program line's wait reads STATUS; while BUSY = 1 the engine steps and the host reads again; at BUSY = 0
the program stops if ERR = 1 and goes on otherwise. One poll per engine step is the model's choice (log 15). -/
def Obligations.ProgramLineWaits : Prop :=
  ∀ s : State, ∃ t : State, takeMove .poll s = .next t ∧ t.reads = s.reads ++ [s.statusWord] ∧
    t = { s with reads := t.reads, agenda := t.agenda } ∧
    (s.busy = true → t.agenda = .engine :: .poll :: s.agenda) ∧
    (s.busy = false → t.agenda = if s.err = true then [] else s.agenda)

/-! ### The step -/

/-- R8, R22, R123, R224: an engine step of a running command is exec of the instruction in CMDLATCH, and a CTRL
write that decodes runs it in the host step, both after the move is taken off the agenda; an IDLE engine takes no
step. That the moves stand in an agenda and that the engine moves when it is empty is the model's choice (log 6),
and so is that a step of an IDLE engine answers the same state (log 7). -/
def Obligations.StepRunsDecodedInstruction : Prop :=
  (∀ (s : State) (p : Point), s.agenda = [] → s.eng = .run p → step s = exec (decodeCmd s.cmdLatch) s) ∧
  (∀ (s : State) (p : Point) (rest : List Move), s.agenda = .engine :: rest → s.eng = .run p →
    step s = exec (decodeCmd s.cmdLatch) { s with agenda := rest }) ∧
  (∀ (s : State) (w : Word32) (i : Instr) (rest : List Move), s.agenda = .write 32 0x04 w :: rest →
    decode ⟨.ctrl, w⟩ = .ok i → step s = exec i { s with agenda := rest }) ∧
  (∀ s : State, s.eng = .idle → engineTurn s = .next s ∧ (s.agenda = [] → step s = .next s))

/-! ### The stream ports -/

/-- R64, R65, R66: ReadBits(n) returns the next n bits, the first as bit n-1, and consumes them, or returns EXH and
consumes what is left; IN_BITS counts what is consumed and nothing else changes. -/
def Obligations.ReadBitsContract : Prop :=
  ∀ (n : Nat) (s : State), s.ip ≤ s.input.length →
    s.consume n = { s with ip := (s.consume n).ip, inBits := (s.consume n).inBits } ∧
    (n ≤ s.input.length - s.ip → ∃ v : BitVec n, s.peekBits n = some v ∧
      v.toNat = ((List.range n).map fun k => (s.input.getD (s.ip + k) false).toNat * 2 ^ (n - 1 - k)).sum ∧
      (s.consume n).ip = s.ip + n ∧ (s.consume n).inBits = s.inBits + BitVec.ofNat 32 n) ∧
    (s.input.length - s.ip < n → s.peekBits n = none ∧ (s.consume n).ip = s.input.length ∧
      (s.consume n).inBits = s.inBits + BitVec.ofNat 32 (s.input.length - s.ip))

/-- R68, R69: WriteBits(n, v) appends v[n-1] ... v[0] and adds n to OUT_BITS; nothing else changes. -/
def Obligations.WriteBitsContract : Prop :=
  ∀ (n v : Nat) (s : State),
    s.writeBits n v = { s with out := s.out ++ (List.range n).map (fun k => v.testBit (n - 1 - k)),
                               outBits := s.outBits + BitVec.ofNat 32 n }

/-- R63, R64: reading 8 bits at a byte of a byte-oriented source returns the byte and leaves the next ones. -/
def Obligations.ByteReadsBack : Prop :=
  ∀ (b : Byte) (rest : List Byte) (tail : List Bool) (s : State), s.unread = bitsOfBytes (b :: rest) ++ tail →
    s.peekBits 8 = some b ∧ (s.consume 8).unread = bitsOfBytes rest ++ tail

/-- R62, R33, R68, R125: whatever the step, IN and MAGIC never change and OUT only grows. -/
def Obligations.InputFixedOutputGrows : Prop :=
  ∀ s t : State, step s = .next t → t.input = s.input ∧ t.magic = s.magic ∧ s.out <+: t.out

/-! ### NOP, REWIND, CHECK_MAGIC, WRITE_MAGIC -/

/-- R126: NOP finishes in one step, the counters, DONE, ERR and ERRCODE of the last command cleared by its
acceptance; TREE_VALID, TABLE_VALID, NODE_COUNT and OVR keep their values. -/
def Obligations.NopFinishes : Prop :=
  ∀ s : State, s.busy = false → ∃ u t : State,
    takeMove (.write 32 0x00 0x00000000) s = .next u ∧ exec .nop u = .next t ∧ engineTurn u = .next t ∧
      t = { s with done := true, err := false, errCode := .none, inBits := 0, outBits := 0, symCount := 0,
                   eng := .idle, cmdLatch := t.cmdLatch, cur := t.cur, draws := t.draws }

/-- R67, R127: REWIND sets IP to 0 in its first step and finishes in its second; nothing else changes. -/
def Obligations.RewindSetsCursor : Prop :=
  ∀ s : State, Started .rwd s → ∃ v u : State,
    exec .rwd s = .next v ∧ v = { s with ip := 0, eng := .run .rwdDone } ∧ exec .rwd v = .next u ∧
      engineSteps 2 s = .next u ∧
      u = { s with ip := 0, done := true, eng := .idle, cmdLatch := u.cmdLatch, cur := u.cur, draws := u.draws }

/-- R190: CHECK_MAGIC reads 32 bits, or what is left, and they stay consumed; it finishes exactly when they are
MAGIC_VALUE, first bit the most significant, and raises INVALID_MAGIC otherwise; nothing else changes. -/
def Obligations.CheckMagicResult : Prop :=
  ∀ s : State, Started .ckm s → s.ip ≤ s.input.length → ∃ v u : State,
    exec .ckm s = .next v ∧ v = { s with ip := v.ip, inBits := v.inBits, eng := .run (.ckmRead (s.peekBits 32)) } ∧
      exec .ckm v = .next u ∧ engineSteps 2 s = .next u ∧
      u.ip = s.ip + min 32 s.unread.length ∧
      u.inBits = s.inBits + BitVec.ofNat 32 (min 32 s.unread.length) ∧
      u = { s with ip := u.ip, inBits := u.inBits, done := u.done, err := u.err, errCode := u.errCode,
                   eng := .idle, cmdLatch := u.cmdLatch, cur := u.cur, draws := u.draws } ∧
      (s.unread.take 32 = lowBits 32 s.magic.toNat → u.done = true ∧ u.err = s.err ∧ u.errCode = s.errCode) ∧
      (s.unread.take 32 ≠ lowBits 32 s.magic.toNat →
        u.done = s.done ∧ u.err = true ∧ u.errCode = .invalidMagic)

/-- R171: WRITE_MAGIC appends MAGIC_VALUE, bit 31 first, and finishes in its second step; nothing else changes. -/
def Obligations.WriteMagicResult : Prop :=
  ∀ s : State, Started .wrm s → ∃ v u : State,
    exec .wrm s = .next v ∧ v.out = s.out ++ (List.range 32).map (fun k => s.magic.getLsbD (31 - k)) ∧
      exec .wrm v = .next u ∧ engineSteps 2 s = .next u ∧
      u = { s with out := v.out, outBits := s.outBits + 32, done := true, eng := .idle, cmdLatch := u.cmdLatch,
                   cur := u.cur, draws := u.draws }

/-! ### LOAD_TREE and STORE_TREE -/

/-- R150: LOAD_TREE's first step clears TREE_VALID, TABLE_VALID and NODE_COUNT and reads one flag bit. -/
def Obligations.LoadTreeBegins : Prop :=
  ∀ s : State, s.eng = .run .start → ∃ t : State, exec .ldt s = .next t ∧
    t = { s with treeValid := false, tableValid := false, nodeCount := 0, ip := t.ip, inBits := t.inBits,
                 eng := .run (.ldtFlag (s.peekBits 1) 0 [] false) } ∧
    t.ip = (s.consume 1).ip ∧ t.inBits = (s.consume 1).inBits

/-- R150, R94, R151, R254: when the bits at IP begin with the serialization of a tree of at most 513 nodes with
symbols 0..256, LOAD_TREE loads exactly that tree in (nodes + leaves) + 1 steps, consumes exactly its bits, and
leaves OUT, OUT_BITS and SYM_COUNT alone. -/
def Obligations.LoadTreeLoadsSerializedTree : Prop :=
  ∀ (s : State) (t : Tree) (rest : List Bool), Started .ldt s → s.ip ≤ s.input.length →
    s.unread = t.serialize ++ rest → t.symsOk = true → t.size ≤ Config.nodeCap → ∃ u : State,
      engineSteps (t.size + t.symbols.length + 1) s = .next u ∧ u.hasTree t ∧
      u.ip = s.ip + t.serialize.length ∧ u.inBits = s.inBits + BitVec.ofNat 32 t.serialize.length ∧
      u = { s with treeValid := true, tableValid := false, nodeCount := u.nodeCount, nodes := u.nodes, ip := u.ip,
                   inBits := u.inBits, done := true, eng := .idle, cmdLatch := u.cmdLatch, cur := u.cur,
                   draws := u.draws }

/-- R150, R215: when IN ends before the tree is complete, the bits present holding at most 513 flags and no complete
symbol field above 256, LOAD_TREE raises MALFORMED_HEADER with all bits consumed and leaves no tree and no table,
whatever tree the bits would have begun. -/
def Obligations.LoadTreeTruncated : Prop :=
  ∀ (s : State) (t : Tree) (missing : List Bool), Started .ldt s → s.ip ≤ s.input.length →
    s.unread ++ missing = t.serialize → missing ≠ [] → headerSymsOk s.unread = true →
    headerFlags s.unread ≤ Config.nodeCap →
    ∃ (k : Nat) (u : State), engineSteps k s = .next u ∧ u.eng = .idle ∧ u.err = true ∧
      u.errCode = .malformedHeader ∧ u.ip = u.input.length ∧ u.treeValid = false ∧ u.tableValid = false ∧
      u.nodeCount = 0 ∧ u.out = s.out

/-- R150, R152, R215: when the bits at IP are 513 nodes of a header, with no symbol field above 256, and then the
flag `b` of a 514th node, LOAD_TREE raises TREE_CAPACITY with exactly these bits consumed and leaves no tree and no
table, whether or not the rest of the header is there. -/
def Obligations.LoadTreeOverCapacity : Prop :=
  ∀ (s : State) (t : Tree) (nodes rest : List Bool) (b : Bool), Started .ldt s → s.ip ≤ s.input.length →
    s.unread = nodes ++ b :: rest → nodes ++ [b] <+: t.serialize → headerSymsOk nodes = true →
    headerFlags nodes = Config.nodeCap → headerFlags (nodes ++ [b]) = Config.nodeCap + 1 →
    ∃ (k : Nat) (u : State), engineSteps k s = .next u ∧ u.eng = .idle ∧ u.err = true ∧
      u.errCode = .treeCapacity ∧ u.ip = s.ip + nodes.length + 1 ∧
      u.inBits = s.inBits + BitVec.ofNat 32 (nodes.length + 1) ∧ u.treeValid = false ∧ u.tableValid = false ∧
      u.nodeCount = 0 ∧ u.out = s.out

/-- R150, R213: LOAD_TREE's errors at the points where they are tested: a flag read that returned EXH, then a
514th node's flag, whatever it is, then a symbol read that returned EXH, then a symbol of 257..511. Each ends the
command; TREE_VALID, TABLE_VALID and NODE_COUNT stay as LOAD_TREE's start left them and no stream moves. -/
def Obligations.LoadTreeErrors : Prop :=
  ∀ (s : State) (n i : NodeIx) (stack : List NodeIx) (attach : Bool) (e : ErrCode),
    (s.eng = .run (.ldtFlag none n stack attach) ∧ e = .malformedHeader) ∨
    (∃ b : BitVec 1, s.eng = .run (.ldtFlag (some b) n stack attach) ∧ n.toNat = 513 ∧ e = .treeCapacity) ∨
    (s.eng = .run (.ldtSym none n i stack) ∧ e = .malformedHeader) ∨
    (∃ y : Symbol, s.eng = .run (.ldtSym (some y) n i stack) ∧ 256 < y.toNat ∧ e = .badSymbol) →
    ∃ t : State, exec .ldt s = .next t ∧
      t = { s with err := true, errCode := e, nodes := t.nodes, eng := .idle, cmdLatch := t.cmdLatch, cur := t.cur,
                   draws := t.draws }

/-- R153, R94, R254: with a tree loaded, STORE_TREE appends its serialization in (nodes + leaves) + 1 steps and
changes nothing else; its first step appends the root's flag bit. -/
def Obligations.StoreTreeAppendsSerializedTree : Prop :=
  ∀ (s : State) (t : Tree), Started .stt s → s.hasTree t → ∃ v u : State,
    exec .stt s = .next v ∧ v.out = s.out ++ t.serialize.take 1 ∧
    engineSteps (t.size + t.symbols.length + 1) s = .next u ∧
    u = { s with out := s.out ++ t.serialize, outBits := s.outBits + BitVec.ofNat 32 t.serialize.length,
                 done := true, eng := .idle, cmdLatch := u.cmdLatch, cur := u.cur, draws := u.draws }

/-- R154: LOAD_TREE of the bits of a tree followed by STORE_TREE appends exactly the bits LOAD_TREE consumed; and a
LOAD_TREE of those bits rebuilds the same NODE[0..NODE_COUNT-1]. -/
def Obligations.HeaderRoundTrip : Prop :=
  ∀ (s : State) (t : Tree) (rest : List Bool), Started .ldt s → s.ip ≤ s.input.length →
    s.unread = t.serialize ++ rest → t.symsOk = true → t.size ≤ Config.nodeCap →
    ∃ (k m : Nat) (u v : State), engineSteps k s = .next u ∧ u.eng = .idle ∧ u.done = true ∧
      engineSteps m (u.accept 0x00000002) = .next v ∧ v.eng = .idle ∧ v.done = true ∧
      v.out = u.out ++ (s.input.drop s.ip).take (u.ip - s.ip) ∧
      ∀ (w : State) (rest' : List Bool), Started .ldt w → w.ip ≤ w.input.length →
        w.unread = v.out.drop u.out.length ++ rest' →
        ∃ (j : Nat) (x : State), engineSteps j w = .next x ∧ x.eng = .idle ∧ x.done = true ∧
          x.nodeCount = u.nodeCount ∧ ∀ i, i < u.nodeCount.toNat → x.nodes.read i = u.nodes.read i

/-- R94: the grammar of the serialized tree is unambiguous, and a tree of n nodes takes
(n - 1)/2 + 10 (n + 1)/2 bits. -/
def Obligations.SerializedTreeGrammar : Prop :=
  (∀ t : Tree, t.serialize.length = (t.size - 1) / 2 + 10 * ((t.size + 1) / 2)) ∧
  (∀ (t u : Tree) (a b : List Bool), t.serialize ++ a = u.serialize ++ b → t = u ∧ a = b)

/-! ### DERIVE and the code table -/

/-- R140, R141 (a), (b): DERIVE of a tree with distinct symbols gives every leaf's symbol its root-to-leaf path and
no other symbol a code, in one step; nothing else changes. -/
def Obligations.DeriveBuildsTable : Prop :=
  ∀ (s : State) (t : Tree), Started .drv s → s.hasTree t → t.symbols.Nodup → ∃ u : State,
    exec .drv s = .next u ∧ u.hasTable t ∧
    u = { s with tableValid := true, codes := u.codes, done := true, eng := .idle, cmdLatch := u.cmdLatch,
                 cur := u.cur, draws := u.draws }

/-- R140, R215: DERIVE of a tree with a symbol on two leaves raises DUPLICATE_SYMBOL and leaves TABLE_VALID = 0, the
tree still loaded. -/
def Obligations.DeriveDuplicateSymbol : Prop :=
  ∀ (s : State) (t : Tree), Started .drv s → s.hasTree t → ¬t.symbols.Nodup → ∃ u : State,
    exec .drv s = .next u ∧
    u = { s with tableValid := false, codes := u.codes, err := true, errCode := .duplicateSymbol, eng := .idle,
                 cmdLatch := u.cmdLatch, cur := u.cur, draws := u.draws }

/-- R142: when NODE[0] is a leaf with symbol v and NODE_COUNT = 1, DERIVE gives v a code of zero bits and no other
symbol a code. -/
def Obligations.DeriveZeroLengthCode : Prop :=
  ∀ (s : State) (v : Symbol), Started .drv s → s.treeValid = true → s.nodeCount = 1 → v ≤ Config.eofSym →
    s.nodes.read 0 = leafNode v → ∃ u : State, exec .drv s = .next u ∧ u.done = true ∧ u.tableValid = true ∧
      u.codes.read v.toNat = ⟨true, 0, 0⟩ ∧
      ∀ y : Symbol, y ≤ Config.eofSym → y ≠ v → (u.codes.read y.toNat).valid = false

/-- R141 (c): no code of a tree is a prefix of another symbol's. -/
def Obligations.CodesArePrefixFree : Prop :=
  ∀ (t : Tree) (x y : Symbol) (p q : List Bool), t.code x = some p → t.code y = some q → x ≠ y → ¬p <+: q

/-- R141 (d), (e), R97: under a tree of at most 513 nodes a code has at most 256 bits, and its table entry holds
exactly its bits. -/
def Obligations.CodeTableHoldsCodes : Prop :=
  ∀ (t : Tree) (y : Symbol) (p : List Bool), t.size ≤ Config.nodeCap → t.code y = some p →
    p.length ≤ 256 ∧ (t.codeEntry y).valid = true ∧ (t.codeEntry y).len.toNat = p.length ∧
      codeString (t.codeEntry y) = p

/-! ### ENCODE_SYM and ENCODE -/

/-- R170, R173: ENCODE_SYM of a symbol with a code appends the code, first bit first, in (code bits) + 1 steps and
ends with SYM_COUNT = 1; the input is not touched and nothing else changes. Its first step appends the first bit. -/
def Obligations.EncodeSymAppendsCode : Prop :=
  ∀ (s : State) (i : Instr) (y : Symbol) (c : CodeEntry), EncodesSymbol i y → Started i s → s.tableValid = true →
    s.codes.read y.toNat = c → c.valid = true → ∃ v u : State,
      exec i s = .next v ∧ v.out = s.out ++ (codeString c).take 1 ∧
      engineSteps (c.len.toNat + 1) s = .next u ∧
      u = { s with out := s.out ++ codeString c, outBits := s.outBits + BitVec.ofNat 32 c.len.toNat, symCount := 1,
                   done := true, eng := .idle, cmdLatch := u.cmdLatch, cur := u.cur, draws := u.draws }

/-- R172, R96: ENCODE of the data bytes at IP, every one of them and EOF having a code, appends their codes and the
EOF code, consumes all of IN with a tail of fewer than 8 bits, and counts the bytes; its first step reads a
byte. -/
def Obligations.EncodeAppendsPayload : Prop :=
  ∀ (s : State) (t : Tree) (data : List Byte) (tail payload : List Bool), Started .enc s →
    s.tableValid = true → s.hasTree t → s.hasTable t → s.ip ≤ s.input.length →
    s.unread = bitsOfBytes data ++ tail → tail.length < 8 → t.payload data = some payload → ∃ v u : State,
      exec .enc s = .next v ∧
      v = { s with ip := v.ip, inBits := v.inBits, eng := .run (.encRead (s.peekBits 8)) } ∧
      engineSteps (data.length + 1 + payload.length + 1) s = .next u ∧
      u = { s with ip := s.input.length, inBits := s.inBits + BitVec.ofNat 32 (8 * data.length + tail.length),
                   out := s.out ++ payload, outBits := s.outBits + BitVec.ofNat 32 payload.length,
                   symCount := s.symCount + BitVec.ofNat 32 data.length, done := true, eng := .idle,
                   cmdLatch := u.cmdLatch, cur := u.cur, draws := u.draws }

/-- R172, D17: ENCODE raises UNENCODABLE_SYMBOL at the first byte with no code, the bits of the bytes before it
appended and the byte's 8 bits consumed; or at the end of the input when EOF has no code. -/
def Obligations.EncodeUnencodable : Prop :=
  ∀ (s : State) (t : Tree) (data : List Byte) (rest codes : List Bool), Started .enc s → s.tableValid = true →
    s.hasTree t → s.hasTable t → s.ip ≤ s.input.length → s.unread = bitsOfBytes data ++ rest →
    t.codesOf (data.map symbolOfByte) = some codes →
    ((∃ (b : Byte) (more : List Bool), rest = bitsOfBytes [b] ++ more ∧ t.code (symbolOfByte b) = none) ∨
      (rest.length < 8 ∧ t.code Config.eofSym = none)) →
    ∃ (k : Nat) (u : State), engineSteps k s = .next u ∧
      u = { s with ip := s.ip + 8 * data.length + min 8 rest.length,
                   inBits := s.inBits + BitVec.ofNat 32 (8 * data.length + min 8 rest.length),
                   out := s.out ++ codes, outBits := s.outBits + BitVec.ofNat 32 codes.length,
                   symCount := s.symCount + BitVec.ofNat 32 data.length, err := true,
                   errCode := .unencodableSymbol, eng := .idle, cmdLatch := u.cmdLatch, cur := u.cur,
                   draws := u.draws }

/-- R173, R212: ENCODE and ENCODE_SYM raise NO_TABLE before any stream access when TABLE_VALID = 0, and ENCODE_SYM
raises UNENCODABLE_SYMBOL when its symbol has no code; nothing else changes. -/
def Obligations.EncodersRaise : Prop :=
  ∀ (s : State) (i : Instr) (y : Symbol) (e : ErrCode), s.eng = .run .start →
    (((i = .enc ∨ EncodesSymbol i y) ∧ s.tableValid = false ∧ e = .noTable) ∨
      (EncodesSymbol i y ∧ s.tableValid = true ∧ (s.codes.read y.toNat).valid = false ∧
        e = .unencodableSymbol)) →
    ∃ t : State, exec i s = .next t ∧
      t = { s with err := true, errCode := e, eng := .idle, cmdLatch := t.cmdLatch, cur := t.cur,
                   draws := t.draws }

/-! ### DECODE -/

/-- R191, R192, R254: DECODE of the codes of data bytes and the EOF code emits exactly the data in (reads) + (bytes)
+ 1 steps, reads one bit past the EOF code when one exists, and finishes whether or not it does; nothing else
changes. Its first step reads a bit with CUR at the root. -/
def Obligations.DecodeEmitsData : Prop :=
  ∀ (s : State) (t : Tree) (data : List Byte) (payload rest : List Bool), Started .dec s → s.hasTree t →
    s.ip ≤ s.input.length → t.payload data = some payload → s.unread = payload ++ rest → ∃ v u : State,
      exec .dec s = .next v ∧
      v = { s with ip := v.ip, inBits := v.inBits, cur := 0, eng := .run (.decRead (s.peekBits 1)) } ∧
      engineSteps (payload.length + 1 + data.length + 1) s = .next u ∧
      u = { s with ip := s.ip + payload.length + min 1 rest.length,
                   inBits := s.inBits + BitVec.ofNat 32 (payload.length + min 1 rest.length),
                   out := s.out ++ bitsOfBytes data, outBits := s.outBits + BitVec.ofNat 32 (8 * data.length),
                   symCount := s.symCount + BitVec.ofNat 32 data.length, done := true, eng := .idle,
                   cmdLatch := u.cmdLatch, cur := u.cur, draws := u.draws }

/-- R195, R191: when the payload is cut before the last bit of its EOF code, DECODE raises TRUNCATED_STREAM with all
bits consumed, and the bytes it emitted are a prefix of the data whose codes lie before the cut. -/
def Obligations.DecodeTruncated : Prop :=
  ∀ (s : State) (t : Tree) (data : List Byte) (missing : List Bool), Started .dec s → s.hasTree t →
    s.ip ≤ s.input.length → t.payload data = some (s.unread ++ missing) → missing ≠ [] →
    ∃ (k m : Nat) (codes : List Bool) (u : State), engineSteps k s = .next u ∧ m ≤ data.length ∧
      t.codesOf ((data.take m).map symbolOfByte) = some codes ∧ codes <+: s.unread ∧
      u = { s with ip := s.input.length, inBits := s.inBits + BitVec.ofNat 32 s.unread.length,
                   out := s.out ++ bitsOfBytes (data.take m), outBits := s.outBits + BitVec.ofNat 32 (8 * m),
                   symCount := s.symCount + BitVec.ofNat 32 m, err := true, errCode := .truncatedStream,
                   eng := .idle, cmdLatch := u.cmdLatch, cur := u.cur, draws := u.draws }

/-- R191, R213: a read that finds CUR at the EOF leaf finishes whether it gave a bit or EXH, before the exhaustion
test; EXH at any other node raises TRUNCATED_STREAM and emits nothing. -/
def Obligations.DecodeEofBeforeExhaustion : Prop :=
  ∀ (s : State) (r : Option (BitVec 1)), s.eng = .run (.decRead r) → s.cur.toNat < 513 →
    (nodeIsEof (s.nodes.read s.cur.toNat) = true → ∃ t : State, exec .dec s = .next t ∧
      t = { s with done := true, eng := .idle, cmdLatch := t.cmdLatch, cur := t.cur, draws := t.draws }) ∧
    (nodeIsEof (s.nodes.read s.cur.toNat) = false → r = none → ∃ t : State, exec .dec s = .next t ∧
      t = { s with err := true, errCode := .truncatedStream, eng := .idle, cmdLatch := t.cmdLatch, cur := t.cur,
                   draws := t.draws })

/-- R153, R140, R191, R212: STORE_TREE, DERIVE and DECODE raise NO_TREE when TREE_VALID = 0, and DECODE raises
DEGENERATE_TREE when the root is a leaf of a data symbol, all before any stream access; only DERIVE's CODE becomes
unspecified. -/
def Obligations.TreeReadersRaise : Prop :=
  ∀ (s : State) (i : Instr) (e : ErrCode), s.eng = .run .start →
    (((i = .stt ∨ i = .drv ∨ i = .dec) ∧ s.treeValid = false ∧ e = .noTree) ∨
      (i = .dec ∧ s.treeValid = true ∧ (s.nodes.read 0).kind = .leaf ∧ (s.nodes.read 0).sym ≠ 256 ∧
        e = .degenerateTree)) →
    ∃ t : State, exec i s = .next t ∧ (i ≠ .drv → t.codes = s.codes) ∧
      t = { s with err := true, errCode := e, codes := t.codes, eng := .idle, cmdLatch := t.cmdLatch, cur := t.cur,
                   draws := t.draws }

/-! ### Frames: what an instruction leaves unchanged whenever exec gives a next state -/

/-- Frame of NOP and of a word that spells no command (R126, R123), of REWIND (R127) and CHECK_MAGIC (R190): they
store to no memory and write no output; REWIND also writes IP, CHECK_MAGIC IP and IN_BITS. -/
def Obligations.FrameControlAndCheckMagic : Prop :=
  ∀ (s t : State) (i : Instr), (i = .nop ∨ (∃ w, i = .illegal w) ∨ i = .rwd ∨ i = .ckm) → exec i s = .next t →
    t = { s with ip := t.ip, inBits := t.inBits, done := t.done, err := t.err, errCode := t.errCode, eng := t.eng,
                 cmdLatch := t.cmdLatch, cur := t.cur, draws := t.draws } ∧
    (i ≠ .ckm → t.inBits = s.inBits) ∧ (i ≠ .ckm → i ≠ .rwd → t.ip = s.ip) ∧
    (∀ j, t.nodes.read j = s.nodes.read j) ∧ (∀ j, t.codes.read j = s.codes.read j)

/-- Frame of WRITE_MAGIC (R171), STORE_TREE (R153) and ENCODE_SYM (R173): they write OUT and OUT_BITS, ENCODE_SYM
also SYM_COUNT; they read no input and store to no memory. -/
def Obligations.FrameWriters : Prop :=
  ∀ (s t : State) (i : Instr), (i = .wrm ∨ i = .stt ∨ (∃ b, i = .ens b) ∨ i = .ensEof) → exec i s = .next t →
    t = { s with out := t.out, outBits := t.outBits, symCount := t.symCount, done := t.done, err := t.err,
                 errCode := t.errCode, eng := t.eng, cmdLatch := t.cmdLatch, cur := t.cur, draws := t.draws } ∧
    (i = .wrm ∨ i = .stt → t.symCount = s.symCount) ∧
    (∀ j, t.nodes.read j = s.nodes.read j) ∧ (∀ j, t.codes.read j = s.codes.read j)

/-- Frame of ENCODE (R172) and DECODE (R191): they move both streams and the three counters, and store to no
memory. -/
def Obligations.FrameEncodeDecode : Prop :=
  ∀ (s t : State) (i : Instr), (i = .enc ∨ i = .dec) → exec i s = .next t →
    t = { s with ip := t.ip, inBits := t.inBits, out := t.out, outBits := t.outBits, symCount := t.symCount,
                 done := t.done, err := t.err, errCode := t.errCode, eng := t.eng, cmdLatch := t.cmdLatch,
                 cur := t.cur, draws := t.draws } ∧
    (∀ j, t.nodes.read j = s.nodes.read j) ∧ (∀ j, t.codes.read j = s.codes.read j)

/-- Frame of DERIVE (R140): it writes CODE and TABLE_VALID and no stream, no counter and no entry of NODE. -/
def Obligations.FrameDerive : Prop :=
  ∀ s t : State, exec .drv s = .next t →
    t = { s with tableValid := t.tableValid, codes := t.codes, done := t.done, err := t.err, errCode := t.errCode,
                 eng := t.eng, cmdLatch := t.cmdLatch, cur := t.cur, draws := t.draws } ∧
    ∀ j, t.nodes.read j = s.nodes.read j

/-- Frame of LOAD_TREE (R150): it writes NODE, the validity flags and NODE_COUNT, reads the input, and writes no
output and no entry of CODE. In a step that does not end in an error, every entry of NODE outside the ones the
step stores to reads as before. -/
def Obligations.FrameLoadTree : Prop :=
  ∀ s t : State, exec .ldt s = .next t →
    t = { s with treeValid := t.treeValid, tableValid := t.tableValid, nodeCount := t.nodeCount, nodes := t.nodes,
                 ip := t.ip, inBits := t.inBits, done := t.done, err := t.err, errCode := t.errCode, eng := t.eng,
                 cmdLatch := t.cmdLatch, cur := t.cur, draws := t.draws } ∧
    (∀ j, t.codes.read j = s.codes.read j) ∧
    ∀ p : Point, s.eng = .run p → (t.eng = .idle → t.treeValid = true ∧ s.treeValid = false) →
      ∀ j, j ∉ ldtStores p → t.nodes.read j = s.nodes.read j

/-- R29, R30, R34, whole machine: in every step, TREE_VALID, NODE_COUNT and NODE change only by LOAD_TREE or a
reset, and TABLE_VALID and CODE only by LOAD_TREE, DERIVE or a reset. -/
def Obligations.TreeAndTableOwners : Prop :=
  ∀ s t : State, step s = .next t →
    (match s.agenda with | [] => True | m :: _ => m.resets = false) →
    ((∀ p, s.eng = .run p → decodeCmd s.cmdLatch ≠ .ldt) →
      t.treeValid = s.treeValid ∧ t.nodeCount = s.nodeCount ∧ t.nodes = s.nodes) ∧
    ((∀ p, s.eng = .run p → decodeCmd s.cmdLatch ≠ .drv) → t.codes = s.codes) ∧
    ((∀ p, s.eng = .run p → decodeCmd s.cmdLatch ≠ .ldt ∧ decodeCmd s.cmdLatch ≠ .drv) →
      t.tableValid = s.tableValid)

/-! ### Ends of commands -/

/-- R28, R124, R125, R32: an engine step either leaves the command running with DONE = ERR = 0, or ends it with
exactly one of DONE and ERR set, ERR together with an error code and DONE with code 0x00. -/
def Obligations.CommandEndsDoneOrErr : Prop :=
  ∀ (s t : State) (p : Point), RegInv s → s.eng = .run p → engineTurn s = .next t →
    (t.busy = true ∧ t.done = false ∧ t.err = false ∧ t.errCode = .none) ∨
    (t.busy = false ∧ t.done = true ∧ t.err = false ∧ t.errCode = .none) ∨
    (t.busy = false ∧ t.done = false ∧ t.err = true ∧ t.errCode ≠ .none)

/-- R253, R122: every command ends after finitely many engine steps. -/
def Obligations.EveryCommandEnds : Prop :=
  ∀ s : State, Inv s → ∃ (k : Nat) (t : State), engineSteps k s = .next t ∧ t.eng = .idle

/-! ### Invariants -/

/-- The register invariant (R26 to R33, R62) is kept by every step from every state. -/
def Obligations.StepKeepsRegisterRules : Prop := ∀ s t : State, RegInv s → step s = .next t → RegInv t

/-- The machine invariant holds after power-on (R44). That IN is empty and IP is 0 there is the model's choice
(log 5). -/
def Obligations.MachineInvariantAtReset : Prop := Inv State.reset

/-- The machine invariant is kept by every step from every state: the registers' rules, the canonical form of both
memories, the loaded tree a full binary tree in pre-order (R40), the derived table that tree's (R141), the resume
point the running command's (R151, R152). -/
def Obligations.StepKeepsMachineInvariant : Prop := ∀ s t : State, Inv s → step s = .next t → Inv t

/-- From a state of the machine invariant no step faults, and only a host access that R61 excludes is refused. -/
def Obligations.StepNeverFaults : Prop :=
  ∀ s : State, Inv s → (∃ t : State, step s = .next t) ∨
    (step s = .refused .hostAccess ∧ ∃ (width offset : Nat) (rest : List Move),
      (s.agenda = .read width offset :: rest ∨ ∃ w, s.agenda = .write width offset w :: rest) ∧
      (width ≠ 32 ∨ offset % 4 ≠ 0 ∨ 256 ≤ offset))

/-- R241, R42: what NODE, CODE, CMDLATCH and CUR hold while no tree is loaded and no command runs never shows: two
machines that differ in nothing else show the outside world the same after any number of steps. -/
def Obligations.UnspecifiedContentsNeverShow : Prop :=
  ∀ (s : State) (nodes : NodeMem) (codes : CodeMem) (latch : Word32) (cur : NodeIx) (n : Nat), Inv s →
    s.eng = .idle → s.treeValid = false → nodes.wf = true → codes.wf = true →
    SameShown (core.run n s)
      (core.run n { s with nodes := nodes, codes := codes, cmdLatch := latch, cur := cur })

/-! ### Compress and decompress -/

/-- R194, R174: for every tree with distinct symbols, EOF among them, and every data whose bytes have codes, the host
program COMPRESS ends with DONE and appends magic, serialized tree and payload; and DECOMPRESS of that file, with
or without further bits of any value, ends with DONE and emits exactly the data. The polling order of the host is
the model's choice (log 15). -/
def Obligations.CompressDecompressRoundTrip : Prop :=
  ∀ (s s' : State) (t : Tree) (data : List Byte) (payload pad : List Bool), s.eng = .idle → s'.eng = .idle →
    s'.magic = s.magic → t.symsOk = true → t.size ≤ Config.nodeCap → t.symbols.Nodup →
    t.payload data = some payload →
    (∃ (n : Nat) (u : State),
      core.run n (s.withProgram (t.serialize ++ bitsOfBytes data) [.pseudo .compress]) = .next u ∧
      u.runEnded = true ∧ u.done = true ∧ u.out = s.out ++ fileBits s.magic t payload) ∧
    (∃ (n : Nat) (u : State),
      core.run n (s'.withProgram (fileBits s.magic t payload ++ pad) [.pseudo .decompress]) = .next u ∧
      u.runEnded = true ∧ u.done = true ∧ u.out = s'.out ++ bitsOfBytes data)
end

