-- ==== Sys2Proof/Laws/State.lean ====
section
/-! SUPPORT. One lemma per field per named update of the state, true by rfl, so that no later proof unfolds a
record update. -/

namespace Sys2Proof.Machine

variable (s : State)

/-! ### State.flagsAccept -/

@[simp] theorem State.flagsAccept_done : s.flagsAccept.done = false := rfl
@[simp] theorem State.flagsAccept_err : s.flagsAccept.err = false := rfl
@[simp] theorem State.flagsAccept_treeValid : s.flagsAccept.treeValid = s.treeValid := rfl
@[simp] theorem State.flagsAccept_tableValid : s.flagsAccept.tableValid = s.tableValid := rfl
@[simp] theorem State.flagsAccept_ovr : s.flagsAccept.ovr = s.ovr := rfl
@[simp] theorem State.flagsAccept_errCode : s.flagsAccept.errCode = .none := rfl
@[simp] theorem State.flagsAccept_magic : s.flagsAccept.magic = s.magic := rfl
@[simp] theorem State.flagsAccept_nodeCount : s.flagsAccept.nodeCount = s.nodeCount := rfl
@[simp] theorem State.flagsAccept_inBits : s.flagsAccept.inBits = s.inBits := rfl
@[simp] theorem State.flagsAccept_outBits : s.flagsAccept.outBits = s.outBits := rfl
@[simp] theorem State.flagsAccept_symCount : s.flagsAccept.symCount = s.symCount := rfl
@[simp] theorem State.flagsAccept_nodes : s.flagsAccept.nodes = s.nodes := rfl
@[simp] theorem State.flagsAccept_codes : s.flagsAccept.codes = s.codes := rfl
@[simp] theorem State.flagsAccept_eng : s.flagsAccept.eng = s.eng := rfl
@[simp] theorem State.flagsAccept_cmdLatch : s.flagsAccept.cmdLatch = s.cmdLatch := rfl
@[simp] theorem State.flagsAccept_cur : s.flagsAccept.cur = s.cur := rfl
@[simp] theorem State.flagsAccept_input : s.flagsAccept.input = s.input := rfl
@[simp] theorem State.flagsAccept_ip : s.flagsAccept.ip = s.ip := rfl
@[simp] theorem State.flagsAccept_out : s.flagsAccept.out = s.out := rfl
@[simp] theorem State.flagsAccept_agenda : s.flagsAccept.agenda = s.agenda := rfl
@[simp] theorem State.flagsAccept_reads : s.flagsAccept.reads = s.reads := rfl
@[simp] theorem State.flagsAccept_draws : s.flagsAccept.draws = s.draws := rfl

/-! ### State.flagsFinish -/

@[simp] theorem State.flagsFinish_done : s.flagsFinish.done = true := rfl
@[simp] theorem State.flagsFinish_err : s.flagsFinish.err = s.err := rfl
@[simp] theorem State.flagsFinish_treeValid : s.flagsFinish.treeValid = s.treeValid := rfl
@[simp] theorem State.flagsFinish_tableValid : s.flagsFinish.tableValid = s.tableValid := rfl
@[simp] theorem State.flagsFinish_ovr : s.flagsFinish.ovr = s.ovr := rfl
@[simp] theorem State.flagsFinish_errCode : s.flagsFinish.errCode = s.errCode := rfl
@[simp] theorem State.flagsFinish_magic : s.flagsFinish.magic = s.magic := rfl
@[simp] theorem State.flagsFinish_nodeCount : s.flagsFinish.nodeCount = s.nodeCount := rfl
@[simp] theorem State.flagsFinish_inBits : s.flagsFinish.inBits = s.inBits := rfl
@[simp] theorem State.flagsFinish_outBits : s.flagsFinish.outBits = s.outBits := rfl
@[simp] theorem State.flagsFinish_symCount : s.flagsFinish.symCount = s.symCount := rfl
@[simp] theorem State.flagsFinish_nodes : s.flagsFinish.nodes = s.nodes := rfl
@[simp] theorem State.flagsFinish_codes : s.flagsFinish.codes = s.codes := rfl
@[simp] theorem State.flagsFinish_eng : s.flagsFinish.eng = s.eng := rfl
@[simp] theorem State.flagsFinish_cmdLatch : s.flagsFinish.cmdLatch = s.cmdLatch := rfl
@[simp] theorem State.flagsFinish_cur : s.flagsFinish.cur = s.cur := rfl
@[simp] theorem State.flagsFinish_input : s.flagsFinish.input = s.input := rfl
@[simp] theorem State.flagsFinish_ip : s.flagsFinish.ip = s.ip := rfl
@[simp] theorem State.flagsFinish_out : s.flagsFinish.out = s.out := rfl
@[simp] theorem State.flagsFinish_agenda : s.flagsFinish.agenda = s.agenda := rfl
@[simp] theorem State.flagsFinish_reads : s.flagsFinish.reads = s.reads := rfl
@[simp] theorem State.flagsFinish_draws : s.flagsFinish.draws = s.draws := rfl

/-! ### State.flagsRaise -/

@[simp] theorem State.flagsRaise_done (e : ErrCode) : (s.flagsRaise e).done = s.done := rfl
@[simp] theorem State.flagsRaise_err (e : ErrCode) : (s.flagsRaise e).err = true := rfl
@[simp] theorem State.flagsRaise_treeValid (e : ErrCode) : (s.flagsRaise e).treeValid = s.treeValid := rfl
@[simp] theorem State.flagsRaise_tableValid (e : ErrCode) : (s.flagsRaise e).tableValid = s.tableValid := rfl
@[simp] theorem State.flagsRaise_ovr (e : ErrCode) : (s.flagsRaise e).ovr = s.ovr := rfl
@[simp] theorem State.flagsRaise_errCode (e : ErrCode) : (s.flagsRaise e).errCode = e := rfl
@[simp] theorem State.flagsRaise_magic (e : ErrCode) : (s.flagsRaise e).magic = s.magic := rfl
@[simp] theorem State.flagsRaise_nodeCount (e : ErrCode) : (s.flagsRaise e).nodeCount = s.nodeCount := rfl
@[simp] theorem State.flagsRaise_inBits (e : ErrCode) : (s.flagsRaise e).inBits = s.inBits := rfl
@[simp] theorem State.flagsRaise_outBits (e : ErrCode) : (s.flagsRaise e).outBits = s.outBits := rfl
@[simp] theorem State.flagsRaise_symCount (e : ErrCode) : (s.flagsRaise e).symCount = s.symCount := rfl
@[simp] theorem State.flagsRaise_nodes (e : ErrCode) : (s.flagsRaise e).nodes = s.nodes := rfl
@[simp] theorem State.flagsRaise_codes (e : ErrCode) : (s.flagsRaise e).codes = s.codes := rfl
@[simp] theorem State.flagsRaise_eng (e : ErrCode) : (s.flagsRaise e).eng = s.eng := rfl
@[simp] theorem State.flagsRaise_cmdLatch (e : ErrCode) : (s.flagsRaise e).cmdLatch = s.cmdLatch := rfl
@[simp] theorem State.flagsRaise_cur (e : ErrCode) : (s.flagsRaise e).cur = s.cur := rfl
@[simp] theorem State.flagsRaise_input (e : ErrCode) : (s.flagsRaise e).input = s.input := rfl
@[simp] theorem State.flagsRaise_ip (e : ErrCode) : (s.flagsRaise e).ip = s.ip := rfl
@[simp] theorem State.flagsRaise_out (e : ErrCode) : (s.flagsRaise e).out = s.out := rfl
@[simp] theorem State.flagsRaise_agenda (e : ErrCode) : (s.flagsRaise e).agenda = s.agenda := rfl
@[simp] theorem State.flagsRaise_reads (e : ErrCode) : (s.flagsRaise e).reads = s.reads := rfl
@[simp] theorem State.flagsRaise_draws (e : ErrCode) : (s.flagsRaise e).draws = s.draws := rfl

/-! ### State.flagOverrun -/

@[simp] theorem State.flagOverrun_done : s.flagOverrun.done = s.done := rfl
@[simp] theorem State.flagOverrun_err : s.flagOverrun.err = s.err := rfl
@[simp] theorem State.flagOverrun_treeValid : s.flagOverrun.treeValid = s.treeValid := rfl
@[simp] theorem State.flagOverrun_tableValid : s.flagOverrun.tableValid = s.tableValid := rfl
@[simp] theorem State.flagOverrun_ovr : s.flagOverrun.ovr = true := rfl
@[simp] theorem State.flagOverrun_errCode : s.flagOverrun.errCode = s.errCode := rfl
@[simp] theorem State.flagOverrun_magic : s.flagOverrun.magic = s.magic := rfl
@[simp] theorem State.flagOverrun_nodeCount : s.flagOverrun.nodeCount = s.nodeCount := rfl
@[simp] theorem State.flagOverrun_inBits : s.flagOverrun.inBits = s.inBits := rfl
@[simp] theorem State.flagOverrun_outBits : s.flagOverrun.outBits = s.outBits := rfl
@[simp] theorem State.flagOverrun_symCount : s.flagOverrun.symCount = s.symCount := rfl
@[simp] theorem State.flagOverrun_nodes : s.flagOverrun.nodes = s.nodes := rfl
@[simp] theorem State.flagOverrun_codes : s.flagOverrun.codes = s.codes := rfl
@[simp] theorem State.flagOverrun_eng : s.flagOverrun.eng = s.eng := rfl
@[simp] theorem State.flagOverrun_cmdLatch : s.flagOverrun.cmdLatch = s.cmdLatch := rfl
@[simp] theorem State.flagOverrun_cur : s.flagOverrun.cur = s.cur := rfl
@[simp] theorem State.flagOverrun_input : s.flagOverrun.input = s.input := rfl
@[simp] theorem State.flagOverrun_ip : s.flagOverrun.ip = s.ip := rfl
@[simp] theorem State.flagOverrun_out : s.flagOverrun.out = s.out := rfl
@[simp] theorem State.flagOverrun_agenda : s.flagOverrun.agenda = s.agenda := rfl
@[simp] theorem State.flagOverrun_reads : s.flagOverrun.reads = s.reads := rfl
@[simp] theorem State.flagOverrun_draws : s.flagOverrun.draws = s.draws := rfl

/-! ### State.flagsUnload -/

@[simp] theorem State.flagsUnload_done : s.flagsUnload.done = s.done := rfl
@[simp] theorem State.flagsUnload_err : s.flagsUnload.err = s.err := rfl
@[simp] theorem State.flagsUnload_treeValid : s.flagsUnload.treeValid = false := rfl
@[simp] theorem State.flagsUnload_tableValid : s.flagsUnload.tableValid = false := rfl
@[simp] theorem State.flagsUnload_ovr : s.flagsUnload.ovr = s.ovr := rfl
@[simp] theorem State.flagsUnload_errCode : s.flagsUnload.errCode = s.errCode := rfl
@[simp] theorem State.flagsUnload_magic : s.flagsUnload.magic = s.magic := rfl
@[simp] theorem State.flagsUnload_nodeCount : s.flagsUnload.nodeCount = 0 := rfl
@[simp] theorem State.flagsUnload_inBits : s.flagsUnload.inBits = s.inBits := rfl
@[simp] theorem State.flagsUnload_outBits : s.flagsUnload.outBits = s.outBits := rfl
@[simp] theorem State.flagsUnload_symCount : s.flagsUnload.symCount = s.symCount := rfl
@[simp] theorem State.flagsUnload_nodes : s.flagsUnload.nodes = s.nodes := rfl
@[simp] theorem State.flagsUnload_codes : s.flagsUnload.codes = s.codes := rfl
@[simp] theorem State.flagsUnload_eng : s.flagsUnload.eng = s.eng := rfl
@[simp] theorem State.flagsUnload_cmdLatch : s.flagsUnload.cmdLatch = s.cmdLatch := rfl
@[simp] theorem State.flagsUnload_cur : s.flagsUnload.cur = s.cur := rfl
@[simp] theorem State.flagsUnload_input : s.flagsUnload.input = s.input := rfl
@[simp] theorem State.flagsUnload_ip : s.flagsUnload.ip = s.ip := rfl
@[simp] theorem State.flagsUnload_out : s.flagsUnload.out = s.out := rfl
@[simp] theorem State.flagsUnload_agenda : s.flagsUnload.agenda = s.agenda := rfl
@[simp] theorem State.flagsUnload_reads : s.flagsUnload.reads = s.reads := rfl
@[simp] theorem State.flagsUnload_draws : s.flagsUnload.draws = s.draws := rfl

/-! ### State.flagsLoaded -/

@[simp] theorem State.flagsLoaded_done (n : NodeIx) : (s.flagsLoaded n).done = s.done := rfl
@[simp] theorem State.flagsLoaded_err (n : NodeIx) : (s.flagsLoaded n).err = s.err := rfl
@[simp] theorem State.flagsLoaded_treeValid (n : NodeIx) : (s.flagsLoaded n).treeValid = true := rfl
@[simp] theorem State.flagsLoaded_tableValid (n : NodeIx) : (s.flagsLoaded n).tableValid = s.tableValid := rfl
@[simp] theorem State.flagsLoaded_ovr (n : NodeIx) : (s.flagsLoaded n).ovr = s.ovr := rfl
@[simp] theorem State.flagsLoaded_errCode (n : NodeIx) : (s.flagsLoaded n).errCode = s.errCode := rfl
@[simp] theorem State.flagsLoaded_magic (n : NodeIx) : (s.flagsLoaded n).magic = s.magic := rfl
@[simp] theorem State.flagsLoaded_nodeCount (n : NodeIx) : (s.flagsLoaded n).nodeCount = n := rfl
@[simp] theorem State.flagsLoaded_inBits (n : NodeIx) : (s.flagsLoaded n).inBits = s.inBits := rfl
@[simp] theorem State.flagsLoaded_outBits (n : NodeIx) : (s.flagsLoaded n).outBits = s.outBits := rfl
@[simp] theorem State.flagsLoaded_symCount (n : NodeIx) : (s.flagsLoaded n).symCount = s.symCount := rfl
@[simp] theorem State.flagsLoaded_nodes (n : NodeIx) : (s.flagsLoaded n).nodes = s.nodes := rfl
@[simp] theorem State.flagsLoaded_codes (n : NodeIx) : (s.flagsLoaded n).codes = s.codes := rfl
@[simp] theorem State.flagsLoaded_eng (n : NodeIx) : (s.flagsLoaded n).eng = s.eng := rfl
@[simp] theorem State.flagsLoaded_cmdLatch (n : NodeIx) : (s.flagsLoaded n).cmdLatch = s.cmdLatch := rfl
@[simp] theorem State.flagsLoaded_cur (n : NodeIx) : (s.flagsLoaded n).cur = s.cur := rfl
@[simp] theorem State.flagsLoaded_input (n : NodeIx) : (s.flagsLoaded n).input = s.input := rfl
@[simp] theorem State.flagsLoaded_ip (n : NodeIx) : (s.flagsLoaded n).ip = s.ip := rfl
@[simp] theorem State.flagsLoaded_out (n : NodeIx) : (s.flagsLoaded n).out = s.out := rfl
@[simp] theorem State.flagsLoaded_agenda (n : NodeIx) : (s.flagsLoaded n).agenda = s.agenda := rfl
@[simp] theorem State.flagsLoaded_reads (n : NodeIx) : (s.flagsLoaded n).reads = s.reads := rfl
@[simp] theorem State.flagsLoaded_draws (n : NodeIx) : (s.flagsLoaded n).draws = s.draws := rfl

/-! ### State.flagTableStale -/

@[simp] theorem State.flagTableStale_done : s.flagTableStale.done = s.done := rfl
@[simp] theorem State.flagTableStale_err : s.flagTableStale.err = s.err := rfl
@[simp] theorem State.flagTableStale_treeValid : s.flagTableStale.treeValid = s.treeValid := rfl
@[simp] theorem State.flagTableStale_tableValid : s.flagTableStale.tableValid = false := rfl
@[simp] theorem State.flagTableStale_ovr : s.flagTableStale.ovr = s.ovr := rfl
@[simp] theorem State.flagTableStale_errCode : s.flagTableStale.errCode = s.errCode := rfl
@[simp] theorem State.flagTableStale_magic : s.flagTableStale.magic = s.magic := rfl
@[simp] theorem State.flagTableStale_nodeCount : s.flagTableStale.nodeCount = s.nodeCount := rfl
@[simp] theorem State.flagTableStale_inBits : s.flagTableStale.inBits = s.inBits := rfl
@[simp] theorem State.flagTableStale_outBits : s.flagTableStale.outBits = s.outBits := rfl
@[simp] theorem State.flagTableStale_symCount : s.flagTableStale.symCount = s.symCount := rfl
@[simp] theorem State.flagTableStale_nodes : s.flagTableStale.nodes = s.nodes := rfl
@[simp] theorem State.flagTableStale_codes : s.flagTableStale.codes = s.codes := rfl
@[simp] theorem State.flagTableStale_eng : s.flagTableStale.eng = s.eng := rfl
@[simp] theorem State.flagTableStale_cmdLatch : s.flagTableStale.cmdLatch = s.cmdLatch := rfl
@[simp] theorem State.flagTableStale_cur : s.flagTableStale.cur = s.cur := rfl
@[simp] theorem State.flagTableStale_input : s.flagTableStale.input = s.input := rfl
@[simp] theorem State.flagTableStale_ip : s.flagTableStale.ip = s.ip := rfl
@[simp] theorem State.flagTableStale_out : s.flagTableStale.out = s.out := rfl
@[simp] theorem State.flagTableStale_agenda : s.flagTableStale.agenda = s.agenda := rfl
@[simp] theorem State.flagTableStale_reads : s.flagTableStale.reads = s.reads := rfl
@[simp] theorem State.flagTableStale_draws : s.flagTableStale.draws = s.draws := rfl

/-! ### State.flagTableValid -/

@[simp] theorem State.flagTableValid_done : s.flagTableValid.done = s.done := rfl
@[simp] theorem State.flagTableValid_err : s.flagTableValid.err = s.err := rfl
@[simp] theorem State.flagTableValid_treeValid : s.flagTableValid.treeValid = s.treeValid := rfl
@[simp] theorem State.flagTableValid_tableValid : s.flagTableValid.tableValid = true := rfl
@[simp] theorem State.flagTableValid_ovr : s.flagTableValid.ovr = s.ovr := rfl
@[simp] theorem State.flagTableValid_errCode : s.flagTableValid.errCode = s.errCode := rfl
@[simp] theorem State.flagTableValid_magic : s.flagTableValid.magic = s.magic := rfl
@[simp] theorem State.flagTableValid_nodeCount : s.flagTableValid.nodeCount = s.nodeCount := rfl
@[simp] theorem State.flagTableValid_inBits : s.flagTableValid.inBits = s.inBits := rfl
@[simp] theorem State.flagTableValid_outBits : s.flagTableValid.outBits = s.outBits := rfl
@[simp] theorem State.flagTableValid_symCount : s.flagTableValid.symCount = s.symCount := rfl
@[simp] theorem State.flagTableValid_nodes : s.flagTableValid.nodes = s.nodes := rfl
@[simp] theorem State.flagTableValid_codes : s.flagTableValid.codes = s.codes := rfl
@[simp] theorem State.flagTableValid_eng : s.flagTableValid.eng = s.eng := rfl
@[simp] theorem State.flagTableValid_cmdLatch : s.flagTableValid.cmdLatch = s.cmdLatch := rfl
@[simp] theorem State.flagTableValid_cur : s.flagTableValid.cur = s.cur := rfl
@[simp] theorem State.flagTableValid_input : s.flagTableValid.input = s.input := rfl
@[simp] theorem State.flagTableValid_ip : s.flagTableValid.ip = s.ip := rfl
@[simp] theorem State.flagTableValid_out : s.flagTableValid.out = s.out := rfl
@[simp] theorem State.flagTableValid_agenda : s.flagTableValid.agenda = s.agenda := rfl
@[simp] theorem State.flagTableValid_reads : s.flagTableValid.reads = s.reads := rfl
@[simp] theorem State.flagTableValid_draws : s.flagTableValid.draws = s.draws := rfl

/-! ### State.putCode -/

@[simp] theorem State.putCode_done (y : Symbol) (e : CodeEntry) : (s.putCode y e).done = s.done := rfl
@[simp] theorem State.putCode_err (y : Symbol) (e : CodeEntry) : (s.putCode y e).err = s.err := rfl
@[simp] theorem State.putCode_treeValid (y : Symbol) (e : CodeEntry) : (s.putCode y e).treeValid = s.treeValid := rfl
@[simp] theorem State.putCode_tableValid (y : Symbol) (e : CodeEntry) : (s.putCode y e).tableValid = s.tableValid := rfl
@[simp] theorem State.putCode_ovr (y : Symbol) (e : CodeEntry) : (s.putCode y e).ovr = s.ovr := rfl
@[simp] theorem State.putCode_errCode (y : Symbol) (e : CodeEntry) : (s.putCode y e).errCode = s.errCode := rfl
@[simp] theorem State.putCode_magic (y : Symbol) (e : CodeEntry) : (s.putCode y e).magic = s.magic := rfl
@[simp] theorem State.putCode_nodeCount (y : Symbol) (e : CodeEntry) : (s.putCode y e).nodeCount = s.nodeCount := rfl
@[simp] theorem State.putCode_inBits (y : Symbol) (e : CodeEntry) : (s.putCode y e).inBits = s.inBits := rfl
@[simp] theorem State.putCode_outBits (y : Symbol) (e : CodeEntry) : (s.putCode y e).outBits = s.outBits := rfl
@[simp] theorem State.putCode_symCount (y : Symbol) (e : CodeEntry) : (s.putCode y e).symCount = s.symCount := rfl
@[simp] theorem State.putCode_nodes (y : Symbol) (e : CodeEntry) : (s.putCode y e).nodes = s.nodes := rfl
@[simp] theorem State.putCode_codes (y : Symbol) (e : CodeEntry) : (s.putCode y e).codes = s.codes.write y.toNat e := rfl
@[simp] theorem State.putCode_eng (y : Symbol) (e : CodeEntry) : (s.putCode y e).eng = s.eng := rfl
@[simp] theorem State.putCode_cmdLatch (y : Symbol) (e : CodeEntry) : (s.putCode y e).cmdLatch = s.cmdLatch := rfl
@[simp] theorem State.putCode_cur (y : Symbol) (e : CodeEntry) : (s.putCode y e).cur = s.cur := rfl
@[simp] theorem State.putCode_input (y : Symbol) (e : CodeEntry) : (s.putCode y e).input = s.input := rfl
@[simp] theorem State.putCode_ip (y : Symbol) (e : CodeEntry) : (s.putCode y e).ip = s.ip := rfl
@[simp] theorem State.putCode_out (y : Symbol) (e : CodeEntry) : (s.putCode y e).out = s.out := rfl
@[simp] theorem State.putCode_agenda (y : Symbol) (e : CodeEntry) : (s.putCode y e).agenda = s.agenda := rfl
@[simp] theorem State.putCode_reads (y : Symbol) (e : CodeEntry) : (s.putCode y e).reads = s.reads := rfl
@[simp] theorem State.putCode_draws (y : Symbol) (e : CodeEntry) : (s.putCode y e).draws = s.draws := rfl

/-! ### State.zeroCodes -/

@[simp] theorem State.zeroCodes_done : s.zeroCodes.done = s.done := rfl
@[simp] theorem State.zeroCodes_err : s.zeroCodes.err = s.err := rfl
@[simp] theorem State.zeroCodes_treeValid : s.zeroCodes.treeValid = s.treeValid := rfl
@[simp] theorem State.zeroCodes_tableValid : s.zeroCodes.tableValid = s.tableValid := rfl
@[simp] theorem State.zeroCodes_ovr : s.zeroCodes.ovr = s.ovr := rfl
@[simp] theorem State.zeroCodes_errCode : s.zeroCodes.errCode = s.errCode := rfl
@[simp] theorem State.zeroCodes_magic : s.zeroCodes.magic = s.magic := rfl
@[simp] theorem State.zeroCodes_nodeCount : s.zeroCodes.nodeCount = s.nodeCount := rfl
@[simp] theorem State.zeroCodes_inBits : s.zeroCodes.inBits = s.inBits := rfl
@[simp] theorem State.zeroCodes_outBits : s.zeroCodes.outBits = s.outBits := rfl
@[simp] theorem State.zeroCodes_symCount : s.zeroCodes.symCount = s.symCount := rfl
@[simp] theorem State.zeroCodes_nodes : s.zeroCodes.nodes = s.nodes := rfl
@[simp] theorem State.zeroCodes_codes : s.zeroCodes.codes = CodeMem.zeros := rfl
@[simp] theorem State.zeroCodes_eng : s.zeroCodes.eng = s.eng := rfl
@[simp] theorem State.zeroCodes_cmdLatch : s.zeroCodes.cmdLatch = s.cmdLatch := rfl
@[simp] theorem State.zeroCodes_cur : s.zeroCodes.cur = s.cur := rfl
@[simp] theorem State.zeroCodes_input : s.zeroCodes.input = s.input := rfl
@[simp] theorem State.zeroCodes_ip : s.zeroCodes.ip = s.ip := rfl
@[simp] theorem State.zeroCodes_out : s.zeroCodes.out = s.out := rfl
@[simp] theorem State.zeroCodes_agenda : s.zeroCodes.agenda = s.agenda := rfl
@[simp] theorem State.zeroCodes_reads : s.zeroCodes.reads = s.reads := rfl
@[simp] theorem State.zeroCodes_draws : s.zeroCodes.draws = s.draws := rfl

/-! ### State.forgetNodes -/

@[simp] theorem State.forgetNodes_done : s.forgetNodes.done = s.done := rfl
@[simp] theorem State.forgetNodes_err : s.forgetNodes.err = s.err := rfl
@[simp] theorem State.forgetNodes_treeValid : s.forgetNodes.treeValid = s.treeValid := rfl
@[simp] theorem State.forgetNodes_tableValid : s.forgetNodes.tableValid = s.tableValid := rfl
@[simp] theorem State.forgetNodes_ovr : s.forgetNodes.ovr = s.ovr := rfl
@[simp] theorem State.forgetNodes_errCode : s.forgetNodes.errCode = s.errCode := rfl
@[simp] theorem State.forgetNodes_magic : s.forgetNodes.magic = s.magic := rfl
@[simp] theorem State.forgetNodes_nodeCount : s.forgetNodes.nodeCount = s.nodeCount := rfl
@[simp] theorem State.forgetNodes_inBits : s.forgetNodes.inBits = s.inBits := rfl
@[simp] theorem State.forgetNodes_outBits : s.forgetNodes.outBits = s.outBits := rfl
@[simp] theorem State.forgetNodes_symCount : s.forgetNodes.symCount = s.symCount := rfl
@[simp] theorem State.forgetNodes_nodes : s.forgetNodes.nodes = ⟨s.draws, []⟩ := rfl
@[simp] theorem State.forgetNodes_codes : s.forgetNodes.codes = s.codes := rfl
@[simp] theorem State.forgetNodes_eng : s.forgetNodes.eng = s.eng := rfl
@[simp] theorem State.forgetNodes_cmdLatch : s.forgetNodes.cmdLatch = s.cmdLatch := rfl
@[simp] theorem State.forgetNodes_cur : s.forgetNodes.cur = s.cur := rfl
@[simp] theorem State.forgetNodes_input : s.forgetNodes.input = s.input := rfl
@[simp] theorem State.forgetNodes_ip : s.forgetNodes.ip = s.ip := rfl
@[simp] theorem State.forgetNodes_out : s.forgetNodes.out = s.out := rfl
@[simp] theorem State.forgetNodes_agenda : s.forgetNodes.agenda = s.agenda := rfl
@[simp] theorem State.forgetNodes_reads : s.forgetNodes.reads = s.reads := rfl
@[simp] theorem State.forgetNodes_draws : s.forgetNodes.draws = s.draws + 1 := rfl

/-! ### State.forgetCodes -/

@[simp] theorem State.forgetCodes_done : s.forgetCodes.done = s.done := rfl
@[simp] theorem State.forgetCodes_err : s.forgetCodes.err = s.err := rfl
@[simp] theorem State.forgetCodes_treeValid : s.forgetCodes.treeValid = s.treeValid := rfl
@[simp] theorem State.forgetCodes_tableValid : s.forgetCodes.tableValid = s.tableValid := rfl
@[simp] theorem State.forgetCodes_ovr : s.forgetCodes.ovr = s.ovr := rfl
@[simp] theorem State.forgetCodes_errCode : s.forgetCodes.errCode = s.errCode := rfl
@[simp] theorem State.forgetCodes_magic : s.forgetCodes.magic = s.magic := rfl
@[simp] theorem State.forgetCodes_nodeCount : s.forgetCodes.nodeCount = s.nodeCount := rfl
@[simp] theorem State.forgetCodes_inBits : s.forgetCodes.inBits = s.inBits := rfl
@[simp] theorem State.forgetCodes_outBits : s.forgetCodes.outBits = s.outBits := rfl
@[simp] theorem State.forgetCodes_symCount : s.forgetCodes.symCount = s.symCount := rfl
@[simp] theorem State.forgetCodes_nodes : s.forgetCodes.nodes = s.nodes := rfl
@[simp] theorem State.forgetCodes_codes : s.forgetCodes.codes = ⟨.free s.draws, []⟩ := rfl
@[simp] theorem State.forgetCodes_eng : s.forgetCodes.eng = s.eng := rfl
@[simp] theorem State.forgetCodes_cmdLatch : s.forgetCodes.cmdLatch = s.cmdLatch := rfl
@[simp] theorem State.forgetCodes_cur : s.forgetCodes.cur = s.cur := rfl
@[simp] theorem State.forgetCodes_input : s.forgetCodes.input = s.input := rfl
@[simp] theorem State.forgetCodes_ip : s.forgetCodes.ip = s.ip := rfl
@[simp] theorem State.forgetCodes_out : s.forgetCodes.out = s.out := rfl
@[simp] theorem State.forgetCodes_agenda : s.forgetCodes.agenda = s.agenda := rfl
@[simp] theorem State.forgetCodes_reads : s.forgetCodes.reads = s.reads := rfl
@[simp] theorem State.forgetCodes_draws : s.forgetCodes.draws = s.draws + 1 := rfl

/-! ### State.consume -/

@[simp] theorem State.consume_done (n : Nat) : (s.consume n).done = s.done := rfl
@[simp] theorem State.consume_err (n : Nat) : (s.consume n).err = s.err := rfl
@[simp] theorem State.consume_treeValid (n : Nat) : (s.consume n).treeValid = s.treeValid := rfl
@[simp] theorem State.consume_tableValid (n : Nat) : (s.consume n).tableValid = s.tableValid := rfl
@[simp] theorem State.consume_ovr (n : Nat) : (s.consume n).ovr = s.ovr := rfl
@[simp] theorem State.consume_errCode (n : Nat) : (s.consume n).errCode = s.errCode := rfl
@[simp] theorem State.consume_magic (n : Nat) : (s.consume n).magic = s.magic := rfl
@[simp] theorem State.consume_nodeCount (n : Nat) : (s.consume n).nodeCount = s.nodeCount := rfl
@[simp] theorem State.consume_inBits (n : Nat) : (s.consume n).inBits = s.inBits + BitVec.ofNat 32 (s.readSize n) := rfl
@[simp] theorem State.consume_outBits (n : Nat) : (s.consume n).outBits = s.outBits := rfl
@[simp] theorem State.consume_symCount (n : Nat) : (s.consume n).symCount = s.symCount := rfl
@[simp] theorem State.consume_nodes (n : Nat) : (s.consume n).nodes = s.nodes := rfl
@[simp] theorem State.consume_codes (n : Nat) : (s.consume n).codes = s.codes := rfl
@[simp] theorem State.consume_eng (n : Nat) : (s.consume n).eng = s.eng := rfl
@[simp] theorem State.consume_cmdLatch (n : Nat) : (s.consume n).cmdLatch = s.cmdLatch := rfl
@[simp] theorem State.consume_cur (n : Nat) : (s.consume n).cur = s.cur := rfl
@[simp] theorem State.consume_input (n : Nat) : (s.consume n).input = s.input := rfl
@[simp] theorem State.consume_ip (n : Nat) : (s.consume n).ip = if n ≤ s.input.length - s.ip then s.ip + n else s.input.length := rfl
@[simp] theorem State.consume_out (n : Nat) : (s.consume n).out = s.out := rfl
@[simp] theorem State.consume_agenda (n : Nat) : (s.consume n).agenda = s.agenda := rfl
@[simp] theorem State.consume_reads (n : Nat) : (s.consume n).reads = s.reads := rfl
@[simp] theorem State.consume_draws (n : Nat) : (s.consume n).draws = s.draws := rfl

/-! ### State.writeBits -/

@[simp] theorem State.writeBits_done (n v : Nat) : (s.writeBits n v).done = s.done := rfl
@[simp] theorem State.writeBits_err (n v : Nat) : (s.writeBits n v).err = s.err := rfl
@[simp] theorem State.writeBits_treeValid (n v : Nat) : (s.writeBits n v).treeValid = s.treeValid := rfl
@[simp] theorem State.writeBits_tableValid (n v : Nat) : (s.writeBits n v).tableValid = s.tableValid := rfl
@[simp] theorem State.writeBits_ovr (n v : Nat) : (s.writeBits n v).ovr = s.ovr := rfl
@[simp] theorem State.writeBits_errCode (n v : Nat) : (s.writeBits n v).errCode = s.errCode := rfl
@[simp] theorem State.writeBits_magic (n v : Nat) : (s.writeBits n v).magic = s.magic := rfl
@[simp] theorem State.writeBits_nodeCount (n v : Nat) : (s.writeBits n v).nodeCount = s.nodeCount := rfl
@[simp] theorem State.writeBits_inBits (n v : Nat) : (s.writeBits n v).inBits = s.inBits := rfl
@[simp] theorem State.writeBits_outBits (n v : Nat) : (s.writeBits n v).outBits = s.outBits + BitVec.ofNat 32 n := rfl
@[simp] theorem State.writeBits_symCount (n v : Nat) : (s.writeBits n v).symCount = s.symCount := rfl
@[simp] theorem State.writeBits_nodes (n v : Nat) : (s.writeBits n v).nodes = s.nodes := rfl
@[simp] theorem State.writeBits_codes (n v : Nat) : (s.writeBits n v).codes = s.codes := rfl
@[simp] theorem State.writeBits_eng (n v : Nat) : (s.writeBits n v).eng = s.eng := rfl
@[simp] theorem State.writeBits_cmdLatch (n v : Nat) : (s.writeBits n v).cmdLatch = s.cmdLatch := rfl
@[simp] theorem State.writeBits_cur (n v : Nat) : (s.writeBits n v).cur = s.cur := rfl
@[simp] theorem State.writeBits_input (n v : Nat) : (s.writeBits n v).input = s.input := rfl
@[simp] theorem State.writeBits_ip (n v : Nat) : (s.writeBits n v).ip = s.ip := rfl
@[simp] theorem State.writeBits_out (n v : Nat) : (s.writeBits n v).out = s.out ++ lowBits n v := rfl
@[simp] theorem State.writeBits_agenda (n v : Nat) : (s.writeBits n v).agenda = s.agenda := rfl
@[simp] theorem State.writeBits_reads (n v : Nat) : (s.writeBits n v).reads = s.reads := rfl
@[simp] theorem State.writeBits_draws (n v : Nat) : (s.writeBits n v).draws = s.draws := rfl

/-! ### State.rewind -/

@[simp] theorem State.rewind_done : s.rewind.done = s.done := rfl
@[simp] theorem State.rewind_err : s.rewind.err = s.err := rfl
@[simp] theorem State.rewind_treeValid : s.rewind.treeValid = s.treeValid := rfl
@[simp] theorem State.rewind_tableValid : s.rewind.tableValid = s.tableValid := rfl
@[simp] theorem State.rewind_ovr : s.rewind.ovr = s.ovr := rfl
@[simp] theorem State.rewind_errCode : s.rewind.errCode = s.errCode := rfl
@[simp] theorem State.rewind_magic : s.rewind.magic = s.magic := rfl
@[simp] theorem State.rewind_nodeCount : s.rewind.nodeCount = s.nodeCount := rfl
@[simp] theorem State.rewind_inBits : s.rewind.inBits = s.inBits := rfl
@[simp] theorem State.rewind_outBits : s.rewind.outBits = s.outBits := rfl
@[simp] theorem State.rewind_symCount : s.rewind.symCount = s.symCount := rfl
@[simp] theorem State.rewind_nodes : s.rewind.nodes = s.nodes := rfl
@[simp] theorem State.rewind_codes : s.rewind.codes = s.codes := rfl
@[simp] theorem State.rewind_eng : s.rewind.eng = s.eng := rfl
@[simp] theorem State.rewind_cmdLatch : s.rewind.cmdLatch = s.cmdLatch := rfl
@[simp] theorem State.rewind_cur : s.rewind.cur = s.cur := rfl
@[simp] theorem State.rewind_input : s.rewind.input = s.input := rfl
@[simp] theorem State.rewind_ip : s.rewind.ip = 0 := rfl
@[simp] theorem State.rewind_out : s.rewind.out = s.out := rfl
@[simp] theorem State.rewind_agenda : s.rewind.agenda = s.agenda := rfl
@[simp] theorem State.rewind_reads : s.rewind.reads = s.reads := rfl
@[simp] theorem State.rewind_draws : s.rewind.draws = s.draws := rfl

/-! ### State.resumeAt -/

@[simp] theorem State.resumeAt_done (p : Point) : (s.resumeAt p).done = s.done := rfl
@[simp] theorem State.resumeAt_err (p : Point) : (s.resumeAt p).err = s.err := rfl
@[simp] theorem State.resumeAt_treeValid (p : Point) : (s.resumeAt p).treeValid = s.treeValid := rfl
@[simp] theorem State.resumeAt_tableValid (p : Point) : (s.resumeAt p).tableValid = s.tableValid := rfl
@[simp] theorem State.resumeAt_ovr (p : Point) : (s.resumeAt p).ovr = s.ovr := rfl
@[simp] theorem State.resumeAt_errCode (p : Point) : (s.resumeAt p).errCode = s.errCode := rfl
@[simp] theorem State.resumeAt_magic (p : Point) : (s.resumeAt p).magic = s.magic := rfl
@[simp] theorem State.resumeAt_nodeCount (p : Point) : (s.resumeAt p).nodeCount = s.nodeCount := rfl
@[simp] theorem State.resumeAt_inBits (p : Point) : (s.resumeAt p).inBits = s.inBits := rfl
@[simp] theorem State.resumeAt_outBits (p : Point) : (s.resumeAt p).outBits = s.outBits := rfl
@[simp] theorem State.resumeAt_symCount (p : Point) : (s.resumeAt p).symCount = s.symCount := rfl
@[simp] theorem State.resumeAt_nodes (p : Point) : (s.resumeAt p).nodes = s.nodes := rfl
@[simp] theorem State.resumeAt_codes (p : Point) : (s.resumeAt p).codes = s.codes := rfl
@[simp] theorem State.resumeAt_eng (p : Point) : (s.resumeAt p).eng = .run p := rfl
@[simp] theorem State.resumeAt_cmdLatch (p : Point) : (s.resumeAt p).cmdLatch = s.cmdLatch := rfl
@[simp] theorem State.resumeAt_cur (p : Point) : (s.resumeAt p).cur = s.cur := rfl
@[simp] theorem State.resumeAt_input (p : Point) : (s.resumeAt p).input = s.input := rfl
@[simp] theorem State.resumeAt_ip (p : Point) : (s.resumeAt p).ip = s.ip := rfl
@[simp] theorem State.resumeAt_out (p : Point) : (s.resumeAt p).out = s.out := rfl
@[simp] theorem State.resumeAt_agenda (p : Point) : (s.resumeAt p).agenda = s.agenda := rfl
@[simp] theorem State.resumeAt_reads (p : Point) : (s.resumeAt p).reads = s.reads := rfl
@[simp] theorem State.resumeAt_draws (p : Point) : (s.resumeAt p).draws = s.draws := rfl

/-! ### State.readThen -/

@[simp] theorem State.readThen_done (n : Nat) (p : Option (BitVec n) → Point) : (s.readThen n p).done = s.done := rfl
@[simp] theorem State.readThen_err (n : Nat) (p : Option (BitVec n) → Point) : (s.readThen n p).err = s.err := rfl
@[simp] theorem State.readThen_treeValid (n : Nat) (p : Option (BitVec n) → Point) : (s.readThen n p).treeValid = s.treeValid := rfl
@[simp] theorem State.readThen_tableValid (n : Nat) (p : Option (BitVec n) → Point) : (s.readThen n p).tableValid = s.tableValid := rfl
@[simp] theorem State.readThen_ovr (n : Nat) (p : Option (BitVec n) → Point) : (s.readThen n p).ovr = s.ovr := rfl
@[simp] theorem State.readThen_errCode (n : Nat) (p : Option (BitVec n) → Point) : (s.readThen n p).errCode = s.errCode := rfl
@[simp] theorem State.readThen_magic (n : Nat) (p : Option (BitVec n) → Point) : (s.readThen n p).magic = s.magic := rfl
@[simp] theorem State.readThen_nodeCount (n : Nat) (p : Option (BitVec n) → Point) : (s.readThen n p).nodeCount = s.nodeCount := rfl
@[simp] theorem State.readThen_inBits (n : Nat) (p : Option (BitVec n) → Point) : (s.readThen n p).inBits = s.inBits + BitVec.ofNat 32 (s.readSize n) := rfl
@[simp] theorem State.readThen_outBits (n : Nat) (p : Option (BitVec n) → Point) : (s.readThen n p).outBits = s.outBits := rfl
@[simp] theorem State.readThen_symCount (n : Nat) (p : Option (BitVec n) → Point) : (s.readThen n p).symCount = s.symCount := rfl
@[simp] theorem State.readThen_nodes (n : Nat) (p : Option (BitVec n) → Point) : (s.readThen n p).nodes = s.nodes := rfl
@[simp] theorem State.readThen_codes (n : Nat) (p : Option (BitVec n) → Point) : (s.readThen n p).codes = s.codes := rfl
@[simp] theorem State.readThen_eng (n : Nat) (p : Option (BitVec n) → Point) : (s.readThen n p).eng = .run (p (s.peekBits n)) := rfl
@[simp] theorem State.readThen_cmdLatch (n : Nat) (p : Option (BitVec n) → Point) : (s.readThen n p).cmdLatch = s.cmdLatch := rfl
@[simp] theorem State.readThen_cur (n : Nat) (p : Option (BitVec n) → Point) : (s.readThen n p).cur = s.cur := rfl
@[simp] theorem State.readThen_input (n : Nat) (p : Option (BitVec n) → Point) : (s.readThen n p).input = s.input := rfl
@[simp] theorem State.readThen_ip (n : Nat) (p : Option (BitVec n) → Point) : (s.readThen n p).ip = if n ≤ s.input.length - s.ip then s.ip + n else s.input.length := rfl
@[simp] theorem State.readThen_out (n : Nat) (p : Option (BitVec n) → Point) : (s.readThen n p).out = s.out := rfl
@[simp] theorem State.readThen_agenda (n : Nat) (p : Option (BitVec n) → Point) : (s.readThen n p).agenda = s.agenda := rfl
@[simp] theorem State.readThen_reads (n : Nat) (p : Option (BitVec n) → Point) : (s.readThen n p).reads = s.reads := rfl
@[simp] theorem State.readThen_draws (n : Nat) (p : Option (BitVec n) → Point) : (s.readThen n p).draws = s.draws := rfl

/-! ### State.writeThen -/

@[simp] theorem State.writeThen_done (n v : Nat) (p : Point) : (s.writeThen n v p).done = s.done := rfl
@[simp] theorem State.writeThen_err (n v : Nat) (p : Point) : (s.writeThen n v p).err = s.err := rfl
@[simp] theorem State.writeThen_treeValid (n v : Nat) (p : Point) : (s.writeThen n v p).treeValid = s.treeValid := rfl
@[simp] theorem State.writeThen_tableValid (n v : Nat) (p : Point) : (s.writeThen n v p).tableValid = s.tableValid := rfl
@[simp] theorem State.writeThen_ovr (n v : Nat) (p : Point) : (s.writeThen n v p).ovr = s.ovr := rfl
@[simp] theorem State.writeThen_errCode (n v : Nat) (p : Point) : (s.writeThen n v p).errCode = s.errCode := rfl
@[simp] theorem State.writeThen_magic (n v : Nat) (p : Point) : (s.writeThen n v p).magic = s.magic := rfl
@[simp] theorem State.writeThen_nodeCount (n v : Nat) (p : Point) : (s.writeThen n v p).nodeCount = s.nodeCount := rfl
@[simp] theorem State.writeThen_inBits (n v : Nat) (p : Point) : (s.writeThen n v p).inBits = s.inBits := rfl
@[simp] theorem State.writeThen_outBits (n v : Nat) (p : Point) : (s.writeThen n v p).outBits = s.outBits + BitVec.ofNat 32 n := rfl
@[simp] theorem State.writeThen_symCount (n v : Nat) (p : Point) : (s.writeThen n v p).symCount = s.symCount := rfl
@[simp] theorem State.writeThen_nodes (n v : Nat) (p : Point) : (s.writeThen n v p).nodes = s.nodes := rfl
@[simp] theorem State.writeThen_codes (n v : Nat) (p : Point) : (s.writeThen n v p).codes = s.codes := rfl
@[simp] theorem State.writeThen_eng (n v : Nat) (p : Point) : (s.writeThen n v p).eng = .run p := rfl
@[simp] theorem State.writeThen_cmdLatch (n v : Nat) (p : Point) : (s.writeThen n v p).cmdLatch = s.cmdLatch := rfl
@[simp] theorem State.writeThen_cur (n v : Nat) (p : Point) : (s.writeThen n v p).cur = s.cur := rfl
@[simp] theorem State.writeThen_input (n v : Nat) (p : Point) : (s.writeThen n v p).input = s.input := rfl
@[simp] theorem State.writeThen_ip (n v : Nat) (p : Point) : (s.writeThen n v p).ip = s.ip := rfl
@[simp] theorem State.writeThen_out (n v : Nat) (p : Point) : (s.writeThen n v p).out = s.out ++ lowBits n v := rfl
@[simp] theorem State.writeThen_agenda (n v : Nat) (p : Point) : (s.writeThen n v p).agenda = s.agenda := rfl
@[simp] theorem State.writeThen_reads (n v : Nat) (p : Point) : (s.writeThen n v p).reads = s.reads := rfl
@[simp] theorem State.writeThen_draws (n v : Nat) (p : Point) : (s.writeThen n v p).draws = s.draws := rfl

/-! ### State.setCur -/

@[simp] theorem State.setCur_done (i : NodeIx) : (s.setCur i).done = s.done := rfl
@[simp] theorem State.setCur_err (i : NodeIx) : (s.setCur i).err = s.err := rfl
@[simp] theorem State.setCur_treeValid (i : NodeIx) : (s.setCur i).treeValid = s.treeValid := rfl
@[simp] theorem State.setCur_tableValid (i : NodeIx) : (s.setCur i).tableValid = s.tableValid := rfl
@[simp] theorem State.setCur_ovr (i : NodeIx) : (s.setCur i).ovr = s.ovr := rfl
@[simp] theorem State.setCur_errCode (i : NodeIx) : (s.setCur i).errCode = s.errCode := rfl
@[simp] theorem State.setCur_magic (i : NodeIx) : (s.setCur i).magic = s.magic := rfl
@[simp] theorem State.setCur_nodeCount (i : NodeIx) : (s.setCur i).nodeCount = s.nodeCount := rfl
@[simp] theorem State.setCur_inBits (i : NodeIx) : (s.setCur i).inBits = s.inBits := rfl
@[simp] theorem State.setCur_outBits (i : NodeIx) : (s.setCur i).outBits = s.outBits := rfl
@[simp] theorem State.setCur_symCount (i : NodeIx) : (s.setCur i).symCount = s.symCount := rfl
@[simp] theorem State.setCur_nodes (i : NodeIx) : (s.setCur i).nodes = s.nodes := rfl
@[simp] theorem State.setCur_codes (i : NodeIx) : (s.setCur i).codes = s.codes := rfl
@[simp] theorem State.setCur_eng (i : NodeIx) : (s.setCur i).eng = s.eng := rfl
@[simp] theorem State.setCur_cmdLatch (i : NodeIx) : (s.setCur i).cmdLatch = s.cmdLatch := rfl
@[simp] theorem State.setCur_cur (i : NodeIx) : (s.setCur i).cur = i := rfl
@[simp] theorem State.setCur_input (i : NodeIx) : (s.setCur i).input = s.input := rfl
@[simp] theorem State.setCur_ip (i : NodeIx) : (s.setCur i).ip = s.ip := rfl
@[simp] theorem State.setCur_out (i : NodeIx) : (s.setCur i).out = s.out := rfl
@[simp] theorem State.setCur_agenda (i : NodeIx) : (s.setCur i).agenda = s.agenda := rfl
@[simp] theorem State.setCur_reads (i : NodeIx) : (s.setCur i).reads = s.reads := rfl
@[simp] theorem State.setCur_draws (i : NodeIx) : (s.setCur i).draws = s.draws := rfl

/-! ### State.countSymbol -/

@[simp] theorem State.countSymbol_done : s.countSymbol.done = s.done := rfl
@[simp] theorem State.countSymbol_err : s.countSymbol.err = s.err := rfl
@[simp] theorem State.countSymbol_treeValid : s.countSymbol.treeValid = s.treeValid := rfl
@[simp] theorem State.countSymbol_tableValid : s.countSymbol.tableValid = s.tableValid := rfl
@[simp] theorem State.countSymbol_ovr : s.countSymbol.ovr = s.ovr := rfl
@[simp] theorem State.countSymbol_errCode : s.countSymbol.errCode = s.errCode := rfl
@[simp] theorem State.countSymbol_magic : s.countSymbol.magic = s.magic := rfl
@[simp] theorem State.countSymbol_nodeCount : s.countSymbol.nodeCount = s.nodeCount := rfl
@[simp] theorem State.countSymbol_inBits : s.countSymbol.inBits = s.inBits := rfl
@[simp] theorem State.countSymbol_outBits : s.countSymbol.outBits = s.outBits := rfl
@[simp] theorem State.countSymbol_symCount : s.countSymbol.symCount = s.symCount + 1 := rfl
@[simp] theorem State.countSymbol_nodes : s.countSymbol.nodes = s.nodes := rfl
@[simp] theorem State.countSymbol_codes : s.countSymbol.codes = s.codes := rfl
@[simp] theorem State.countSymbol_eng : s.countSymbol.eng = s.eng := rfl
@[simp] theorem State.countSymbol_cmdLatch : s.countSymbol.cmdLatch = s.cmdLatch := rfl
@[simp] theorem State.countSymbol_cur : s.countSymbol.cur = s.cur := rfl
@[simp] theorem State.countSymbol_input : s.countSymbol.input = s.input := rfl
@[simp] theorem State.countSymbol_ip : s.countSymbol.ip = s.ip := rfl
@[simp] theorem State.countSymbol_out : s.countSymbol.out = s.out := rfl
@[simp] theorem State.countSymbol_agenda : s.countSymbol.agenda = s.agenda := rfl
@[simp] theorem State.countSymbol_reads : s.countSymbol.reads = s.reads := rfl
@[simp] theorem State.countSymbol_draws : s.countSymbol.draws = s.draws := rfl

/-! ### State.endCommand -/

@[simp] theorem State.endCommand_done : s.endCommand.done = s.done := rfl
@[simp] theorem State.endCommand_err : s.endCommand.err = s.err := rfl
@[simp] theorem State.endCommand_treeValid : s.endCommand.treeValid = s.treeValid := rfl
@[simp] theorem State.endCommand_tableValid : s.endCommand.tableValid = s.tableValid := rfl
@[simp] theorem State.endCommand_ovr : s.endCommand.ovr = s.ovr := rfl
@[simp] theorem State.endCommand_errCode : s.endCommand.errCode = s.errCode := rfl
@[simp] theorem State.endCommand_magic : s.endCommand.magic = s.magic := rfl
@[simp] theorem State.endCommand_nodeCount : s.endCommand.nodeCount = s.nodeCount := rfl
@[simp] theorem State.endCommand_inBits : s.endCommand.inBits = s.inBits := rfl
@[simp] theorem State.endCommand_outBits : s.endCommand.outBits = s.outBits := rfl
@[simp] theorem State.endCommand_symCount : s.endCommand.symCount = s.symCount := rfl
@[simp] theorem State.endCommand_nodes : s.endCommand.nodes = s.nodes := rfl
@[simp] theorem State.endCommand_codes : s.endCommand.codes = s.codes := rfl
@[simp] theorem State.endCommand_eng : s.endCommand.eng = .idle := rfl
@[simp] theorem State.endCommand_cmdLatch : s.endCommand.cmdLatch = Config.freeLatch s.draws := rfl
@[simp] theorem State.endCommand_cur : s.endCommand.cur = Config.freeCur s.draws := rfl
@[simp] theorem State.endCommand_input : s.endCommand.input = s.input := rfl
@[simp] theorem State.endCommand_ip : s.endCommand.ip = s.ip := rfl
@[simp] theorem State.endCommand_out : s.endCommand.out = s.out := rfl
@[simp] theorem State.endCommand_agenda : s.endCommand.agenda = s.agenda := rfl
@[simp] theorem State.endCommand_reads : s.endCommand.reads = s.reads := rfl
@[simp] theorem State.endCommand_draws : s.endCommand.draws = s.draws + 1 := rfl

/-! ### State.finish -/

@[simp] theorem State.finish_done : s.finish.done = true := rfl
@[simp] theorem State.finish_err : s.finish.err = s.err := rfl
@[simp] theorem State.finish_treeValid : s.finish.treeValid = s.treeValid := rfl
@[simp] theorem State.finish_tableValid : s.finish.tableValid = s.tableValid := rfl
@[simp] theorem State.finish_ovr : s.finish.ovr = s.ovr := rfl
@[simp] theorem State.finish_errCode : s.finish.errCode = s.errCode := rfl
@[simp] theorem State.finish_magic : s.finish.magic = s.magic := rfl
@[simp] theorem State.finish_nodeCount : s.finish.nodeCount = s.nodeCount := rfl
@[simp] theorem State.finish_inBits : s.finish.inBits = s.inBits := rfl
@[simp] theorem State.finish_outBits : s.finish.outBits = s.outBits := rfl
@[simp] theorem State.finish_symCount : s.finish.symCount = s.symCount := rfl
@[simp] theorem State.finish_nodes : s.finish.nodes = s.nodes := rfl
@[simp] theorem State.finish_codes : s.finish.codes = s.codes := rfl
@[simp] theorem State.finish_eng : s.finish.eng = .idle := rfl
@[simp] theorem State.finish_cmdLatch : s.finish.cmdLatch = Config.freeLatch s.draws := rfl
@[simp] theorem State.finish_cur : s.finish.cur = Config.freeCur s.draws := rfl
@[simp] theorem State.finish_input : s.finish.input = s.input := rfl
@[simp] theorem State.finish_ip : s.finish.ip = s.ip := rfl
@[simp] theorem State.finish_out : s.finish.out = s.out := rfl
@[simp] theorem State.finish_agenda : s.finish.agenda = s.agenda := rfl
@[simp] theorem State.finish_reads : s.finish.reads = s.reads := rfl
@[simp] theorem State.finish_draws : s.finish.draws = s.draws + 1 := rfl

/-! ### State.raise -/

@[simp] theorem State.raise_done (e : ErrCode) : (s.raise e).done = s.done := rfl
@[simp] theorem State.raise_err (e : ErrCode) : (s.raise e).err = true := rfl
@[simp] theorem State.raise_treeValid (e : ErrCode) : (s.raise e).treeValid = s.treeValid := rfl
@[simp] theorem State.raise_tableValid (e : ErrCode) : (s.raise e).tableValid = s.tableValid := rfl
@[simp] theorem State.raise_ovr (e : ErrCode) : (s.raise e).ovr = s.ovr := rfl
@[simp] theorem State.raise_errCode (e : ErrCode) : (s.raise e).errCode = e := rfl
@[simp] theorem State.raise_magic (e : ErrCode) : (s.raise e).magic = s.magic := rfl
@[simp] theorem State.raise_nodeCount (e : ErrCode) : (s.raise e).nodeCount = s.nodeCount := rfl
@[simp] theorem State.raise_inBits (e : ErrCode) : (s.raise e).inBits = s.inBits := rfl
@[simp] theorem State.raise_outBits (e : ErrCode) : (s.raise e).outBits = s.outBits := rfl
@[simp] theorem State.raise_symCount (e : ErrCode) : (s.raise e).symCount = s.symCount := rfl
@[simp] theorem State.raise_nodes (e : ErrCode) : (s.raise e).nodes = s.nodes := rfl
@[simp] theorem State.raise_codes (e : ErrCode) : (s.raise e).codes = s.codes := rfl
@[simp] theorem State.raise_eng (e : ErrCode) : (s.raise e).eng = .idle := rfl
@[simp] theorem State.raise_cmdLatch (e : ErrCode) : (s.raise e).cmdLatch = Config.freeLatch s.draws := rfl
@[simp] theorem State.raise_cur (e : ErrCode) : (s.raise e).cur = Config.freeCur s.draws := rfl
@[simp] theorem State.raise_input (e : ErrCode) : (s.raise e).input = s.input := rfl
@[simp] theorem State.raise_ip (e : ErrCode) : (s.raise e).ip = s.ip := rfl
@[simp] theorem State.raise_out (e : ErrCode) : (s.raise e).out = s.out := rfl
@[simp] theorem State.raise_agenda (e : ErrCode) : (s.raise e).agenda = s.agenda := rfl
@[simp] theorem State.raise_reads (e : ErrCode) : (s.raise e).reads = s.reads := rfl
@[simp] theorem State.raise_draws (e : ErrCode) : (s.raise e).draws = s.draws + 1 := rfl

/-! ### State.accept -/

@[simp] theorem State.accept_done (w : Word32) : (s.accept w).done = false := rfl
@[simp] theorem State.accept_err (w : Word32) : (s.accept w).err = false := rfl
@[simp] theorem State.accept_treeValid (w : Word32) : (s.accept w).treeValid = s.treeValid := rfl
@[simp] theorem State.accept_tableValid (w : Word32) : (s.accept w).tableValid = s.tableValid := rfl
@[simp] theorem State.accept_ovr (w : Word32) : (s.accept w).ovr = s.ovr := rfl
@[simp] theorem State.accept_errCode (w : Word32) : (s.accept w).errCode = .none := rfl
@[simp] theorem State.accept_magic (w : Word32) : (s.accept w).magic = s.magic := rfl
@[simp] theorem State.accept_nodeCount (w : Word32) : (s.accept w).nodeCount = s.nodeCount := rfl
@[simp] theorem State.accept_inBits (w : Word32) : (s.accept w).inBits = 0 := rfl
@[simp] theorem State.accept_outBits (w : Word32) : (s.accept w).outBits = 0 := rfl
@[simp] theorem State.accept_symCount (w : Word32) : (s.accept w).symCount = 0 := rfl
@[simp] theorem State.accept_nodes (w : Word32) : (s.accept w).nodes = s.nodes := rfl
@[simp] theorem State.accept_codes (w : Word32) : (s.accept w).codes = s.codes := rfl
@[simp] theorem State.accept_eng (w : Word32) : (s.accept w).eng = .run .start := rfl
@[simp] theorem State.accept_cmdLatch (w : Word32) : (s.accept w).cmdLatch = w := rfl
@[simp] theorem State.accept_cur (w : Word32) : (s.accept w).cur = s.cur := rfl
@[simp] theorem State.accept_input (w : Word32) : (s.accept w).input = s.input := rfl
@[simp] theorem State.accept_ip (w : Word32) : (s.accept w).ip = s.ip := rfl
@[simp] theorem State.accept_out (w : Word32) : (s.accept w).out = s.out := rfl
@[simp] theorem State.accept_agenda (w : Word32) : (s.accept w).agenda = s.agenda := rfl
@[simp] theorem State.accept_reads (w : Word32) : (s.accept w).reads = s.reads := rfl
@[simp] theorem State.accept_draws (w : Word32) : (s.accept w).draws = s.draws := rfl

/-! ### State.resetBlock -/

@[simp] theorem State.resetBlock_done : s.resetBlock.done = false := rfl
@[simp] theorem State.resetBlock_err : s.resetBlock.err = false := rfl
@[simp] theorem State.resetBlock_treeValid : s.resetBlock.treeValid = false := rfl
@[simp] theorem State.resetBlock_tableValid : s.resetBlock.tableValid = false := rfl
@[simp] theorem State.resetBlock_ovr : s.resetBlock.ovr = false := rfl
@[simp] theorem State.resetBlock_errCode : s.resetBlock.errCode = .none := rfl
@[simp] theorem State.resetBlock_magic : s.resetBlock.magic = s.magic := rfl
@[simp] theorem State.resetBlock_nodeCount : s.resetBlock.nodeCount = 0 := rfl
@[simp] theorem State.resetBlock_inBits : s.resetBlock.inBits = 0 := rfl
@[simp] theorem State.resetBlock_outBits : s.resetBlock.outBits = 0 := rfl
@[simp] theorem State.resetBlock_symCount : s.resetBlock.symCount = 0 := rfl
@[simp] theorem State.resetBlock_nodes : s.resetBlock.nodes = ⟨s.draws, []⟩ := rfl
@[simp] theorem State.resetBlock_codes : s.resetBlock.codes = ⟨.free s.draws, []⟩ := rfl
@[simp] theorem State.resetBlock_eng : s.resetBlock.eng = .idle := rfl
@[simp] theorem State.resetBlock_cmdLatch : s.resetBlock.cmdLatch = Config.freeLatch s.draws := rfl
@[simp] theorem State.resetBlock_cur : s.resetBlock.cur = Config.freeCur s.draws := rfl
@[simp] theorem State.resetBlock_input : s.resetBlock.input = s.input := rfl
@[simp] theorem State.resetBlock_ip : s.resetBlock.ip = s.ip := rfl
@[simp] theorem State.resetBlock_out : s.resetBlock.out = s.out := rfl
@[simp] theorem State.resetBlock_agenda : s.resetBlock.agenda = s.agenda := rfl
@[simp] theorem State.resetBlock_reads : s.resetBlock.reads = s.reads := rfl
@[simp] theorem State.resetBlock_draws : s.resetBlock.draws = s.draws + 1 := rfl

end Sys2Proof.Machine
end

