-- ==== Sys2Proof/Laws/Memory.lean ====
section
/-! SUPPORT. The laws of the two internal memories: a read after a write to the same entry gives the value
written, a write leaves every other entry alone, and every write keeps the canonical form. -/

namespace Sys2Proof.Machine

section Cells

variable {α : Type}

theorem cellsGet_put_same (l : List (Nat × α)) (i : Nat) (x : α) : cellsGet (cellsPut l i x) i = some x := by
  induction l with
  | nil => simp [cellsPut, cellsGet]
  | cons c rest ih =>
    obtain ⟨j, y⟩ := c
    unfold cellsPut
    split
    · simp [cellsGet]
    · split
      · simp [cellsGet]
      · simp [cellsGet, *]

theorem cellsGet_put_other (l : List (Nat × α)) {i j : Nat} (x : α) (h : j ≠ i) :
    cellsGet (cellsPut l i x) j = cellsGet l j := by
  induction l with
  | nil => simp [cellsPut, cellsGet, h]
  | cons c rest ih =>
    obtain ⟨k, y⟩ := c
    unfold cellsPut
    split
    · simp [cellsGet, h]
    · split
      · subst i
        simp [cellsGet, h]
      · simp [cellsGet, ih]

theorem cellsGet_eq_none_of_lt {bound lo : Nat} {l : List (Nat × α)} (h : cellsWf bound lo l = true) {i : Nat}
    (hi : i < lo) : cellsGet l i = none := by
  induction l generalizing lo with
  | nil => rfl
  | cons c rest ih =>
    obtain ⟨j, y⟩ := c
    simp only [cellsWf, Bool.and_eq_true, decide_eq_true_eq] at h
    have hne : i ≠ j := by omega
    simp only [cellsGet, hne, if_false]
    exact ih h.2 (by omega)

theorem cellsGet_drop_same {bound lo : Nat} {l : List (Nat × α)} (h : cellsWf bound lo l = true) (i : Nat) :
    cellsGet (cellsDrop l i) i = none := by
  induction l generalizing lo with
  | nil => rfl
  | cons c rest ih =>
    obtain ⟨j, y⟩ := c
    simp only [cellsWf, Bool.and_eq_true, decide_eq_true_eq] at h
    unfold cellsDrop
    split
    · subst i
      exact cellsGet_eq_none_of_lt h.2 (by omega)
    · simp [cellsGet, *, ih h.2]

theorem cellsGet_drop_other (l : List (Nat × α)) {i j : Nat} (h : j ≠ i) :
    cellsGet (cellsDrop l i) j = cellsGet l j := by
  induction l with
  | nil => rfl
  | cons c rest ih =>
    obtain ⟨k, y⟩ := c
    unfold cellsDrop
    split
    · subst i
      simp [cellsGet, h]
    · simp [cellsGet, ih]

theorem cellsWf_weaken {bound lo lo' : Nat} {l : List (Nat × α)} (h : cellsWf bound lo l = true) (hlo : lo' ≤ lo) :
    cellsWf bound lo' l = true := by
  cases l with
  | nil => rfl
  | cons c rest =>
    simp only [cellsWf, Bool.and_eq_true, decide_eq_true_eq] at h ⊢
    exact ⟨⟨by omega, h.1.2⟩, h.2⟩

theorem cellsWf_put {bound lo i : Nat} {l : List (Nat × α)} (x : α) (h : cellsWf bound lo l = true)
    (hlo : lo ≤ i) (hi : i < bound) : cellsWf bound lo (cellsPut l i x) = true := by
  induction l generalizing lo with
  | nil => simp [cellsPut, cellsWf, hlo, hi]
  | cons c rest ih =>
    obtain ⟨j, y⟩ := c
    simp only [cellsWf, Bool.and_eq_true, decide_eq_true_eq] at h
    unfold cellsPut
    split
    · simp only [cellsWf, Bool.and_eq_true, decide_eq_true_eq]
      exact ⟨⟨hlo, hi⟩, ⟨by omega, h.1.2⟩, h.2⟩
    · split
      · subst i
        simp only [cellsWf, Bool.and_eq_true, decide_eq_true_eq]
        exact ⟨⟨hlo, hi⟩, h.2⟩
      · simp only [cellsWf, Bool.and_eq_true, decide_eq_true_eq]
        exact ⟨h.1, ih h.2 (by omega)⟩

theorem cellsWf_drop {bound lo : Nat} {l : List (Nat × α)} (i : Nat) (h : cellsWf bound lo l = true) :
    cellsWf bound lo (cellsDrop l i) = true := by
  induction l generalizing lo with
  | nil => rfl
  | cons c rest ih =>
    obtain ⟨j, y⟩ := c
    simp only [cellsWf, Bool.and_eq_true, decide_eq_true_eq] at h
    unfold cellsDrop
    split
    · exact cellsWf_weaken h.2 (by omega)
    · simp only [cellsWf, Bool.and_eq_true, decide_eq_true_eq]
      exact ⟨h.1, ih h.2⟩

theorem mem_of_mem_cellsPut {l : List (Nat × α)} {i : Nat} {x : α} {c : Nat × α} (h : c ∈ cellsPut l i x) :
    c = (i, x) ∨ c ∈ l := by
  induction l with
  | nil => simpa [cellsPut] using h
  | cons d rest ih =>
    obtain ⟨j, y⟩ := d
    unfold cellsPut at h
    split at h
    · simpa using h
    · split at h
      · rcases List.mem_cons.1 h with h | h <;> simp [h]
      · rcases List.mem_cons.1 h with h | h
        · simp [h]
        · rcases ih h with h | h <;> simp [h]

theorem mem_of_mem_cellsDrop {l : List (Nat × α)} {i : Nat} {c : Nat × α} (h : c ∈ cellsDrop l i) : c ∈ l := by
  induction l with
  | nil => simp [cellsDrop] at h
  | cons d rest ih =>
    obtain ⟨j, y⟩ := d
    unfold cellsDrop at h
    split at h
    · simp [h]
    · rcases List.mem_cons.1 h with h | h
      · simp [h]
      · simp [ih h]

end Cells

/-! ### The tree memory -/

@[simp] theorem NodeMem.read_write_same (m : NodeMem) (i : Nat) (e : Node) : (m.write i e).read i = e := by
  simp [NodeMem.read, NodeMem.write, cellsGet_put_same]

theorem NodeMem.read_write_other (m : NodeMem) {i j : Nat} (e : Node) (h : j ≠ i) :
    (m.write i e).read j = m.read j := by
  simp [NodeMem.read, NodeMem.write, cellsGet_put_other _ _ h]

theorem NodeMem.wf_write {m : NodeMem} {i : Nat} (e : Node) (h : m.wf = true) (hi : i < Config.nodeCap) :
    (m.write i e).wf = true :=
  cellsWf_put e h (Nat.zero_le i) hi

@[simp] theorem NodeMem.wf_empty (d : Nat) : (NodeMem.mk d []).wf = true := rfl

/-! ### The code table -/

theorem CodeMem.read_write_same {m : CodeMem} (h : m.wf = true) (y : Nat) (e : CodeEntry) :
    (m.write y e).read y = e := by
  obtain ⟨base, cells⟩ := m
  cases base with
  | free d => simp [CodeMem.read, CodeMem.write, cellsGet_put_same]
  | cleared =>
    simp only [CodeMem.wf, Bool.and_eq_true] at h
    simp only [CodeMem.read, CodeMem.write]
    split
    · simp [cellsGet_drop_same h.1, CodeBase.entry, *]
    · simp [cellsGet_put_same]

theorem CodeMem.read_write_other (m : CodeMem) {y z : Nat} (e : CodeEntry) (h : z ≠ y) :
    (m.write y e).read z = m.read z := by
  obtain ⟨base, cells⟩ := m
  cases base with
  | free d => simp [CodeMem.read, CodeMem.write, cellsGet_put_other _ _ h]
  | cleared =>
    simp only [CodeMem.read, CodeMem.write]
    split
    · simp [cellsGet_drop_other _ h]
    · simp [cellsGet_put_other _ _ h]

theorem CodeMem.wf_write {m : CodeMem} {y : Nat} (e : CodeEntry) (h : m.wf = true) (hy : y < Config.nsym) :
    (m.write y e).wf = true := by
  obtain ⟨base, cells⟩ := m
  cases base with
  | free d =>
    simp only [CodeMem.wf, Bool.and_true, CodeMem.write] at h ⊢
    exact cellsWf_put e h (Nat.zero_le y) hy
  | cleared =>
    simp only [CodeMem.wf, Bool.and_eq_true, List.all_eq_true, bne_iff_ne, ne_eq] at h
    simp only [CodeMem.write]
    split
    · simp only [CodeMem.wf, Bool.and_eq_true, List.all_eq_true, bne_iff_ne, ne_eq]
      exact ⟨cellsWf_drop y h.1, fun c hc => h.2 c (mem_of_mem_cellsDrop hc)⟩
    · rename_i hne
      simp only [CodeMem.wf, Bool.and_eq_true, List.all_eq_true, bne_iff_ne, ne_eq]
      refine ⟨cellsWf_put e h.1 (Nat.zero_le y) hy, fun c hc => ?_⟩
      rcases mem_of_mem_cellsPut hc with rfl | hc
      · exact hne
      · exact h.2 c hc

@[simp] theorem CodeMem.wf_zeros : CodeMem.zeros.wf = true := rfl

@[simp] theorem CodeMem.wf_free (d : Nat) : (CodeMem.mk (.free d) []).wf = true := rfl

@[simp] theorem CodeMem.read_zeros (y : Nat) : CodeMem.zeros.read y = noCode := rfl

/-! ### The state's memories -/

theorem Memory.wf_reset : Memory.wf State.reset = true := rfl

theorem Memory.wf_of_eq {s t : State} (h : Memory.wf s = true) (hn : t.nodes = s.nodes) (hc : t.codes = s.codes) :
    Memory.wf t = true := by
  simpa [Memory.wf, hn, hc] using h

end Sys2Proof.Machine
end

