-- ==== Sys2Proof/Laws/Streams.lean ====
section
/-! SUPPORT. The laws of bit strings and of the two stream ports. -/

namespace Sys2Proof.Machine

/-! ### Bit strings and their values -/

@[simp] theorem length_lowBits (n v : Nat) : (lowBits n v).length = n := by
  induction n with
  | zero => rfl
  | succ n ih => simp [lowBits, ih]

theorem foldl_bitsValue (bits : List Bool) (a : Nat) :
    bits.foldl (fun acc b => 2 * acc + b.toNat) a = a * 2 ^ bits.length + bitsValue bits := by
  induction bits generalizing a with
  | nil => simp [bitsValue]
  | cons b rest ih =>
    simp only [bitsValue, List.foldl_cons, List.length_cons]
    rw [ih, ih (2 * 0 + b.toNat)]
    ring

@[simp] theorem bitsValue_nil : bitsValue [] = 0 := rfl

theorem bitsValue_cons (b : Bool) (rest : List Bool) :
    bitsValue (b :: rest) = b.toNat * 2 ^ rest.length + bitsValue rest := by
  have h := foldl_bitsValue rest (2 * 0 + b.toNat)
  simpa [bitsValue] using h

theorem bitsValue_append (a b : List Bool) : bitsValue (a ++ b) = bitsValue a * 2 ^ b.length + bitsValue b := by
  induction a with
  | nil => simp
  | cons x rest ih =>
    rw [List.cons_append, bitsValue_cons, bitsValue_cons, ih, List.length_append, Nat.add_mul, Nat.pow_add]
    ring

theorem bitsValue_lt (bits : List Bool) : bitsValue bits < 2 ^ bits.length := by
  induction bits with
  | nil => simp
  | cons b rest ih =>
    rw [bitsValue_cons, List.length_cons, Nat.pow_succ]
    cases b <;> simp <;> omega

theorem testBit_bitsValue (bits : List Bool) {k : Nat} (h : k < bits.length) :
    (bitsValue bits).testBit (bits.length - 1 - k) = bits[k] := by
  induction bits generalizing k with
  | nil => simp at h
  | cons b rest ih =>
    rw [bitsValue_cons]
    have hlt := bitsValue_lt rest
    cases k with
    | zero =>
      simp only [List.length_cons, Nat.add_sub_cancel, Nat.sub_zero, List.getElem_cons_zero]
      rw [Nat.mul_comm, Nat.testBit_two_pow_mul_add _ hlt]
      cases b <;> simp
    | succ k =>
      simp only [List.length_cons] at h
      simp only [List.length_cons, List.getElem_cons_succ]
      have hk : rest.length + 1 - 1 - (k + 1) = rest.length - 1 - k := by omega
      rw [hk, Nat.mul_comm, Nat.testBit_two_pow_mul_add _ hlt, if_pos (by omega), ih (by omega)]

theorem lowBits_eq_map (n v : Nat) : lowBits n v = (List.range n).map fun k => v.testBit (n - 1 - k) := by
  induction n with
  | zero => rfl
  | succ n ih =>
    rw [lowBits, ih, List.range_succ_eq_map]
    simp only [List.map_cons, List.map_map]
    congr 1
    apply List.map_congr_left
    intro k _
    simp only [Function.comp]
    congr 1
    omega

/-- Writing the value of a bit string writes the bit string. -/
@[simp] theorem lowBits_bitsValue (bits : List Bool) : lowBits bits.length (bitsValue bits) = bits := by
  rw [lowBits_eq_map]
  apply List.ext_getElem
  · simp
  · intro k h _
    simp only [List.length_map, List.length_range] at h
    simp [testBit_bitsValue bits h]

theorem bitsValue_lowBits (n v : Nat) : bitsValue (lowBits n v) = v % 2 ^ n := by
  induction n with
  | zero => simp [lowBits, Nat.mod_one]
  | succ n ih =>
    rw [lowBits, bitsValue_cons, ih, length_lowBits, Nat.mod_pow_succ, Nat.toNat_testBit]
    ring

/-! ### Reads -/

theorem State.length_unread (s : State) : s.unread.length = s.input.length - s.ip := by simp [State.unread]

theorem State.peekBits_some {n : Nat} {s : State} (h : n ≤ s.unread.length) :
    s.peekBits n = some (BitVec.ofNat n (bitsValue (s.unread.take n))) := by
  rw [State.length_unread] at h
  simp [State.peekBits, h]

theorem State.peekBits_none {n : Nat} {s : State} (h : s.unread.length < n) : s.peekBits n = none := by
  rw [State.length_unread] at h
  simp [State.peekBits, Nat.not_le.2 h]

/-- A read of exactly the first bits of what is left returns their value. -/
theorem State.peekBits_append {s : State} {bits rest : List Bool} (h : s.unread = bits ++ rest) :
    s.peekBits bits.length = some (BitVec.ofNat bits.length (bitsValue bits)) := by
  rw [State.peekBits_some (by simp [h])]
  simp [h]

theorem State.consume_unread (n : Nat) (s : State) : (s.consume n).unread = s.unread.drop n := by
  simp only [State.unread, State.consume_input, State.consume_ip, List.drop_drop]
  split
  · rfl
  · rw [List.drop_eq_nil_of_le (Nat.le_refl _), List.drop_eq_nil_of_le (by omega)]

theorem State.consume_cursor (n : Nat) {s : State} (h : s.ip ≤ s.input.length) :
    (s.consume n).ip ≤ (s.consume n).input.length := by
  simp only [State.consume_input, State.consume_ip]
  split <;> omega

end Sys2Proof.Machine
end

