-- ==== Sys2Proof/Laws/Ops.lean ====
section
/-! SUPPORT. One lemma per shared operation that says everything it can do, and the engine's turn. -/

namespace Sys2Proof.Machine

/-! ### Memory accesses of the meanings -/

theorem withNode_of_lt {i : NodeIx} (h : i.toNat < Config.nodeCap) (s : State) (k : Node → Result) :
    withNode i s k = k (s.nodes.read i.toNat) := if_pos h

theorem putNode_of_lt {i : NodeIx} (h : i.toNat < Config.nodeCap) (e : Node) (s : State) (k : State → Result) :
    putNode i e s k = k { s with nodes := s.nodes.write i.toNat e } := if_pos h

theorem withCode_of_lt {y : Symbol} (h : y.toNat < Config.nsym) (s : State) (k : CodeEntry → Result) :
    withCode y s k = k (s.codes.read y.toNat) := if_pos h

/-- A symbol 0..256 has an entry in the code table (R41). -/
theorem withCode_of_le {y : Symbol} (h : y ≤ Config.eofSym) (s : State) (k : CodeEntry → Result) :
    withCode y s k = k (s.codes.read y.toNat) := by
  apply withCode_of_lt
  rw [BitVec.le_def] at h
  have h256 : (Config.eofSym).toNat = 256 := rfl
  simp only [Config.nsym]
  omega

theorem withNode_next {i : NodeIx} {s t : State} {k : Node → Result} (h : withNode i s k = .next t) :
    i.toNat < Config.nodeCap ∧ k (s.nodes.read i.toNat) = .next t := by
  unfold withNode at h
  split at h
  · exact ⟨‹_›, h⟩
  · cases h

theorem putNode_next {i : NodeIx} {e : Node} {s t : State} {k : State → Result} (h : putNode i e s k = .next t) :
    i.toNat < Config.nodeCap ∧ k { s with nodes := s.nodes.write i.toNat e } = .next t := by
  unfold putNode at h
  split at h
  · exact ⟨‹_›, h⟩
  · cases h

theorem withCode_next {y : Symbol} {s t : State} {k : CodeEntry → Result} (h : withCode y s k = .next t) :
    y.toNat < Config.nsym ∧ k (s.codes.read y.toNat) = .next t := by
  unfold withCode at h
  split at h
  · exact ⟨‹_›, h⟩
  · cases h

theorem emitCode_next {c : CodeEntry} {k : Nat} {p : Nat → Point} {s t : State} {rest : State → Result}
    (h : emitCode c k p s rest = .next t) :
    (k < c.len.toNat ∧ t = s.writeThen 1 (codeBit c k).toNat (p (k + 1))) ∨
      (c.len.toNat ≤ k ∧ rest s = .next t) := by
  unfold emitCode at h
  split at h
  · exact .inl ⟨‹_›, by cases h; rfl⟩
  · exact .inr ⟨by omega, h⟩

/-! ### The engine's turn and runs of it -/

theorem engineTurn_idle {s : State} (h : s.eng = .idle) : engineTurn s = .next s := by simp [engineTurn, h]

theorem engineTurn_run {s : State} {p : Point} (h : s.eng = .run p) :
    engineTurn s = exec (decodeCmd s.cmdLatch) s := by simp [engineTurn, h]

theorem Started.turn {i : Instr} {s : State} (h : Started i s) : engineTurn s = exec i s := by
  rw [engineTurn_run h.1, h.2]

theorem busy_iff (s : State) : s.busy = true ↔ ∃ p, s.eng = .run p := by
  unfold State.busy
  cases s.eng <;> simp

@[simp] theorem engineSteps_zero (s : State) : engineSteps 0 s = .next s := rfl

theorem engineSteps_succ {n : Nat} {s t : State} (h : engineTurn s = .next t) :
    engineSteps (n + 1) s = engineSteps n t := by simp [engineSteps, h]

theorem engineSteps_add {m n : Nat} {s t : State} (h : engineSteps m s = .next t) :
    engineSteps (m + n) s = engineSteps n t := by
  induction m generalizing s with
  | zero =>
    cases h
    simp
  | succ m ih =>
    cases hs : engineTurn s with
    | next u =>
      rw [engineSteps_succ hs] at h
      rw [Nat.add_right_comm, engineSteps_succ hs, ih h]
    | fault r => simp [engineSteps, hs] at h
    | refused r => simp [engineSteps, hs] at h

/-- A step with no move on the agenda is the engine's turn. -/
theorem step_of_agenda_nil {s : State} (h : s.agenda = []) : step s = engineTurn s := by simp [step, h]

theorem step_of_agenda_cons {s : State} {m : Move} {rest : List Move} (h : s.agenda = m :: rest) :
    step s = takeMove m { s with agenda := rest } := by simp [step, h]

end Sys2Proof.Machine
end

