-- ==== Sys2Proof/Laws/Trees.lean ====
section
/-! SUPPORT. Trees in the tree memory (R40) and the spine of a tree being loaded (R151): a write at or above the
next free entry disturbs neither, and a completed subtree closes the spine. -/

namespace Sys2Proof.Machine

theorem Tree.size_pos (t : Tree) : 0 < t.size := by cases t <;> simp [Tree.size]

/-- A full tree has an odd number of nodes, one leaf more than internal nodes (R40). -/
theorem Tree.size_eq (t : Tree) : t.size + 1 = 2 * t.symbols.length := by
  induction t with
  | leaf v => rfl
  | node l r ihl ihr => simp only [Tree.size, Tree.symbols, List.length_append]; omega

/-! ### Frames -/

theorem NodeMem.holds_congr {m m' : NodeMem} {i : Nat} {t : Tree}
    (h : ∀ j, i ≤ j → j < i + t.size → m'.read j = m.read j) (ht : m.holds i t) : m'.holds i t := by
  induction t generalizing i with
  | leaf v =>
    simp only [Tree.size] at h
    exact ⟨(h i (Nat.le_refl _) (by omega)).trans ht.1, ht.2⟩
  | node l r ihl ihr =>
    simp only [Tree.size] at h
    obtain ⟨hn, hl, hr⟩ := ht
    exact ⟨(h i (Nat.le_refl _) (by omega)).trans hn, ihl (fun j h1 h2 => h j (by omega) (by omega)) hl,
      ihr (fun j h1 h2 => h j (by omega) (by omega)) hr⟩

theorem NodeMem.opensAt_congr {m m' : NodeMem} {i : Nat} (h : m'.read i = m.read i) (ho : m.opensAt i) :
    m'.opensAt i := by simpa [NodeMem.opensAt, h] using ho

theorem Spine.congr {m m' : NodeMem} {stack : List NodeIx} {i : Nat} (hs : Spine m stack i)
    (h : ∀ j, j < i → m'.read j = m.read j) : Spine m' stack i := by
  induction hs with
  | root => exact .root
  | left hp ho ih => exact .left (ih fun j hj => h j (by omega)) (NodeMem.opensAt_congr (h _ (by omega)) ho)
  | right hp ho hl hr ih =>
    refine .right (ih fun j hj => h j (by omega)) (NodeMem.opensAt_congr (h _ (by omega)) ho)
      (NodeMem.holds_congr (fun j h1 h2 => h j h2) hl) ?_
    rw [h _ (by omega), hr]

theorem Spine.write {m : NodeMem} {stack : List NodeIx} {i j : Nat} (hs : Spine m stack i) (e : Node)
    (h : i ≤ j) : Spine (m.write j e) stack i :=
  hs.congr fun k hk => NodeMem.read_write_other m e (by omega)

theorem NodeMem.holds_write {m : NodeMem} {i j : Nat} {t : Tree} (ht : m.holds i t) (e : Node)
    (h : j < i ∨ i + t.size ≤ j) : (m.write j e).holds i t :=
  NodeMem.holds_congr (fun k h1 h2 => NodeMem.read_write_other m e (by omega)) ht

/-! ### Closing the spine -/

theorem NodeMem.holds_node {m : NodeMem} {p : Nat} {l r : Tree} (ho : m.opensAt p) (hl : m.holds (p + 1) l)
    (hr : (m.read p).right = BitVec.ofNat 10 (p + 1 + l.size)) (hh : m.holds (p + 1 + l.size) r) :
    m.holds p (.node l r) := by
  refine ⟨?_, hl, hh⟩
  obtain ⟨h1, h2, h3⟩ := ho
  cases hn : m.read p
  simp_all

/-- A tree completed with an empty stack is the whole tree (R150: `if S = []` ... `finish`). -/
theorem Spine.close_root {m : NodeMem} {i : Nat} {t : Tree} (hs : Spine m [] i) (ht : m.holds i t) :
    ∃ u : Tree, m.holds 0 u ∧ u.size = i + t.size := by
  generalize hst : ([] : List NodeIx) = stack at hs
  induction hs generalizing t with
  | root => exact ⟨t, ht, by omega⟩
  | left => cases hst
  | right hp ho hl hr ih =>
    obtain ⟨u, hu, hsz⟩ := ih (NodeMem.holds_node ho hl hr ht) hst
    exact ⟨u, hu, by simp only [Tree.size] at hsz; omega⟩

/-- A tree completed with `p` on top of the stack completes the left subtree of `p` (R150: `attach <- true`). -/
theorem Spine.close_left {m : NodeMem} {p : NodeIx} {rest : List NodeIx} {i : Nat} {t : Tree}
    (hs : Spine m (p :: rest) i) (ht : m.holds i t) :
    ∃ l : Tree, Spine m rest p.toNat ∧ m.opensAt p.toNat ∧ m.holds (p.toNat + 1) l ∧
      i + t.size = p.toNat + 1 + l.size := by
  generalize hst : p :: rest = stack at hs
  induction hs generalizing t with
  | root => cases hst
  | left hp ho ih =>
    cases hst
    exact ⟨t, hp, ho, ht, rfl⟩
  | right hp ho hl hr ih =>
    obtain ⟨u, h1, h2, h3, h4⟩ := ih (NodeMem.holds_node ho hl hr ht) hst
    exact ⟨u, h1, h2, h3, by simp only [Tree.size] at h4; omega⟩

/-- The nodes on the stack lie below the next node to be filled (R152). -/
theorem Spine.lt_of_mem {m : NodeMem} {stack : List NodeIx} {i : Nat} (hs : Spine m stack i) {p : NodeIx}
    (hp : p ∈ stack) : p.toNat < i := by
  induction hs with
  | root => cases hp
  | left h1 h2 ih =>
    rcases List.mem_cons.1 hp with rfl | hp
    · omega
    · have := ih hp; omega
  | right h1 h2 h3 h4 ih => have := ih hp; omega

/-! ### Trees at an entry -/

theorem NodeMem.treeAt_children {m : NodeMem} {i : Nat} (h : m.treeAt i) (hk : (m.read i).kind = .internal) :
    m.treeAt (m.read i).left.toNat ∧ m.treeAt (m.read i).right.toNat := by
  obtain ⟨t, ht, hsz⟩ := h
  cases t with
  | leaf v =>
    rw [ht.1] at hk
    cases hk
  | node l r =>
    obtain ⟨hn, hl, hr⟩ := ht
    simp only [Tree.size, Config.nodeCap] at hsz
    have hL : (m.read i).left.toNat = i + 1 := by
      rw [hn]
      simp only [BitVec.toNat_ofNat]
      omega
    have hR : (m.read i).right.toNat = i + 1 + l.size := by
      rw [hn]
      simp only [BitVec.toNat_ofNat]
      omega
    rw [hL, hR]
    exact ⟨⟨l, hl, by simp only [Config.nodeCap]; omega⟩, ⟨r, hr, by simp only [Config.nodeCap]; omega⟩⟩

theorem NodeMem.treeAt_lt {m : NodeMem} {i : Nat} (h : m.treeAt i) : i < Config.nodeCap := by
  obtain ⟨t, -, hsz⟩ := h
  have := t.size_pos
  omega

theorem NodeMem.treeAt_sym_le {m : NodeMem} {i : Nat} (h : m.treeAt i) (hk : (m.read i).kind = .leaf) :
    m.read i = leafNode (m.read i).sym ∧ (m.read i).sym ≤ Config.eofSym := by
  obtain ⟨t, ht, -⟩ := h
  cases t with
  | leaf v =>
    rw [ht.1]
    exact ⟨rfl, ht.2⟩
  | node l r =>
    rw [ht.1] at hk
    cases hk

theorem State.hasTree.treeAt {s : State} {t : Tree} (h : s.hasTree t) : s.nodes.treeAt 0 :=
  ⟨t, h.2.2.2, by simpa using h.2.2.1⟩

end Sys2Proof.Machine
end

