-- ==== Sys2Proof/Laws/CodeTable.lean ====
section
/-! SUPPORT. What DERIVE's loop computes over a loaded tree (R140, R141), said by recursion on the tree. -/

namespace Sys2Proof.Machine

/-- The code table after the leaves of `t` are visited in pre-order, the path to `t` being `pre`; none where a
leaf's symbol already has a code. -/
def deriveCodes (pre : List Bool) : Tree → CodeMem → Option CodeMem
  | .leaf v, m => if (m.read v.toNat).valid then none else some (m.write v.toNat (codeEntryOf pre))
  | .node l r, m =>
    match deriveCodes (pre ++ [false]) l m with
    | none => none
    | some m' => deriveCodes (pre ++ [true]) r m'

theorem drvRaise_codes (e : ErrCode) (s : State) (c : CodeMem) : drvRaise e { s with codes := c } = drvRaise e s :=
  rfl

/-- DERIVE's loop on a stack whose top is the root of `t` visits `t` and goes on with the rest of the stack, or
raises DUPLICATE_SYMBOL (R140). -/
theorem drvLoop_tree {i : NodeIx} {t : Tree} {s : State} {fuel : Nat} {pre : List Bool}
    {rest : List (NodeIx × Nat × Nat)} (ht : s.nodes.holds i.toNat t) (hb : i.toNat + t.size ≤ Config.nodeCap)
    (hf : t.size ≤ fuel) :
    drvLoop fuel ((i, pre.length, bitsValue pre) :: rest) s =
      match deriveCodes pre t s.codes with
      | none => drvRaise .duplicateSymbol s
      | some c => drvLoop (fuel - t.size) rest { s with codes := c } := by
  induction t generalizing i s fuel pre rest with
  | leaf v =>
    simp only [Tree.size] at hf hb
    obtain ⟨fuel, rfl⟩ : ∃ f, fuel = f + 1 := ⟨fuel - 1, by omega⟩
    rw [drvLoop, withNode_of_lt (by omega), ht.1]
    simp only [leafNode, nodeIsLeaf, if_true]
    rw [withCode_of_le ht.2]
    simp only [deriveCodes, Tree.size, Nat.add_sub_cancel]
    split
    · rfl
    · rfl
  | node l r ihl ihr =>
    simp only [Tree.size] at hf hb
    have hcap : Config.nodeCap = 513 := rfl
    obtain ⟨hn, hl, hr⟩ := ht
    obtain ⟨fuel, rfl⟩ : ∃ f, fuel = f + 1 := ⟨fuel - 1, by omega⟩
    have h1 : (BitVec.ofNat 10 (i.toNat + 1)).toNat = i.toNat + 1 := by
      simp only [BitVec.toNat_ofNat]; omega
    have h2 : (BitVec.ofNat 10 (i.toNat + 1 + l.size)).toNat = i.toNat + 1 + l.size := by
      simp only [BitVec.toNat_ofNat]; omega
    rw [drvLoop, withNode_of_lt (by omega), hn]
    simp only [nodeIsLeaf, if_false, Bool.false_eq_true]
    have e1 : pre.length + 1 = (pre ++ [false]).length := by simp
    have e2 : 2 * bitsValue pre = bitsValue (pre ++ [false]) := by
      rw [bitsValue_append]; simp [bitsValue]; ring
    have e3 : 2 * bitsValue pre + 1 = bitsValue (pre ++ [true]) := by
      rw [bitsValue_append]; simp [bitsValue]; ring
    have e4 : (pre ++ [false]).length = (pre ++ [true]).length := by simp
    rw [e3, e2, e1, ihl (by rw [h1]; exact hl) (by rw [h1]; omega) (by omega)]
    simp only [deriveCodes]
    cases hc : deriveCodes (pre ++ [false]) l s.codes with
    | none => rfl
    | some c =>
      dsimp only
      rw [e4, ihr (s := { s with codes := c }) (by rw [h2]; exact hr) (by rw [h2]; omega) (by omega)]
      cases hc' : deriveCodes (pre ++ [true]) r c with
      | none => rfl
      | some c' =>
        have hfuel : fuel - l.size - r.size = fuel + 1 - (l.node r).size := by simp only [Tree.size]; omega
        simp only [hfuel]

/-- The visited table keeps the canonical form. -/
theorem deriveCodes_wf {pre : List Bool} {t : Tree} {m c : CodeMem} (h : deriveCodes pre t m = some c)
    (hm : m.wf = true) (hs : t.symsOk = true) : c.wf = true := by
  induction t generalizing pre m c with
  | leaf v =>
    simp only [deriveCodes] at h
    split at h
    · cases h
    · cases h
      apply CodeMem.wf_write _ hm
      simp only [Tree.symsOk, Tree.symbols, List.all_cons, List.all_nil, Bool.and_true, decide_eq_true_eq,
        BitVec.le_def] at hs
      have h256 : (Config.eofSym).toNat = 256 := rfl
      simp only [Config.nsym]
      omega
  | node l r ihl ihr =>
    simp only [Tree.symsOk, Tree.symbols, List.all_append, Bool.and_eq_true] at hs
    simp only [deriveCodes] at h
    split at h
    · cases h
    · rename_i c' hc'
      exact ihr h (ihl hc' hm hs.1) hs.2

theorem lookup_append {α β : Type} [BEq α] (a b : List (α × β)) (y : α) :
    (a ++ b).lookup y = (a.lookup y).or (b.lookup y) := by
  induction a with
  | nil => simp
  | cons c rest ih =>
    obtain ⟨k, v⟩ := c
    simp only [List.cons_append, List.lookup_cons, ih]
    split <;> rfl

theorem lookup_map_snd {α β γ : Type} [BEq α] (f : β → γ) (a : List (α × β)) (y : α) :
    (a.map fun c => (c.1, f c.2)).lookup y = (a.lookup y).map f := by
  induction a with
  | nil => rfl
  | cons c rest ih =>
    obtain ⟨k, v⟩ := c
    simp only [List.map_cons, List.lookup_cons, ih]
    split <;> rfl

theorem Tree.code_leaf (v y : Symbol) : (Tree.leaf v).code y = if y = v then some [] else none := by
  simp only [Tree.code, Tree.paths, List.lookup_cons, List.lookup_nil]
  by_cases h : y = v
  · simp [h]
  · simp [h, beq_false_of_ne h]

theorem Tree.code_node (l r : Tree) (y : Symbol) :
    (Tree.node l r).code y = ((l.code y).map (false :: ·)).or ((r.code y).map (true :: ·)) := by
  simp only [Tree.code, Tree.paths, lookup_append]
  rw [lookup_map_snd (fun p => false :: p), lookup_map_snd (fun p => true :: p)]

/-- A symbol has a code exactly when a leaf carries it (R141). -/
theorem Tree.code_isSome_iff (t : Tree) (y : Symbol) : (t.code y).isSome = true ↔ y ∈ t.symbols := by
  induction t with
  | leaf v => rw [Tree.code_leaf]; by_cases h : y = v <;> simp [h, Tree.symbols]
  | node l r ihl ihr => rw [Tree.code_node]; simp [Tree.symbols, ← ihl, ← ihr]

theorem Tree.code_eq_none_iff (t : Tree) (y : Symbol) : t.code y = none ↔ y ∉ t.symbols := by
  rw [← t.code_isSome_iff, Option.isSome_iff_ne_none]
  simp

theorem codeEntryOf_valid (p : List Bool) : (codeEntryOf p).valid = true := rfl

/-- What DERIVE's visit leaves in the table: every symbol of the tree has its path, every other entry is
untouched, and the visit succeeds exactly when the symbols are distinct and none had a code (R140, R141). -/
theorem deriveCodes_spec (pre : List Bool) (t : Tree) (m : CodeMem) (hm : m.wf = true) (hs : t.symsOk = true) :
    (∃ c, deriveCodes pre t m = some c ∧ t.symbols.Nodup ∧
      (∀ y ∈ t.symbols, (m.read y.toNat).valid = false) ∧
      ∀ y : Symbol, c.read y.toNat =
        match t.code y with
        | some p => codeEntryOf (pre ++ p)
        | none => m.read y.toNat) ∨
    (deriveCodes pre t m = none ∧
      ¬(t.symbols.Nodup ∧ ∀ y ∈ t.symbols, (m.read y.toNat).valid = false)) := by
  induction t generalizing pre m with
  | leaf v =>
    simp only [deriveCodes]
    cases hv : (m.read v.toNat).valid with
    | true => right; simp [Tree.symbols, hv]
    | false =>
      left
      refine ⟨m.write v.toNat (codeEntryOf pre), by simp, by simp [Tree.symbols], by simp [Tree.symbols, hv], fun y => ?_⟩
      rw [Tree.code_leaf]
      by_cases hy : y = v
      · subst hy
        simp [CodeMem.read_write_same hm]
      · have : y.toNat ≠ v.toNat := fun h => hy (BitVec.eq_of_toNat_eq h)
        simp [hy, CodeMem.read_write_other m _ this]
  | node l r ihl ihr =>
    have hs' := hs
    simp only [Tree.symsOk, Tree.symbols, List.all_append, Bool.and_eq_true] at hs'
    simp only [deriveCodes, Tree.symbols, List.nodup_append, List.mem_append]
    rcases ihl (pre ++ [false]) m hm hs'.1 with ⟨c, hc, hn, hf, hr⟩ | ⟨hc, hn⟩
    · have hcw := deriveCodes_wf hc hm hs'.1
      rw [hc]
      have hread : ∀ y ∈ r.symbols, (c.read y.toNat).valid = false ↔
          (y ∉ l.symbols ∧ (m.read y.toNat).valid = false) := by
        intro y _
        rw [hr y]
        cases hy : l.code y with
        | none => simp [(l.code_eq_none_iff y).1 hy]
        | some p =>
          have : y ∈ l.symbols := (l.code_isSome_iff y).1 (by simp [hy])
          simp [this, codeEntryOf_valid]
      rcases ihr (pre ++ [true]) c hcw hs'.2 with ⟨c', hc', hn', hf', hr'⟩ | ⟨hc', hn'⟩
      · left
        refine ⟨c', hc', ⟨hn, hn', ?_⟩, ?_, fun y => ?_⟩
        · intro a ha b hb hab
          subst hab
          exact ((hread a hb).1 (hf' a hb)).1 ha
        · rintro y (hy | hy)
          · exact hf y hy
          · exact ((hread y hy).1 (hf' y hy)).2
        · rw [hr' y, Tree.code_node]
          cases hyl : l.code y with
          | some p =>
            have hyr : r.code y = none := by
              rw [Tree.code_eq_none_iff]
              intro hyr
              exact ((hread y hyr).1 (hf' y hyr)).1 ((l.code_isSome_iff y).1 (by simp [hyl]))
            simp [hyr, hr y, hyl]
          | none =>
            cases hyr : r.code y with
            | some p => simp
            | none => simp [hr y, hyl]
      · right
        refine ⟨hc', fun h => hn' ⟨h.1.2.1, fun y hy => (hread y hy).2 ⟨fun hyl => ?_, h.2 y (.inr hy)⟩⟩⟩
        exact h.1.2.2 y hyl y hy rfl
    · right
      rw [hc]
      exact ⟨rfl, fun h => hn ⟨h.1.1, fun y hy => h.2 y (.inl hy)⟩⟩

theorem NodeMem.holds_symsOk {m : NodeMem} {i : Nat} {t : Tree} (h : m.holds i t) : t.symsOk = true := by
  induction t generalizing i with
  | leaf v => simpa [Tree.symsOk, Tree.symbols] using h.2
  | node l r ihl ihr =>
    simp only [Tree.symsOk, Tree.symbols, List.all_append, Bool.and_eq_true]
    exact ⟨ihl h.2.1, ihr h.2.2⟩

end Sys2Proof.Machine
end

