-- ==== Sys2Proof/Laws/Format.lean ====
section
/-! SUPPORT. What `headerFields` reads from the bits of a tree (spec/30_encoding.md R94): its fields, one flag for each
node and one symbol for each leaf, and then those of the bits that follow. -/

namespace Sys2Proof.Machine

/-- Inside a symbol field, the bits up to its ninth give one symbol. -/
theorem headerFields_symbol (rest : List Bool) : ∀ (more field : List Bool), more ≠ [] →
    field.length + more.length = 9 →
    headerFields (some field) (more ++ rest) =
      .symbol (BitVec.ofNat 9 (bitsValue (field ++ more))) :: headerFields none rest
  | [], _, h, _ => absurd rfl h
  | b :: more, field, _, hl => by
    simp only [List.length_cons] at hl
    simp only [List.cons_append, headerFields]
    cases more with
    | nil => simp only [List.length_nil] at hl; rw [if_neg (by omega)]; rfl
    | cons c more =>
      simp only [List.length_cons] at hl
      rw [if_pos (by omega), headerFields_symbol rest (c :: more) (field ++ [b]) (by simp)
        (by simp only [List.length_append, List.length_cons, List.length_nil]; omega)]
      simp

theorem headerFields_serialize (t : Tree) (rest : List Bool) :
    headerFields none (t.serialize ++ rest) = t.fields ++ headerFields none rest := by
  induction t generalizing rest with
  | leaf v =>
    have hv : BitVec.ofNat 9 (bitsValue (lowBits 9 v.toNat)) = v := by
      rw [bitsValue_lowBits]
      exact BitVec.eq_of_toNat_eq (by simpa using v.isLt)
    simp only [Tree.serialize, Tree.fields, List.cons_append, headerFields, if_true, List.nil_append]
    rw [headerFields_symbol rest (lowBits 9 v.toNat) [] (by simp [lowBits]) (by simp [lowBits]), List.nil_append, hv]
  | node l r ihl ihr =>
    simp [Tree.serialize, Tree.fields, headerFields, ihl, ihr]

/-- A tree has one flag for each of its nodes (R94). -/
theorem Tree.countP_fields (t : Tree) : t.fields.countP HeaderField.isFlag = t.size := by
  induction t with
  | leaf v => rfl
  | node l r ihl ihr =>
    rw [Tree.fields, List.countP_cons_of_pos rfl, List.countP_append, ihl, ihr, Tree.size]

theorem Tree.all_fields_ok (t : Tree) : t.fields.all HeaderField.ok = t.symsOk := by
  induction t with
  | leaf v => rfl
  | node l r ihl ihr => simp [Tree.fields, Tree.symsOk, Tree.symbols, HeaderField.ok, ihl, ihr]

@[simp] theorem headerFlags_serialize (t : Tree) (rest : List Bool) :
    headerFlags (t.serialize ++ rest) = t.size + headerFlags rest := by
  simp [headerFlags, headerFields_serialize, Tree.countP_fields]

@[simp] theorem headerSymsOk_serialize (t : Tree) (rest : List Bool) :
    headerSymsOk (t.serialize ++ rest) = (t.symsOk && headerSymsOk rest) := by
  simp only [headerSymsOk, headerFields_serialize, List.all_append, Tree.all_fields_ok]

end Sys2Proof.Machine
end

