-- ==== Sys2Proof/Laws/PerInstr.lean ====
section
/-! SUPPORT. One statement for every instruction, a lemma per constructor: the register an encoded instruction is
written to and whether its word is one R91 lists (spec/30_encoding.md R91, R93; spec/10_state.md R25). -/

namespace Sys2Proof.Laws.EncodedWord

/-- The default row of the opcode table (R93). -/
def isDefaultRow : Instr → Bool
  | .illegal _ => true
  | _ => false

/-- The CMD word of a well-formed instruction is one of those R91 lists, unless the instruction is the default row;
a CTRL word has bit 0 = 1 (R25). -/
def Statement (i : Instr) : Prop :=
  i.wf = true →
    match (encode i).port with
    | .cmd => legalWord (encode i).word = !isDefaultRow i
    | .ctrl => (encode i).word.getLsbD 0 = true

theorem nop : Statement .nop := fun _ => rfl
theorem ldt : Statement .ldt := fun _ => rfl
theorem stt : Statement .stt := fun _ => rfl
theorem drv : Statement .drv := fun _ => rfl
theorem ckm : Statement .ckm := fun _ => rfl
theorem wrm : Statement .wrm := fun _ => rfl
theorem enc : Statement .enc := fun _ => rfl

theorem ens (b : Byte) : Statement (.ens b) := fun _ => by
  have hb := b.isLt
  have hw : (cmdWord 0x7 (b.setWidth 9)).toNat = 16 * b.toNat + 7 := by
    have : (b.setWidth 9).toNat = b.toNat := by simp; omega
    rw [cmdWord, BitVec.toNat_append, BitVec.toNat_append, this]
    simp only [Nat.shiftLeft_eq]
    rw [Nat.mul_comm, ← Nat.two_pow_add_eq_or_of_lt (i := 4) (by omega)]
    simp [Nat.mul_comm]
  show legalWord (cmdWord 0x7 (b.setWidth 9)) = true
  simp only [legalWord, hw]
  simp
  omega

theorem ensEof : Statement .ensEof := fun _ => rfl
theorem dec : Statement .dec := fun _ => rfl
theorem rwd : Statement .rwd := fun _ => rfl

theorem srst (ignored : BitVec 31) : Statement (.srst ignored) := fun _ => by
  show (ignored ++ (1 : BitVec 1)).getLsbD 0 = true
  rw [BitVec.getLsbD_append]
  rfl

theorem illegal (w : Word32) : Statement (.illegal w) := fun h => by
  simpa [Instr.wf, encode, isDefaultRow] using h

end Sys2Proof.Laws.EncodedWord
end

