-- ==== Sys2Proof/Tests/Slice0.lean ====
section
/-! SUPPORT. Tests. Every expected value is from spec/95_test_vectors.md (V-..., P...), from the words of
spec/30_encoding.md R91 or from the rule named. Then, for every statement with hypotheses, a witness that meets
them. `MAGIC_VALUE` is the test instantiation 0xC0DEC0DE (95_test_vectors.md section 0). -/

namespace Sys2Proof.Tests

open Sys2Proof.Machine

/-! ### Well-formedness: the one check of `Instr.wf` refuses an ill-formed term -/

theorem test_wf_refuses_legal_word : (Instr.illegal 0x00000003).wf = false := by decide
theorem test_wf_refuses_ens_words :
    (Instr.illegal 0x00000007).wf = false ∧ (Instr.illegal 0x00001007).wf = false := by decide
theorem test_wf_accepts_illegal_words :
    (Instr.illegal 0x0000000A).wf = true ∧ (Instr.illegal 0x00000017).wf = false ∧
      (Instr.illegal 0x00001017).wf = true ∧ (Instr.illegal 0x00000018).wf = true := by decide

/-! ### Decoding: words written out from R91, R24, R25 -/

theorem test_decode_nop : decode ⟨.cmd, 0b00000000000000000000000000000000⟩ = .ok .nop := by decide
theorem test_decode_ldt : decode ⟨.cmd, 0b00000000000000000000000000000001⟩ = .ok .ldt := by decide
theorem test_decode_stt : decode ⟨.cmd, 0b00000000000000000000000000000010⟩ = .ok .stt := by decide
theorem test_decode_drv : decode ⟨.cmd, 0b00000000000000000000000000000011⟩ = .ok .drv := by decide
theorem test_decode_ckm : decode ⟨.cmd, 0b00000000000000000000000000000100⟩ = .ok .ckm := by decide
theorem test_decode_wrm : decode ⟨.cmd, 0b00000000000000000000000000000101⟩ = .ok .wrm := by decide
theorem test_decode_enc : decode ⟨.cmd, 0b00000000000000000000000000000110⟩ = .ok .enc := by decide
/-- SYM = w[12:4] = 0x42 and 0xFF. -/
theorem test_decode_ens :
    decode ⟨.cmd, 0b00000000000000000000010000100111⟩ = .ok (.ens 0x42) ∧
      decode ⟨.cmd, 0b00000000000000000000111111110111⟩ = .ok (.ens 0xFF) := by decide
theorem test_decode_ens_eof : decode ⟨.cmd, 0b00000000000000000001000000000111⟩ = .ok .ensEof := by decide
theorem test_decode_dec : decode ⟨.cmd, 0b00000000000000000000000000001000⟩ = .ok .dec := by decide
theorem test_decode_rwd : decode ⟨.cmd, 0b00000000000000000000000000001001⟩ = .ok .rwd := by decide
/-- Bits 31:1 of a CTRL write are ignored; bit 0 = 0 has no effect. -/
theorem test_decode_srst :
    decode ⟨.ctrl, 0x00000001⟩ = .ok (.srst 0) ∧ decode ⟨.ctrl, 0x80000001⟩ = .ok (.srst 0x40000000) ∧
      decode ⟨.ctrl, 0x00000002⟩ = .error .ctrlNoEffect := by decide
/-- The words of V-CTL-2 to V-CTL-7. -/
theorem test_decode_illegal :
    decode ⟨.cmd, 0x00001017⟩ = .ok (.illegal 0x00001017) ∧ decode ⟨.cmd, 0x0000000A⟩ = .ok (.illegal 0x0000000A) ∧
      decode ⟨.cmd, 0x0000000F⟩ = .ok (.illegal 0x0000000F) ∧ decode ⟨.cmd, 0x00000010⟩ = .ok (.illegal 0x00000010) ∧
      decode ⟨.cmd, 0x00002000⟩ = .ok (.illegal 0x00002000) ∧
      decode ⟨.cmd, 0x80000000⟩ = .ok (.illegal 0x80000000) := by decide
theorem test_encode_words :
    encode (.ens 0x42) = ⟨.cmd, 0x00000427⟩ ∧ encode .ensEof = ⟨.cmd, 0x00001007⟩ ∧
      encode (.srst 0) = ⟨.ctrl, 0x00000001⟩ := by decide
theorem test_table_words :
    decodeTableWord 32 0x00000427 = some (.ens 0x42) ∧ decodeTableWord 8 0x01 = some (.srst 0) ∧
      decodeTableWord 8 0x00 = none ∧ decodeTableWord 32 0x1017 = some (.illegal 0x1017) ∧
      decodeTableWord 33 0x01 = none := by decide

/-! ### Small states -/

/-- The bits of a string of 0 and 1. -/
def bits (l : List Nat) : List Bool := l.map (· != 0)

/-- Reset with the test's MAGIC_VALUE, on the input `input`. -/
def base (input : List Bool) : State := { State.reset with magic := 0xC0DEC0DE, input := input }

/-- `s` with the trees of 95_test_vectors.md section 0 loaded, numbered in pre-order (R40). -/
def withT0 (s : State) : State := { s with treeValid := true, nodeCount := 1, nodes := ⟨7, [(0, leafNode 256)]⟩ }
def withT1 (s : State) : State :=
  { s with treeValid := true, nodeCount := 3
           nodes := ⟨7, [(0, ⟨.internal, 0, 1, 2⟩), (1, leafNode 256), (2, leafNode 0x41)]⟩ }
def withT2 (s : State) : State :=
  { s with treeValid := true, nodeCount := 5
           nodes := ⟨7, [(0, ⟨.internal, 0, 1, 2⟩), (1, leafNode 0x41), (2, ⟨.internal, 0, 3, 4⟩),
             (3, leafNode 256), (4, leafNode 0x42)]⟩ }
def withT4 (s : State) : State :=
  { s with treeValid := true, nodeCount := 3
           nodes := ⟨7, [(0, ⟨.internal, 0, 1, 2⟩), (1, leafNode 0x41), (2, leafNode 0x41)]⟩ }

/-- T0's, T1's and T2's code tables (95_test_vectors.md section 0). -/
def withTable0 (s : State) : State := { withT0 s with tableValid := true, codes := ⟨.cleared, [(256, ⟨true, 0, 0⟩)]⟩ }
def withTable1 (s : State) : State :=
  { withT1 s with tableValid := true, codes := ⟨.cleared, [(0x41, ⟨true, 1, 1⟩), (256, ⟨true, 1, 0⟩)]⟩ }
def withTable2 (s : State) : State :=
  { withT2 s with tableValid := true
                  codes := ⟨.cleared, [(0x41, ⟨true, 1, 0⟩), (0x42, ⟨true, 2, 0b11⟩), (256, ⟨true, 2, 0b10⟩)]⟩ }

def treeT0 : Tree := .leaf 256
def treeT1 : Tree := .node (.leaf 256) (.leaf 0x41)
def treeT2 : Tree := .node (.leaf 0x41) (.node (.leaf 256) (.leaf 0x42))
def treeT3 : Tree := .node (.leaf 0x41) (.leaf 0x42)
def treeT4 : Tree := .node (.leaf 0x41) (.leaf 0x41)

/-- The engine stands at the point `p` of the command of the word `w`. -/
def at' (w : Word32) (p : Point) (s : State) : State := { s with cmdLatch := w, eng := .run p }

/-- A field of the next state. -/
def next? {α : Type} (r : Result) (f : State → α) : Option α :=
  match r with
  | .next t => some (f t)
  | _ => none

/-- STATUS, ERRCODE, NODE_COUNT, IN_BITS, OUT_BITS, SYM_COUNT and IP, as the vectors list them. -/
def vec (t : State) : List Nat :=
  [0x08, 0x0C, 0x14, 0x18, 0x1C, 0x20].map (fun offset => (t.readReg offset).toNat) ++ [t.ip]

/-! ### One step of each instruction -/

/-- V-CTL-8: a NOP after BAD_COMMAND. -/
theorem test_nop :
    next? (exec .nop ({ base [] with err := true, errCode := .badCommand }.accept 0x00000000)) vec =
      some [0x02, 0x00, 0, 0, 0, 0, 0] := by decide

/-- The last step of V-LDT-2. -/
theorem test_ldt_last_leaf :
    next? (exec .ldt (at' 1 (.ldtSym (some 0x41) 3 2 []) { withT1 (base []) with treeValid := false, nodeCount := 0 }))
      (fun t => (vec t, t.nodes.read 2)) = some ([0x0a, 0x00, 3, 0, 0, 0, 0], leafNode 0x41) := by decide

/-- R150: the right child attaches to the node on the stack; here node 2 of T1, whose flag has been read. -/
theorem test_ldt_attach :
    next? (exec .ldt (at' 1 (.ldtFlag (some 1) 2 [0] true)
        { base (bits [0, 0, 1, 0, 0, 0, 0, 0, 1]) with
          nodes := ⟨7, [(0, ⟨.internal, 0, 1, 0⟩), (1, leafNode 256)]⟩ }))
      (fun t => (t.nodes.read 0, t.eng, t.ip)) =
      some (⟨.internal, 0, 1, 2⟩, .run (.ldtSym (some 0x41) 3 2 []), 9) := by decide

/-- V-STT-1: T2's root flag is 0. -/
theorem test_stt_root :
    next? (exec .stt ((withT2 (base [])).accept 2)) (fun t => (t.out, t.readReg 0x1C)) =
      some ([false], 1) := by decide

/-- V-STT-1: the nine symbol bits of the leaf 0x41. -/
theorem test_stt_symbol :
    next? (exec .stt (at' 2 (.sttLeaf 1 [2]) (withT2 (base [])))) State.out =
      some (bits [0, 0, 1, 0, 0, 0, 0, 0, 1]) := by decide

/-- V-DRV-1: T2's code table, and another symbol's entry. -/
theorem test_drv_table :
    next? (exec .drv ((withT2 (base [])).accept 3))
      (fun t => (vec t, t.codes.read 0x41, t.codes.read 0x42, t.codes.read 256, t.codes.read 0x43)) =
      some ([0x1a, 0x00, 5, 0, 0, 0, 0], ⟨true, 1, 0⟩, ⟨true, 2, 0b11⟩, ⟨true, 2, 0b10⟩, ⟨false, 0, 0⟩) := by
  decide

/-- V-DRV-6: DUPLICATE_SYMBOL, the tree still loaded. -/
theorem test_drv_duplicate :
    next? (exec .drv ((withT4 (base [])).accept 3)) vec = some [0x0c, 0x15, 3, 0, 0, 0, 0] := by decide

/-- V-CKM-3: the first 31 bits of the magic: all consumed, the read is short. -/
theorem test_ckm_short_read :
    next? (exec .ckm ((base ((lowBits 32 0xC0DEC0DE).take 31)).accept 4)) (fun t => (t.eng, t.inBits, t.ip)) =
      some (.run (.ckmRead none), 31, 31) := by decide

/-- V-CKM-1 and V-CKM-2. -/
theorem test_ckm_compare :
    next? (exec .ckm (at' 4 (.ckmRead (some 0xC0DEC0DE)) (base []))) vec = some [0x02, 0x00, 0, 0, 0, 0, 0] ∧
      next? (exec .ckm (at' 4 (.ckmRead (some 0xC0DEC0DF)) (base []))) vec =
        some [0x04, 0x01, 0, 0, 0, 0, 0] := by decide

/-- V-WRM-1: the 32 magic bits, bit 31 first. -/
theorem test_wrm :
    next? (exec .wrm ((base []).accept 5)) (fun t => (t.out, t.readReg 0x1C)) =
      some (bits [1,1,0,0,0,0,0,0, 1,1,0,1,1,1,1,0, 1,1,0,0,0,0,0,0, 1,1,0,1,1,1,1,0], 32) := by decide

/-- V-ENC-6: 0x43 has no code under T2. -/
theorem test_enc_unencodable :
    next? (exec .enc (at' 6 (.encRead (some 0x43)) (withTable2 (base [])))) vec =
      some [0x1c, 0x04, 5, 0, 0, 0, 0] := by decide

/-- V-ENC-1: after the only bit of the code of 0x41 the byte is counted and the next 8 bits are read. -/
theorem test_enc_counts :
    next? (exec .enc (at' 6 (.encBits 0x41 1) (withTable2 (base (lowBits 8 0x42))))) (fun t => (t.eng, vec t)) =
      some (.run (.encRead (some 0x42)), [0x19, 0x00, 5, 8, 0, 1, 8]) := by decide

/-- V-ENS-1: the first bit of the code "11"; V-ENS-5: no code. -/
theorem test_ens :
    next? (exec (.ens 0x42) ((withTable2 (base [])).accept 0x427)) State.out = some [true] ∧
      next? (exec (.ens 0x43) ((withTable2 (base [])).accept 0x437)) vec =
        some [0x1c, 0x04, 5, 0, 0, 0, 0] := by decide

/-- V-ENS-6: a zero-length code finishes at once. -/
theorem test_ens_eof_zero_length :
    next? (exec .ensEof ((withTable0 (base [])).accept 0x1007)) vec = some [0x1a, 0x00, 1, 0, 0, 1, 0] := by decide

/-- V-ENS-3: the second bit of the code "10". -/
theorem test_ens_eof_second_bit :
    next? (exec .ensEof (at' 0x1007 (.ensBits 1) (withTable2 (base [])))) (fun t => (t.out, t.eng)) =
      some ([false], .run (.ensBits 2)) := by decide

/-- V-CTL-12: the step that emits a byte does not yet count it. -/
theorem test_dec_emits :
    next? (exec .dec (at' 8 (.decRead (some 1)) { withT1 (base []) with cur := 2 })) (fun t => (t.out, vec t)) =
      some (bits [0, 1, 0, 0, 0, 0, 0, 1], [0x09, 0x00, 3, 0, 8, 0, 0]) := by decide

/-- V-DEC-2: EXH at the EOF leaf finishes; V-DEC-3: EXH at a data leaf is TRUNCATED_STREAM. -/
theorem test_dec_exhausted :
    next? (exec .dec (at' 8 (.decRead none) { withT1 (base []) with cur := 1 })) vec =
        some [0x0a, 0x00, 3, 0, 0, 0, 0] ∧
      next? (exec .dec (at' 8 (.decRead none) { withT1 (base []) with cur := 2 })) vec =
        some [0x0c, 0x03, 3, 0, 0, 0, 0] := by decide

/-- V-CTL-9: RWD sets IP to 0. -/
theorem test_rwd :
    next? (exec .rwd ({ base (bits [1, 1, 1]) with ip := 3 }.accept 9)) (fun t => (t.ip, t.inBits)) =
      some (0, 0) := by decide

/-- V-CTL-13: a soft reset in the middle of a DECODE. -/
theorem test_srst :
    next? (exec (.srst 0) (at' 8 (.decWritten 1) { withT1 (base (bits [1, 1])) with ip := 2, ovr := true, out := [true] }))
      (fun t => (vec t, t.out)) = some ([0x00, 0x00, 0, 0, 0, 0, 2], [true]) := by decide

/-- V-CTL-2 and V-CTL-5. -/
theorem test_illegal :
    next? (exec (.illegal 0x1017) ((base []).accept 0x1017)) vec = some [0x04, 0x10, 0, 0, 0, 0, 0] ∧
      next? (engineTurn ((base []).accept 0x10)) vec = some [0x04, 0x10, 0, 0, 0, 0, 0] := by decide

/-! ### The host's side, the interface, the formats -/

/-- V-CTL-11: STATUS and the counters after DEC's first step, and OVR after a CMD write while BUSY. -/
theorem test_overrun :
    next? (exec .dec ((withT1 (base [true])).accept 8)) vec = some [0x09, 0x00, 3, 1, 0, 0, 1] ∧
      next? (takeMove (.write 32 0 0) ((withT1 (base [])).accept 8)) vec = some [0x29, 0x00, 3, 0, 0, 0, 0] := by
  decide

/-- The table's rows as the first instruction after reset: WRM appends 32 bits, SRST leaves STATUS 0. -/
theorem test_fetch :
    next? (step (State.reset.withFetchWord 32 5)) (fun t => (t.out.length, t.readReg 0x08)) = some (32, 0x01) ∧
      next? (step ((withT1 State.reset).withFetchWord 8 1)) (fun t => t.readReg 0x08) = some 0x00 := by decide

/-- P5's lines (R99): a comment, a hexadecimal operand, EOF. -/
theorem test_assembler :
    parseProgram ['L', 'D', 'T', ' ', ';', 'x', '\n', 'E', 'N', 'S', ' ', '0', 'x', '4', '2', '\n',
      'E', 'N', 'S', ' ', 'E', 'O', 'F', '\n', 'E', 'N', 'S', ' ', '2', '5', '6'] =
      some [.instr .ldt, .instr (.ens 0x42), .instr .ensEof, .instr .ensEof] ∧
    parseProgram ['E', 'N', 'S', ' ', '2', '5', '7'] = none := by decide

/-- P2: the packed output file. -/
theorem test_file :
    packBits (fun _ => false) (fileBits 0xC0DEC0DE treeT2 (bits [0, 1, 1, 0, 1, 0])) =
      [0xC0, 0xDE, 0xC0, 0xDE, 0x48, 0x2C, 0x02, 0x42, 0x68] := by decide

/-- V-ENC-1: T2's payload for 41 42 41. -/
theorem test_payload : treeT2.payload [0x41, 0x42, 0x41] = some (bits [0, 1, 1, 0, 1, 0]) := by decide

/-! ### Witnesses: a state and operands that meet the hypotheses of each statement, one for each clause -/

/-- A machine that is running its DECODE: T1 loaded and its table derived, CUR at the leaf 0x41. -/
def decodingT1 : State := at' 8 (.decRead (some 1)) { withTable1 (base (bits [1, 1])) with ip := 2, cur := 2 }

/-- A machine after a NOP that dropped a command: no tree, not the reset state. -/
def idleNoTree : State := { base [true] with done := true, ovr := true, ip := 1 }

theorem holds_T0 (s : State) : (withT0 s).hasTree treeT0 := ⟨rfl, rfl, by decide, rfl, by decide⟩

theorem holds_T1 (s : State) : (withT1 s).hasTree treeT1 :=
  ⟨rfl, rfl, by decide, rfl, ⟨rfl, by decide⟩, rfl, by decide⟩

theorem holds_T2 (s : State) : (withT2 s).hasTree treeT2 :=
  ⟨rfl, rfl, by decide, rfl, ⟨rfl, by decide⟩, rfl, ⟨rfl, by decide⟩, rfl, by decide⟩

theorem holds_T4 (s : State) : (withT4 s).hasTree treeT4 :=
  ⟨rfl, rfl, by decide, rfl, ⟨rfl, by decide⟩, rfl, by decide⟩

theorem table_T1 (s : State) : (withTable1 s).hasTable treeT1 := by
  refine ⟨by decide, fun y _ => ?_⟩
  by_cases h1 : y = 0x41
  · subst h1; rfl
  by_cases h2 : y = 256
  · subst h2; rfl
  have e1 : y.toNat ≠ 0x41 := fun h => h1 (BitVec.eq_of_toNat_eq h)
  have b1 : (y == 65#9) = false := beq_false_of_ne h1
  have e2 : y.toNat ≠ 256 := fun h => h2 (BitVec.eq_of_toNat_eq h)
  have b2 : (y == 256#9) = false := beq_false_of_ne h2
  simp [withTable1, CodeMem.read, cellsGet, e1, e2, CodeBase.entry, Tree.codeEntry, Tree.code, Tree.paths, treeT1,
    List.lookup, b1, b2]

theorem table_T2 (s : State) : (withTable2 s).hasTable treeT2 := by
  refine ⟨by decide, fun y _ => ?_⟩
  by_cases h1 : y = 0x41
  · subst h1; rfl
  by_cases h2 : y = 256
  · subst h2; rfl
  by_cases h3 : y = 0x42
  · subst h3; rfl
  have e1 : y.toNat ≠ 0x41 := fun h => h1 (BitVec.eq_of_toNat_eq h)
  have b1 : (y == 65#9) = false := beq_false_of_ne h1
  have e2 : y.toNat ≠ 256 := fun h => h2 (BitVec.eq_of_toNat_eq h)
  have b2 : (y == 256#9) = false := beq_false_of_ne h2
  have e3 : y.toNat ≠ 0x42 := fun h => h3 (BitVec.eq_of_toNat_eq h)
  have b3 : (y == 66#9) = false := beq_false_of_ne h3
  simp [withTable2, CodeMem.read, cellsGet, e1, e2, e3, CodeBase.entry, Tree.codeEntry, Tree.code, Tree.paths, treeT2,
    List.lookup, b1, b2, b3]

theorem inv_decodingT1 : Inv decodingT1 where
  regs := ⟨by decide, by decide, by decide, fun _ => by decide, by decide, fun _ => rfl⟩
  mem := by decide
  count := by decide
  tree := fun _ => ⟨treeT1, holds_T1 (base []), fun _ => table_T1 (base [])⟩
  point := fun p hp => by
    cases hp
    refine ⟨rfl, rfl, ⟨.leaf 0x41, ⟨rfl, by decide⟩, by decide⟩, fun h => ?_⟩
    exact absurd h (by decide)

theorem inv_idleNoTree : Inv idleNoTree where
  regs := ⟨by decide, by decide, by decide, fun h => absurd h (by decide), by decide, fun h => absurd h (by decide)⟩
  mem := by decide
  count := by decide
  tree := fun h => absurd h (by decide)
  point := fun p hp => by cases hp

theorem witness_ResetClearsRegistersKeepsStreams : (0x08 ≠ 0x10) ∧ (0x20 ≠ 0x10) := by decide

theorem witness_PowerOnRegisters : (0x08 ≠ 0x10) ∧ (0x20 ≠ 0x10) := by decide

theorem witness_RegisterMapReads : ErrCode.badCommand.code = ErrCode.badCommand.code := rfl

theorem witness_DecodeEncode :
    (Instr.ens 0xFF).wf = true ∧ (Instr.srst 0x7FFFFFFF).wf = true ∧ (Instr.illegal 0x00001017).wf = true := by
  decide

theorem witness_EncodeDecode :
    decode ⟨.cmd, 0x00000FF7⟩ = .ok (.ens 0xFF) ∧ decode ⟨.ctrl, 0xFFFFFFFF⟩ = .ok (.srst 0x7FFFFFFF) := by decide

/-- The four tests of R93 at their boundaries, and a word none of them refuses. -/
theorem witness_IllegalWordRaisesBadCommand :
    ∃ s : State, s.eng = .run .start ∧ s.cmdLatch = 0x00002000 ∧ decodeCmd 0x00002000 = .illegal 0x00002000 ∧
      decodeCmd 0x0000000A = .illegal 0x0000000A ∧ decodeCmd 0x00000010 = .illegal 0x00000010 ∧
      decodeCmd 0x00001017 = .illegal 0x00001017 ∧ decodeCmd 0x00001007 ≠ .illegal 0x00001007 :=
  ⟨(base []).accept 0x00002000, rfl, rfl, by decide⟩

theorem witness_AcceptanceStartsCommand : idleNoTree.busy = false := rfl
theorem witness_OverrunDropsWrite : decodingT1.busy = true := rfl

/-- No move, a dropped CMD write, an accepted one, a soft reset. -/
theorem witness_OverrunFlagIsSticky :
    (∃ t, step decodingT1 = .next t) ∧ (∃ t, step { decodingT1 with agenda := [.write 32 0 0] } = .next t) ∧
      (∃ t, step { idleNoTree with agenda := [.write 32 0 0] } = .next t) ∧
      (∃ t, step { idleNoTree with agenda := [.write 32 4 1] } = .next t) :=
  ⟨⟨_, rfl⟩, ⟨_, rfl⟩, ⟨_, rfl⟩, ⟨_, rfl⟩⟩

theorem witness_StatusWordLayout : 6 ≤ 31 ∧ decodingT1.busy = true ∧ idleNoTree.busy = false := by decide

/-- The first read-only register, the last one, and the reserved offsets' two ends. -/
theorem witness_ReservedOffsetsAndReads :
    (0x00 % 4 = 0 ∧ 0x00 < 256) ∧ (0x08 % 4 = 0 ∧ 0x08 < 256 ∧ 0x08 ≤ 0x08) ∧
      (0x20 % 4 = 0 ∧ 0x20 < 256 ∧ 0x08 ≤ 0x20) ∧ (0x24 % 4 = 0 ∧ 0x24 < 256 ∧ 0x24 ≤ 0x24) ∧
      (0xFC % 4 = 0 ∧ 0xFC < 256 ∧ 0x24 ≤ 0xFC) := by decide

theorem witness_OddHostAccessRefused : (16 ≠ 32) ∧ (0x01 % 4 ≠ 0) ∧ (256 ≤ 0x100) := by decide

theorem witness_ControlWrite :
    (0xFFFFFFFE : Word32).getLsbD 0 = false ∧ (0x00000001 : Word32).getLsbD 0 = true := by decide

theorem witness_ProgramLineWaits : decodingT1.busy = true ∧ idleNoTree.busy = false := by decide

theorem witness_StepRunsDecodedInstruction :
    (decodingT1.agenda = [] ∧ decodingT1.eng = .run (.decRead (some 1))) ∧
      ({ decodingT1 with agenda := [.engine] }.agenda = .engine :: [] ∧
        { decodingT1 with agenda := [.engine] }.eng = .run (.decRead (some 1))) ∧
      ({ decodingT1 with agenda := [.write 32 0x04 1] }.agenda = .write 32 0x04 1 :: [] ∧
        decode ⟨.ctrl, 1⟩ = .ok (.srst 0)) ∧
      (idleNoTree.eng = .idle ∧ idleNoTree.agenda = []) := by decide

/-- Two bits are left: a read of 2 returns them, a read of 3 does not. -/
theorem witness_ReadBitsContract :
    ∃ s : State, s.ip ≤ s.input.length ∧ 2 ≤ s.input.length - s.ip ∧ s.input.length - s.ip < 3 :=
  ⟨{ base (bits [0, 1, 1]) with ip := 1 }, by decide⟩

theorem witness_ByteReadsBack : (base (bitsOfBytes [0xA5, 0x3C] ++ [true])).unread =
    bitsOfBytes (0xA5 :: [0x3C]) ++ [true] := by decide

theorem witness_InputFixedOutputGrows : ∃ t, step decodingT1 = .next t := ⟨_, rfl⟩

theorem witness_NopFinishes : { base [] with err := true, errCode := .truncatedStream }.busy = false := rfl

theorem witness_RewindSetsCursor : Started .rwd (idleNoTree.accept 9) := ⟨rfl, by decide⟩

/-- The magic, and 31 bits of it. -/
theorem witness_CheckMagicResult :
    (∃ s : State, Started .ckm s ∧ s.ip ≤ s.input.length ∧ s.unread.take 32 = lowBits 32 s.magic.toNat) ∧
      (∃ s : State, Started .ckm s ∧ s.ip ≤ s.input.length ∧ s.unread.take 32 ≠ lowBits 32 s.magic.toNat) :=
  ⟨⟨(base (lowBits 32 0xC0DEC0DE)).accept 4, ⟨rfl, by decide⟩, by decide, by decide⟩,
    ⟨(base ((lowBits 32 0xC0DEC0DE).take 31)).accept 4, ⟨rfl, by decide⟩, by decide, by decide⟩⟩

theorem witness_WriteMagicResult : Started .wrm (idleNoTree.accept 5) := ⟨rfl, by decide⟩

theorem witness_LoadTreeBegins : ((withTable1 (base [])).accept 1).eng = .run .start := rfl

theorem witness_LoadTreeLoadsSerializedTree :
    ∃ s : State, Started .ldt s ∧ s.ip ≤ s.input.length ∧ s.unread = treeT2.serialize ++ [true] ∧
      treeT2.symsOk = true ∧ treeT2.size ≤ Config.nodeCap :=
  ⟨(base (treeT2.serialize ++ [true])).accept 1, ⟨rfl, by decide⟩, by decide, by decide, by decide, by decide⟩

/-- A tree of `2 n + 1` nodes: `n` internal nodes, each the left child of the one before (V-LDT-11). -/
def comb : Nat → Tree
  | 0 => .leaf 0
  | n + 1 => .node (comb n) (.leaf 0)

theorem comb_serialize (n : Nat) :
    ∃ rest, (comb n).serialize = List.replicate n false ++ true :: rest := by
  induction n with
  | zero => exact ⟨_, rfl⟩
  | succ n ih =>
    obtain ⟨rest, h⟩ := ih
    exact ⟨rest ++ (Tree.leaf 0).serialize, by simp [comb, Tree.serialize, h, List.replicate_succ]⟩

theorem headerFields_zeros (n : Nat) (rest : List Bool) :
    headerFields none (List.replicate n false ++ rest) = List.replicate n (.flag false) ++ headerFields none rest := by
  induction n with
  | zero => rfl
  | succ n ih => simp [List.replicate_succ, headerFields, ih]

theorem headerFlags_zeros (n : Nat) (rest : List Bool) :
    headerFlags (List.replicate n false ++ rest) = n + headerFlags rest := by
  have h : (List.replicate n (HeaderField.flag false)).countP HeaderField.isFlag = n := by
    rw [List.countP_replicate]; rfl
  simp [headerFlags, headerFields_zeros, h]

theorem headerSymsOk_zeros (n : Nat) (rest : List Bool) :
    headerSymsOk (List.replicate n false ++ rest) = headerSymsOk rest := by
  have h : (HeaderField.flag false).ok = true := rfl
  simp [headerSymsOk, headerFields_zeros, h]

/-- V-LDT-7, the right child is missing; a symbol field cut after eight bits of value 1, which no symbol of 0..256
completes; and 513 zero bits, which no tree of 513 nodes completes. -/
theorem witness_LoadTreeTruncated :
    (∃ (s : State) (missing : List Bool), Started .ldt s ∧ s.ip ≤ s.input.length ∧
      s.unread ++ missing = treeT3.serialize ∧ missing ≠ [] ∧ headerSymsOk s.unread = true ∧
      headerFlags s.unread ≤ Config.nodeCap) ∧
    (∃ s : State, Started .ldt s ∧ s.ip ≤ s.input.length ∧
      s.unread ++ [true] = (Tree.leaf 511).serialize ∧ headerSymsOk s.unread = true ∧
      headerFlags s.unread ≤ Config.nodeCap) ∧
    (∃ (s : State) (missing : List Bool), Started .ldt s ∧ s.ip ≤ s.input.length ∧
      s.unread ++ missing = (comb 513).serialize ∧ missing ≠ [] ∧ headerSymsOk s.unread = true ∧
      headerFlags s.unread = Config.nodeCap) := by
  obtain ⟨rest, h⟩ := comb_serialize 513
  refine ⟨⟨(base (treeT3.serialize.take 11)).accept 1, treeT3.serialize.drop 11, ⟨rfl, by decide⟩, by decide,
    by decide, by decide, by decide, by decide⟩, ⟨(base (bits [1, 1, 1, 1, 1, 1, 1, 1, 1])).accept 1,
    ⟨rfl, by decide⟩, by decide, by decide, by decide, by decide⟩,
    ⟨(base (List.replicate 513 false)).accept 1, true :: rest, ⟨rfl, rfl⟩, Nat.zero_le _, h.symm, by simp, ?_, ?_⟩⟩
  · have := headerSymsOk_zeros 513 []
    rwa [List.append_nil] at this
  · have := headerFlags_zeros 513 []
    rwa [List.append_nil] at this

/-- 513 zero bits and then a flag of either value: with the rest of the header, and with nothing after it. -/
theorem witness_LoadTreeOverCapacity :
    (∃ (s : State) (rest : List Bool), Started .ldt s ∧ s.ip ≤ s.input.length ∧
      s.unread = List.replicate 513 false ++ true :: rest ∧
      List.replicate 513 false ++ [true] <+: (comb 513).serialize ∧
      headerSymsOk (List.replicate 513 false) = true ∧ headerFlags (List.replicate 513 false) = Config.nodeCap ∧
      headerFlags (List.replicate 513 false ++ [true]) = Config.nodeCap + 1) ∧
    (∃ s : State, Started .ldt s ∧ s.ip ≤ s.input.length ∧
      s.unread = List.replicate 513 false ++ false :: [] ∧
      List.replicate 513 false ++ [false] <+: (comb 514).serialize ∧
      headerSymsOk (List.replicate 513 false) = true ∧ headerFlags (List.replicate 513 false) = Config.nodeCap ∧
      headerFlags (List.replicate 513 false ++ [false]) = Config.nodeCap + 1) := by
  obtain ⟨rest, h⟩ := comb_serialize 513
  obtain ⟨rest', h'⟩ := comb_serialize 514
  have hs := headerSymsOk_zeros 513 []
  have hf := headerFlags_zeros 513 []
  rw [List.append_nil] at hs hf
  refine ⟨⟨(base (comb 513).serialize).accept 1, rest, ⟨rfl, rfl⟩, Nat.zero_le _, h, ⟨rest, ?_⟩, hs, hf,
    headerFlags_zeros 513 [true]⟩, ⟨(base (List.replicate 513 false ++ [false])).accept 1, ⟨rfl, rfl⟩, Nat.zero_le _,
    rfl, ⟨true :: rest', ?_⟩, hs, hf, headerFlags_zeros 513 [false]⟩⟩
  · rw [h, List.append_assoc]; rfl
  · rw [h', List.replicate_succ' (n := 513)]

/-- The four tests; the symbol 257, and a 514th node's flag of either value. -/
theorem witness_LoadTreeErrors :
    (at' 1 (.ldtFlag none 0 [] false) (base [])).eng = .run (.ldtFlag none 0 [] false) ∧
      ((at' 1 (.ldtFlag (some 0) 513 [0] true) (base [])).eng = .run (.ldtFlag (some 0) 513 [0] true) ∧
        (513 : NodeIx).toNat = 513) ∧
      (at' 1 (.ldtFlag (some 1) 513 [0] true) (base [])).eng = .run (.ldtFlag (some 1) 513 [0] true) ∧
      (at' 1 (.ldtSym none 1 0 []) (base [])).eng = .run (.ldtSym none 1 0 []) ∧
      ((at' 1 (.ldtSym (some 257) 1 0 []) (base [])).eng = .run (.ldtSym (some 257) 1 0 []) ∧
        256 < (257 : Symbol).toNat) := by decide

theorem witness_StoreTreeAppendsSerializedTree :
    ∃ s : State, Started .stt s ∧ s.hasTree treeT2 :=
  ⟨(withT2 (base [])).accept 2, ⟨rfl, by decide⟩, holds_T2 ((base []).accept 2)⟩

theorem witness_HeaderRoundTrip :
    ∃ s : State, Started .ldt s ∧ s.ip ≤ s.input.length ∧ s.unread = treeT0.serialize ++ [] ∧
      treeT0.symsOk = true ∧ treeT0.size ≤ Config.nodeCap :=
  ⟨(base treeT0.serialize).accept 1, ⟨rfl, by decide⟩, by decide, by decide, by decide, by decide⟩

theorem witness_SerializedTreeGrammar : treeT1.serialize ++ [true] = treeT1.serialize ++ [true] := rfl

theorem witness_DeriveBuildsTable :
    ∃ s : State, Started .drv s ∧ s.hasTree treeT2 ∧ treeT2.symbols.Nodup :=
  ⟨(withT2 (base [])).accept 3, ⟨rfl, by decide⟩, holds_T2 ((base []).accept 3), by decide⟩

theorem witness_DeriveDuplicateSymbol :
    ∃ s : State, Started .drv s ∧ s.hasTree treeT4 ∧ ¬treeT4.symbols.Nodup :=
  ⟨(withT4 (base [])).accept 3, ⟨rfl, by decide⟩, holds_T4 ((base []).accept 3), by decide⟩

theorem witness_DeriveZeroLengthCode :
    ∃ s : State, Started .drv s ∧ s.treeValid = true ∧ s.nodeCount = 1 ∧ (256 : Symbol) ≤ Config.eofSym ∧
      s.nodes.read 0 = leafNode 256 :=
  ⟨(withT0 (base [])).accept 3, ⟨rfl, by decide⟩, rfl, rfl, by decide, rfl⟩

theorem witness_CodesArePrefixFree :
    treeT2.code 256 = some (bits [1, 0]) ∧ treeT2.code 0x42 = some (bits [1, 1]) ∧ (256 : Symbol) ≠ 0x42 := by decide

/-- A code of two bits and one of none. -/
theorem witness_CodeTableHoldsCodes :
    (treeT2.size ≤ Config.nodeCap ∧ treeT2.code 0x42 = some (bits [1, 1])) ∧
      (treeT0.size ≤ Config.nodeCap ∧ treeT0.code 256 = some []) := by decide

theorem witness_EncodeSymAppendsCode :
    (∃ s : State, EncodesSymbol (.ens 0x42) 0x42 ∧ Started (.ens 0x42) s ∧ s.tableValid = true ∧
      s.codes.read 0x42 = ⟨true, 2, 0b11⟩) ∧
    (∃ s : State, EncodesSymbol .ensEof 256 ∧ Started .ensEof s ∧ s.tableValid = true ∧
      s.codes.read 256 = ⟨true, 0, 0⟩) :=
  ⟨⟨(withTable2 (base [])).accept 0x427, .inl ⟨0x42, rfl, rfl⟩, ⟨rfl, by decide⟩, rfl, rfl⟩,
    ⟨(withTable0 (base [])).accept 0x1007, .inr ⟨rfl, rfl⟩, ⟨rfl, by decide⟩, rfl, rfl⟩⟩

/-- V-ENC-3. -/
theorem witness_EncodeAppendsPayload :
    ∃ s : State, Started .enc s ∧ s.tableValid = true ∧ s.hasTree treeT2 ∧ s.hasTable treeT2 ∧
      s.ip ≤ s.input.length ∧ s.unread = bitsOfBytes [0x42] ++ bits [1, 0, 1] ∧ (bits [1, 0, 1]).length < 8 ∧
      treeT2.payload [0x42] = some (bits [1, 1, 1, 0]) :=
  ⟨(withTable2 (base (bitsOfBytes [0x42] ++ bits [1, 0, 1]))).accept 6, ⟨rfl, by decide⟩, rfl, holds_T2 (base []),
    table_T2 (base []), by decide, by decide, by decide, by decide⟩

/-- V-ENC-6 for the first clause; for the second a table with no EOF code and one bit of input left. -/
theorem witness_EncodeUnencodable :
    (∃ s : State, Started .enc s ∧ s.tableValid = true ∧ s.hasTree treeT2 ∧ s.hasTable treeT2 ∧
      s.ip ≤ s.input.length ∧ s.unread = bitsOfBytes [0x41] ++ (bitsOfBytes [0x43] ++ bitsOfBytes [0x41]) ∧
      treeT2.codesOf ([0x41].map symbolOfByte) = some [false] ∧ treeT2.code (symbolOfByte 0x43) = none) ∧
    (∃ s : State, Started .enc s ∧ s.tableValid = true ∧ s.hasTree (.leaf 0x41) ∧ s.hasTable (.leaf 0x41) ∧
      s.ip ≤ s.input.length ∧ s.unread = bitsOfBytes [] ++ bits [1] ∧
      (Tree.leaf 0x41).codesOf [] = some [] ∧ (bits [1]).length < 8 ∧ (Tree.leaf 0x41).code Config.eofSym = none) := by
  refine ⟨⟨(withTable2 (base (bitsOfBytes [0x41, 0x43, 0x41]))).accept 6, ⟨rfl, by decide⟩, rfl, holds_T2 (base []),
    table_T2 (base []), by decide, by decide, by decide, by decide⟩, ⟨{ base [true] with
      treeValid := true, tableValid := true, nodeCount := 1, nodes := ⟨7, [(0, leafNode 0x41)]⟩
      codes := ⟨.cleared, [(0x41, ⟨true, 0, 0⟩)]⟩ }.accept 6, ⟨rfl, by decide⟩, rfl,
      ⟨rfl, rfl, by decide, rfl, by decide⟩, ⟨by decide, fun y _ => ?_⟩, by decide, by decide, by decide, by decide,
      by decide⟩⟩
  by_cases h1 : y = 0x41
  · subst h1; rfl
  have e1 : y.toNat ≠ 0x41 := fun h => h1 (BitVec.eq_of_toNat_eq h)
  have b1 : (y == 65#9) = false := beq_false_of_ne h1
  show CodeMem.read ⟨.cleared, [(0x41, ⟨true, 0, 0⟩)]⟩ y.toNat = (Tree.leaf 0x41).codeEntry y
  simp [CodeMem.read, cellsGet, e1, CodeBase.entry, Tree.codeEntry, Tree.code, Tree.paths, List.lookup, b1]

/-- No table, for ENC and for ENS EOF; no code for 0x43. -/
theorem witness_EncodersRaise :
    (((base []).accept 6).eng = .run .start ∧ ((base []).accept 6).tableValid = false) ∧
      (EncodesSymbol (.ens 0x43) 0x43 ∧ ((withTable2 (base [])).accept 0x437).eng = .run .start ∧
        ((withTable2 (base [])).accept 0x437).tableValid = true ∧
        (((withTable2 (base [])).accept 0x437).codes.read 0x43).valid = false) ∧
      (EncodesSymbol .ensEof 256 ∧ ((base []).accept 0x1007).tableValid = false) :=
  ⟨⟨rfl, rfl⟩, ⟨.inl ⟨0x43, rfl, rfl⟩, rfl, rfl, rfl⟩, ⟨.inr ⟨rfl, rfl⟩, rfl⟩⟩

/-- V-DEC-2 (nothing follows the EOF code) and V-DEC-1 (pad bits follow). -/
theorem witness_DecodeEmitsData :
    (∃ s : State, Started .dec s ∧ s.hasTree treeT2 ∧ s.ip ≤ s.input.length ∧
      treeT2.payload [0x41, 0x42, 0x41] = some (bits [0, 1, 1, 0, 1, 0]) ∧
      s.unread = bits [0, 1, 1, 0, 1, 0] ++ []) ∧
    (∃ s : State, Started .dec s ∧ s.hasTree treeT1 ∧ s.ip ≤ s.input.length ∧
      treeT1.payload [0x41, 0x41, 0x41] = some (bits [1, 1, 1, 0]) ∧ s.unread = bits [1, 1, 1, 0] ++ bits [0, 0]) :=
  ⟨⟨(withT2 (base (bits [0, 1, 1, 0, 1, 0]))).accept 8, ⟨rfl, by decide⟩, holds_T2 ((base _).accept 8), by decide,
      by decide, by decide⟩,
    ⟨(withT1 (base (bits [1, 1, 1, 0, 0, 0]))).accept 8, ⟨rfl, by decide⟩, holds_T1 ((base _).accept 8), by decide,
      by decide, by decide⟩⟩

/-- V-DEC-3. -/
theorem witness_DecodeTruncated :
    ∃ s : State, Started .dec s ∧ s.hasTree treeT2 ∧ s.ip ≤ s.input.length ∧
      treeT2.payload [0x41, 0x42, 0x41] = some (s.unread ++ bits [0, 1, 0]) ∧ bits [0, 1, 0] ≠ [] :=
  ⟨(withT2 (base (bits [0, 1, 1]))).accept 8, ⟨rfl, by decide⟩, holds_T2 ((base _).accept 8), by decide, by decide,
    by decide⟩

/-- CUR at T1's EOF leaf with a bit and with EXH; CUR at its data leaf with EXH. -/
theorem witness_DecodeEofBeforeExhaustion :
    (∃ s : State, s.eng = .run (.decRead none) ∧ s.cur.toNat < 513 ∧ nodeIsEof (s.nodes.read s.cur.toNat) = true) ∧
      (∃ s : State, s.eng = .run (.decRead (some 1)) ∧ s.cur.toNat < 513 ∧
        nodeIsEof (s.nodes.read s.cur.toNat) = true) ∧
      (∃ s : State, s.eng = .run (.decRead none) ∧ s.cur.toNat < 513 ∧
        nodeIsEof (s.nodes.read s.cur.toNat) = false) :=
  ⟨⟨at' 8 (.decRead none) { withT1 (base []) with cur := 1 }, rfl, by decide, by decide⟩,
    ⟨at' 8 (.decRead (some 1)) { withT1 (base []) with cur := 1 }, rfl, by decide, by decide⟩,
    ⟨at' 8 (.decRead none) { withT1 (base []) with cur := 2 }, rfl, by decide, by decide⟩⟩

/-- No tree; V-DEC-13's root leaf 0x41. -/
theorem witness_TreeReadersRaise :
    (((base []).accept 3).eng = .run .start ∧ ((base []).accept 3).treeValid = false) ∧
      (∃ s : State, s.eng = .run .start ∧ s.treeValid = true ∧ (s.nodes.read 0).kind = .leaf ∧
        (s.nodes.read 0).sym ≠ 256) :=
  ⟨⟨rfl, rfl⟩, ⟨{ base [] with treeValid := true, nodeCount := 1, nodes := ⟨7, [(0, leafNode 0x41)]⟩ }.accept 8,
    rfl, rfl, rfl, by decide⟩⟩

theorem witness_FrameControlAndCheckMagic :
    (∃ t, exec .nop (idleNoTree.accept 0) = .next t) ∧ (∃ t, exec (.illegal 10) (idleNoTree.accept 10) = .next t) ∧
      (∃ t, exec .rwd (idleNoTree.accept 9) = .next t) ∧ (∃ t, exec .ckm (idleNoTree.accept 4) = .next t) :=
  ⟨⟨_, rfl⟩, ⟨_, rfl⟩, ⟨_, rfl⟩, ⟨_, rfl⟩⟩

theorem witness_FrameWriters :
    (∃ t, exec .wrm (idleNoTree.accept 5) = .next t) ∧ (∃ t, exec .stt ((withT1 idleNoTree).accept 2) = .next t) ∧
      (∃ t, exec (.ens 0x41) ((withTable1 idleNoTree).accept 0x417) = .next t) ∧
      (∃ t, exec .ensEof ((withTable0 idleNoTree).accept 0x1007) = .next t) :=
  ⟨⟨_, rfl⟩, ⟨_, rfl⟩, ⟨_, rfl⟩, ⟨_, rfl⟩⟩

theorem witness_FrameEncodeDecode :
    (∃ t, exec .enc ((withTable1 idleNoTree).accept 6) = .next t) ∧ (∃ t, exec .dec decodingT1 = .next t) :=
  ⟨⟨_, rfl⟩, ⟨_, rfl⟩⟩

theorem witness_FrameDerive : ∃ t, exec .drv ((withT1 idleNoTree).accept 3) = .next t := ⟨_, rfl⟩

/-- A step that stores to two entries, and one that ends LOAD_TREE. -/
theorem witness_FrameLoadTree :
    (∃ t, exec .ldt (at' 1 (.ldtFlag (some 0) 2 [0] true)
        { base [true] with nodes := ⟨7, [(0, ⟨.internal, 0, 1, 0⟩), (1, leafNode 256)]⟩ }) = .next t ∧
      t.eng ≠ .idle ∧ 1 ∉ ldtStores (.ldtFlag (some 0) 2 [0] true)) ∧
    (∃ t, exec .ldt (at' 1 (.ldtSym (some 256) 1 0 []) (base [])) = .next t ∧ t.eng = .idle ∧ t.treeValid = true ∧
      (at' 1 (.ldtSym (some 256) 1 0 []) (base [])).treeValid = false ∧ 1 ∉ ldtStores (.ldtSym (some 256) 1 0 [])) :=
  ⟨⟨_, rfl, by decide, by decide⟩, ⟨_, rfl, rfl, rfl, rfl, by decide⟩⟩

/-- A DECODE step with no move, and a host read while IDLE. -/
theorem witness_TreeAndTableOwners :
    ((∃ t, step decodingT1 = .next t) ∧ ∀ p, decodingT1.eng = .run p →
      decodeCmd decodingT1.cmdLatch ≠ .ldt ∧ decodeCmd decodingT1.cmdLatch ≠ .drv) ∧
    ((∃ t, step { idleNoTree with agenda := [.read 32 0x08] } = .next t) ∧ (Move.read 32 0x08).resets = false ∧
      ∀ p, idleNoTree.eng = .run p → decodeCmd idleNoTree.cmdLatch ≠ .ldt) :=
  ⟨⟨⟨_, rfl⟩, fun _ _ => by decide⟩, ⟨_, rfl⟩, rfl, fun p h => by cases h⟩

theorem witness_CommandEndsDoneOrErr :
    RegInv decodingT1 ∧ decodingT1.eng = .run (.decRead (some 1)) ∧ ∃ t, engineTurn decodingT1 = .next t :=
  ⟨inv_decodingT1.regs, rfl, _, rfl⟩

theorem witness_EveryCommandEnds : Inv decodingT1 := inv_decodingT1

theorem witness_StepKeepsRegisterRules : RegInv decodingT1 ∧ ∃ t, step decodingT1 = .next t :=
  ⟨inv_decodingT1.regs, _, rfl⟩

theorem witness_StepKeepsMachineInvariant : Inv decodingT1 ∧ ∃ t, step decodingT1 = .next t :=
  ⟨inv_decodingT1, _, rfl⟩

/-- One state that steps and one whose next move is a refused host access. -/
theorem witness_StepNeverFaults :
    (Inv decodingT1 ∧ ∃ t, step decodingT1 = .next t) ∧
      (∃ s, Inv s ∧ step s = .refused .hostAccess ∧ s.agenda = [.read 32 0x100]) :=
  ⟨⟨inv_decodingT1, _, rfl⟩, { decodingT1 with agenda := [.read 32 0x100] },
    { regs := ⟨by decide, by decide, by decide, fun _ => by decide, by decide, fun _ => rfl⟩
      mem := by decide
      count := by decide
      tree := fun _ => ⟨treeT1, holds_T1 (base []), fun _ => table_T1 (base [])⟩
      point := inv_decodingT1.point }, rfl, rfl⟩

theorem witness_UnspecifiedContentsNeverShow :
    Inv idleNoTree ∧ idleNoTree.eng = .idle ∧ idleNoTree.treeValid = false ∧
      (⟨9, [(0, leafNode 511), (512, leafNode 3)]⟩ : NodeMem).wf = true ∧
      (⟨.free 9, [(256, ⟨false, 511, 1⟩)]⟩ : CodeMem).wf = true :=
  ⟨inv_idleNoTree, rfl, rfl, by decide, by decide⟩

theorem witness_CompressDecompressRoundTrip :
    idleNoTree.eng = .idle ∧ (base []).eng = .idle ∧ (base []).magic = idleNoTree.magic ∧ treeT2.symsOk = true ∧
      treeT2.size ≤ Config.nodeCap ∧ treeT2.symbols.Nodup ∧
      treeT2.payload [0x41, 0x42, 0x41] = some (bits [0, 1, 1, 0, 1, 0]) :=
  ⟨rfl, rfl, rfl, by decide, by decide, by decide, by decide⟩

end Sys2Proof.Tests
end

section
/-! PROOFS. What one step runs: the moves that reach `exec`, and O16 (spec/00_scope.md R8, spec/10_state.md R22,
spec/40_command_control.md R122, R123). -/

namespace Sys2Proof.Machine

/-- A CTRL write that decodes runs the decoded instruction, whether or not BUSY is set. -/
theorem writeCtrl_of_decode_ok {w : Word32} {i : Instr} (h : decode ⟨.ctrl, w⟩ = .ok i) (s : State) :
    writeCtrl w s = exec i s := by simp only [writeCtrl, h]

@[simp] theorem takeMove_engine (s : State) : takeMove .engine s = engineTurn s := rfl

/-- A word access at offset 0x04 passes R61's test and reaches CTRL (R23). -/
@[simp] theorem takeMove_write_ctrl (w : Word32) (s : State) : takeMove (.write 32 0x04 w) s = writeCtrl w s := rfl

/-- Settles O16: each clause is the rule for the head of the agenda followed by the rule for that move. The agenda is
no input of ENG or CMDLATCH, so the running command is the same one after its move is taken off. -/
theorem stepRunsDecodedInstruction : Obligations.StepRunsDecodedInstruction := by
  refine ⟨?emptyAgenda, ?engineMove, ?ctrlWrite, ?idleEngine⟩
  case emptyAgenda =>
    intro s p hagenda hrun
    rw [step_of_agenda_nil hagenda, engineTurn_run hrun]
  case engineMove =>
    intro s p rest hagenda hrun
    have hrun' : { s with agenda := rest }.eng = .run p := hrun
    rw [step_of_agenda_cons hagenda, takeMove_engine, engineTurn_run hrun']
  case ctrlWrite =>
    intro s w i rest hagenda hdecode
    rw [step_of_agenda_cons hagenda, takeMove_write_ctrl, writeCtrl_of_decode_ok hdecode]
  case idleEngine =>
    intro s hidle
    have hturn : engineTurn s = .next s := engineTurn_idle hidle
    exact ⟨hturn, fun hagenda => (step_of_agenda_nil hagenda).trans hturn⟩

end Sys2Proof.Machine
end

section
/-! PROOFS. What one step can do, said once: the moves of the agenda (spec/20_memory.md R61, R75; 
spec/40_command_control.md R120 to R122, R128) and one engine step of a command (spec/00_scope.md R8; R124, R125). -/

namespace Sys2Proof.Machine

/-! ### The moves -/

/-- What the move `m` makes of the state `s`. -/
inductive Moved (m : Move) (s : State) : State → Prop
  /-- The engine takes its turn. -/
  | engine {t : State} (hm : m = .engine) (turn : engineTurn s = .next t) : Moved m s t
  /-- The soft reset or the platform's (R128, R240). -/
  | reset (hm : m.resets = true) : Moved m s s.resetBlock
  /-- A CMD write is accepted (R120). -/
  | accepted (w : Word32) (hr : m.resets = false) (hi : m.issues = true) (hb : s.busy = false) : Moved m s (s.accept w)
  /-- A CMD write is dropped (R121). -/
  | dropped (hr : m.resets = false) (hi : m.issues = true) (hb : s.busy = true) : Moved m s s.flagOverrun
  /-- Only the host's own lists change: a read, a poll, or a write that is ignored. -/
  | quiet (reads : List Word32) (agenda : List Move) (hr : m.resets = false) (hi : m.issues = false) :
      Moved m s { s with reads := reads, agenda := agenda }

theorem writeCmd_moved {m : Move} {w : Word32} {s t : State} (hr : m.resets = false) (hi : m.issues = true)
    (h : writeCmd w s = .next t) : Moved m s t := by
  unfold writeCmd at h
  split at h
  · cases h
    exact .dropped hr hi ‹_›
  · rename_i hb
    cases h
    exact .accepted w hr hi (Bool.eq_false_iff.2 hb)

/-- Bit 0 of a CTRL word alone says whether the write is the soft reset (R25). -/
theorem writeCtrl_eq (w : Word32) (s : State) :
    writeCtrl w s = .next (if w.getLsbD 0 = true then s.resetBlock else s) := by
  cases hw : w.getLsbD 0 with
  | true =>
    rw [writeCtrl_of_decode_ok (if_pos hw)]
    rfl
  | false =>
    have hdecode : decode ⟨.ctrl, w⟩ = .error .ctrlNoEffect := if_neg (by rw [hw]; decide)
    simp only [writeCtrl, hdecode]
    rfl

theorem accessOk_iff {width offset : Nat} :
    accessOk width offset = true ↔ width = 32 ∧ offset % 4 = 0 ∧ offset < 256 := by
  simp only [accessOk, Bool.and_eq_true, beq_iff_eq, decide_eq_true_eq, and_assoc]
  exact Iff.rfl

theorem hostWrite_moved {width offset : Nat} {w : Word32} {s t : State} (h : hostWrite width offset w s = .next t) :
    Moved (.write width offset w) s t := by
  unfold hostWrite at h
  split at h
  · rename_i hok
    obtain ⟨rfl, -, -⟩ := accessOk_iff.1 hok
    split at h
    · exact writeCmd_moved rfl rfl h
    · rw [writeCtrl_eq] at h
      cases h
      cases hw : w.getLsbD 0 with
      | true => exact .reset hw
      | false => exact .quiet s.reads s.agenda hw rfl
    · rename_i hcmd hctrl
      cases h
      have hctrl' : (offset == 0x04) = false := beq_eq_false_iff_ne.2 hctrl
      exact .quiet s.reads s.agenda (by simp only [Move.resets, hctrl', Bool.and_false, Bool.false_and])
        (beq_eq_false_iff_ne.2 hcmd)
  · cases h

theorem takeMove_moved {m : Move} {s t : State} (h : takeMove m s = .next t) : Moved m s t := by
  cases m with
  | engine => exact .engine rfl h
  | read width offset =>
    simp only [takeMove, hostRead] at h
    split at h
    · cases h
      exact .quiet _ s.agenda rfl rfl
    · cases h
  | write width offset w => exact hostWrite_moved h
  | poll =>
    cases h
    exact .quiet _ _ rfl rfl
  | platformReset =>
    cases h
    exact .reset rfl

/-- A step is the engine's turn on an empty agenda, and the agenda's first move otherwise (R77, R252). -/
theorem step_cases {s t : State} (h : step s = .next t) :
    (s.agenda = [] ∧ engineTurn s = .next t) ∨
      ∃ (m : Move) (rest : List Move), s.agenda = m :: rest ∧ Moved m { s with agenda := rest } t := by
  cases hagenda : s.agenda with
  | nil => exact .inl ⟨rfl, by rwa [step_of_agenda_nil hagenda] at h⟩
  | cons m rest => exact .inr ⟨m, rest, rfl, takeMove_moved (by rwa [step_of_agenda_cons hagenda] at h)⟩

/-! ### One engine step -/

/-- What the command `i` can have changed up to the end of one of its steps, before the step resumes, finishes or
raises: the streams, counters and CUR freely, the two memories and the three validity registers only in their owners
LOAD_TREE and DERIVE (R29, R30, R34), the other fields not at all. -/
structure Progress (i : Instr) (s u : State) : Prop where
  done : u.done = s.done
  err : u.err = s.err
  errCode : u.errCode = s.errCode
  ovr : u.ovr = s.ovr
  magic : u.magic = s.magic
  cmdLatch : u.cmdLatch = s.cmdLatch
  cursor : s.ip ≤ s.input.length → u.ip ≤ u.input.length
  treeValid : i ≠ .ldt → u.treeValid = s.treeValid
  nodeCount : i ≠ .ldt → u.nodeCount = s.nodeCount
  nodes : i ≠ .ldt → u.nodes = s.nodes
  codes : i ≠ .drv → u.codes = s.codes
  tableValid : i ≠ .ldt → i ≠ .drv → u.tableValid = s.tableValid
  table : (s.tableValid = true → s.treeValid = true) → u.tableValid = true → u.treeValid = true

/-- How one step of the command `i` ends (R8, R124, R125): at a stream access, or the command with it. -/
inductive Ends (i : Instr) (s : State) : State → Prop
  | resume {u : State} (p : Point) (body : Progress i s u) : Ends i s (u.resumeAt p)
  | finish {u : State} (body : Progress i s u) : Ends i s u.finish
  | raise {u : State} {e : ErrCode} (he : e ≠ .none) (body : Progress i s u) : Ends i s (u.raise e)

namespace Progress

variable {i : Instr} {s u : State}

theorem refl (i : Instr) (s : State) : Progress i s s :=
  ⟨rfl, rfl, rfl, rfl, rfl, rfl, id, fun _ => rfl, fun _ => rfl, fun _ => rfl, fun _ => rfl, fun _ _ => rfl, id⟩

theorem consume (h : Progress i s u) (n : Nat) : Progress i s (u.consume n) :=
  { h with cursor := fun hs => State.consume_cursor n (h.cursor hs) }

theorem rewind (h : Progress i s u) : Progress i s u.rewind := { h with cursor := fun _ => Nat.zero_le _ }

theorem writeBits (h : Progress i s u) (n v : Nat) : Progress i s (u.writeBits n v) := { h with }

theorem setCur (h : Progress i s u) (j : NodeIx) : Progress i s (u.setCur j) := { h with }

theorem setSymCount (h : Progress i s u) (c : Word32) : Progress i s { u with symCount := c } := { h with }

theorem countSymbol (h : Progress i s u) : Progress i s u.countSymbol := { h with }

/-! LOAD_TREE's updates -/

theorem flagsUnload (h : Progress .ldt s u) : Progress .ldt s u.flagsUnload :=
  { h with treeValid := absurd rfl, nodeCount := absurd rfl, tableValid := absurd rfl, table := nofun }

theorem flagsLoaded (h : Progress .ldt s u) (n : NodeIx) : Progress .ldt s (u.flagsLoaded n) :=
  { h with treeValid := absurd rfl, nodeCount := absurd rfl, table := fun _ _ => rfl }

theorem setNodes (h : Progress .ldt s u) (m : NodeMem) : Progress .ldt s { u with nodes := m } :=
  { h with nodes := absurd rfl }

theorem forgetNodes (h : Progress .ldt s u) : Progress .ldt s u.forgetNodes := { h with nodes := absurd rfl }

/-! DERIVE's updates -/

theorem putCode (h : Progress .drv s u) (y : Symbol) (c : CodeEntry) : Progress .drv s (u.putCode y c) :=
  { h with codes := absurd rfl }

theorem zeroCodes (h : Progress .drv s u) : Progress .drv s u.zeroCodes := { h with codes := absurd rfl }

theorem forgetCodes (h : Progress .drv s u) : Progress .drv s u.forgetCodes := { h with codes := absurd rfl }

theorem flagTableStale (h : Progress .drv s u) : Progress .drv s u.flagTableStale :=
  { h with tableValid := fun _ => absurd rfl, table := nofun }

theorem flagTableValid (h : Progress .drv s u) (ht : u.treeValid = true) : Progress .drv s u.flagTableValid :=
  { h with tableValid := fun _ => absurd rfl, table := fun _ _ => ht }

end Progress

namespace Ends

variable {i : Instr} {s u : State}

theorem readThen (h : Progress i s u) (n : Nat) (p : Option (BitVec n) → Point) : Ends i s (u.readThen n p) :=
  .resume _ (h.consume n)

theorem writeThen (h : Progress i s u) (n v : Nat) (p : Point) : Ends i s (u.writeThen n v p) :=
  .resume _ (h.writeBits n v)

end Ends

theorem execNop_ends {s t : State} (h : execNop s = .next t) : Ends .nop s t := by
  unfold execNop at h
  split at h
  · cases h
    exact .finish (.refl _ s)
  · cases h

theorem execIllegal_ends {w : Word32} {s t : State} (h : execIllegal w s = .next t) : Ends (.illegal w) s t := by
  unfold execIllegal at h
  split at h
  · cases h
    exact .raise (by decide) (.refl _ s)
  · cases h

theorem execRwd_ends {s t : State} (h : execRwd s = .next t) : Ends .rwd s t := by
  unfold execRwd at h
  split at h
  · cases h
    exact .resume _ (Progress.refl _ s).rewind
  · cases h
    exact .finish (.refl _ s)
  · cases h

theorem execCkm_ends {s t : State} (h : execCkm s = .next t) : Ends .ckm s t := by
  unfold execCkm at h
  split at h
  · cases h
    exact .readThen (.refl _ s) _ _
  · split at h
    · cases h
      exact .finish (.refl _ s)
    · cases h
      exact .raise (by decide) (.refl _ s)
  · cases h

theorem execWrm_ends {s t : State} (h : execWrm s = .next t) : Ends .wrm s t := by
  unfold execWrm at h
  split at h
  · cases h
    exact .writeThen (.refl _ s) _ _ _
  · cases h
    exact .finish (.refl _ s)
  · cases h

/-! DECODE -/

theorem decDescend_ends {r : BitVec 1} {s u t : State} (hu : Progress .dec s u) (h : decDescend r u = .next t) :
    Ends .dec s t := by
  obtain ⟨-, h⟩ := withNode_next h
  cases h
  exact .readThen (hu.setCur _) _ _

theorem decReadStep_ends {r : Option (BitVec 1)} {s t : State} (h : decReadStep r s = .next t) : Ends .dec s t := by
  obtain ⟨-, h⟩ := withNode_next h
  split at h
  · cases h
    exact .finish (.refl _ s)
  · split at h
    · cases h
      exact .raise (by decide) (.refl _ s)
    · split at h
      · cases h
        exact .writeThen (.refl _ s) _ _ _
      · exact decDescend_ends (.refl _ s) h

theorem execDec_ends {s t : State} (h : execDec s = .next t) : Ends .dec s t := by
  unfold execDec at h
  split at h
  · split at h
    · obtain ⟨-, h⟩ := withNode_next h
      split at h
      · cases h
        exact .raise (by decide) (.refl _ s)
      · cases h
        exact .readThen ((Progress.refl _ s).setCur 0) _ _
    · cases h
      exact .raise (by decide) (.refl _ s)
  · exact decReadStep_ends h
  · exact decDescend_ends ((Progress.refl _ s).countSymbol.setCur 0) h
  · cases h

/-! ENCODE and ENCODE_SYM -/

/-- EmitCode ends the step with a bit, or goes on with what follows the code (R170). -/
theorem emitCode_ends {i : Instr} {c : CodeEntry} {k : Nat} {p : Nat → Point} {s t : State} {rest : State → Result}
    (hrest : rest s = .next t → Ends i s t) (h : emitCode c k p s rest = .next t) : Ends i s t := by
  rcases emitCode_next h with ⟨-, rfl⟩ | ⟨-, h⟩
  · exact .writeThen (.refl _ s) _ _ _
  · exact hrest h

theorem encAfter_ends {y : Symbol} {s t : State} (h : encAfter y s = .next t) : Ends .enc s t := by
  unfold encAfter at h
  split at h
  · cases h
    exact .finish (.refl _ s)
  · cases h
    exact .readThen (Progress.refl _ s).countSymbol _ _

theorem execEnc_ends {s t : State} (h : execEnc s = .next t) : Ends .enc s t := by
  unfold execEnc at h
  split at h
  · split at h
    · cases h
      exact .readThen (.refl _ s) _ _
    · cases h
      exact .raise (by decide) (.refl _ s)
  · obtain ⟨-, h⟩ := withCode_next h
    split at h
    · exact emitCode_ends encAfter_ends h
    · cases h
      exact .raise (by decide) (.refl _ s)
  · obtain ⟨-, h⟩ := withCode_next h
    exact emitCode_ends encAfter_ends h
  · cases h

theorem ensFinish_ends {i : Instr} {s t : State} (h : ensFinish s = .next t) : Ends i s t := by
  cases h
  exact .finish ((Progress.refl i s).setSymCount 1)

theorem encodeSymbol_ends {i : Instr} {y : Symbol} {s t : State} (h : encodeSymbol y s = .next t) : Ends i s t := by
  unfold encodeSymbol at h
  split at h
  · split at h
    · obtain ⟨-, h⟩ := withCode_next h
      split at h
      · exact emitCode_ends ensFinish_ends h
      · cases h
        exact .raise (by decide) (.refl _ s)
    · cases h
      exact .raise (by decide) (.refl _ s)
  · obtain ⟨-, h⟩ := withCode_next h
    exact emitCode_ends ensFinish_ends h
  · cases h

/-! STORE_TREE -/

theorem sttLoopStep_ends {stack : List NodeIx} {s t : State} (h : sttLoopStep stack s = .next t) :
    Ends .stt s t := by
  cases stack with
  | nil =>
    cases h
    exact .finish (.refl _ s)
  | cons j rest =>
    unfold sttLoopStep at h
    obtain ⟨-, h⟩ := withNode_next h
    split at h
    · cases h
      exact .writeThen (.refl _ s) _ _ _
    · cases h
      exact .writeThen (.refl _ s) _ _ _

theorem execStt_ends {s t : State} (h : execStt s = .next t) : Ends .stt s t := by
  unfold execStt at h
  split at h
  · split at h
    · exact sttLoopStep_ends h
    · cases h
      exact .raise (by decide) (.refl _ s)
  · obtain ⟨-, h⟩ := withNode_next h
    cases h
    exact .writeThen (.refl _ s) _ _ _
  · obtain ⟨-, h⟩ := withNode_next h
    exact sttLoopStep_ends h
  · exact sttLoopStep_ends h
  · cases h

/-! LOAD_TREE -/

theorem ldtRaise_ends {e : ErrCode} {s t : State} (he : e ≠ .none) (h : ldtRaise e s = .next t) : Ends .ldt s t := by
  cases h
  exact .raise he (Progress.refl _ s).forgetNodes

/-- Attaching the right child goes on with an intermediate state of LOAD_TREE (R150). -/
theorem ldtAttach_next {n : NodeIx} {stack : List NodeIx} {attach : Bool} {s t : State}
    {k : List NodeIx → State → Result} (h : ldtAttach n stack attach s k = .next t) :
    (attach = false ∧ k stack s = .next t) ∨
      ∃ (p : NodeIx) (rest : List NodeIx), attach = true ∧ stack = p :: rest ∧ p.toNat < Config.nodeCap ∧
        k rest { s with nodes := s.nodes.write p.toNat { s.nodes.read p.toNat with right := n } } = .next t := by
  unfold ldtAttach at h
  split at h
  · exact .inl ⟨rfl, h⟩
  · cases h
  · obtain ⟨hp, h⟩ := withNode_next h
    obtain ⟨-, h⟩ := putNode_next h
    exact .inr ⟨_, _, rfl, rfl, hp, h⟩

/-- The node of the flag bit `b` begins: a leaf's symbol field is read, or an internal node is stored and the next
flag is read (R150). -/
def ldtNode (b : BitVec 1) (n : NodeIx) (rest : List NodeIx) (u : State) : Result :=
  if b = 1 then .next (u.readThen 9 fun v => .ldtSym v (n + 1) n rest)
  else putNode n (openNode n) u (ldtReadFlag (n + 1) (n :: rest) false)

/-- A flag bit raises, or begins a node after its parent's right child has been attached (R150). -/
theorem ldtFlagStep_next {f : Option (BitVec 1)} {n : NodeIx} {stack : List NodeIx} {attach : Bool} {s t : State}
    (h : ldtFlagStep f n stack attach s = .next t) :
    (∃ e, e ≠ .none ∧ ldtRaise e s = .next t) ∨
      ∃ b : BitVec 1, f = some b ∧ n.toNat ≠ Config.nodeCap ∧
        ldtAttach n stack attach s (ldtNode b n) = .next t := by
  unfold ldtFlagStep at h
  split at h
  · exact .inl ⟨_, by decide, h⟩
  · split at h
    · exact .inl ⟨_, by decide, h⟩
    · exact .inr ⟨_, rfl, ‹_›, h⟩

theorem ldtNode_ends {b : BitVec 1} {n : NodeIx} {rest : List NodeIx} {s u t : State} (hu : Progress .ldt s u)
    (h : ldtNode b n rest u = .next t) : Ends .ldt s t := by
  unfold ldtNode at h
  split at h
  · cases h
    exact .readThen hu _ _
  · obtain ⟨-, h⟩ := putNode_next h
    cases h
    exact .readThen (hu.setNodes _) _ _

theorem ldtFlagStep_ends {f : Option (BitVec 1)} {n : NodeIx} {stack : List NodeIx} {attach : Bool} {s t : State}
    (h : ldtFlagStep f n stack attach s = .next t) : Ends .ldt s t := by
  rcases ldtFlagStep_next h with ⟨e, he, h⟩ | ⟨b, -, -, h⟩
  · exact ldtRaise_ends he h
  · rcases ldtAttach_next h with ⟨-, h⟩ | ⟨p, rest, -, -, -, h⟩
    · exact ldtNode_ends (.refl _ s) h
    · exact ldtNode_ends ((Progress.refl _ s).setNodes _) h

theorem ldtSymStep_ends {v : Option Symbol} {n j : NodeIx} {stack : List NodeIx} {s t : State}
    (h : ldtSymStep v n j stack s = .next t) : Ends .ldt s t := by
  unfold ldtSymStep at h
  split at h
  · exact ldtRaise_ends (by decide) h
  · split at h
    · exact ldtRaise_ends (by decide) h
    · obtain ⟨-, h⟩ := putNode_next h
      split at h
      · cases h
        exact .finish (((Progress.refl _ s).setNodes _).flagsLoaded n)
      · cases h
        exact .readThen ((Progress.refl _ s).setNodes _) _ _

theorem execLdt_ends {s t : State} (h : execLdt s = .next t) : Ends .ldt s t := by
  unfold execLdt at h
  split at h
  · cases h
    exact .readThen (Progress.refl _ s).flagsUnload _ _
  · exact ldtFlagStep_ends h
  · exact ldtSymStep_ends h
  · cases h

/-! DERIVE -/

theorem drvRaise_ends {e : ErrCode} {s u t : State} (he : e ≠ .none) (hu : Progress .drv s u)
    (h : drvRaise e u = .next t) : Ends .drv s t := by
  cases h
  exact .raise he hu.forgetCodes

/-- DERIVE's loop only stores to CODE until it finishes or raises, so the tree is still loaded at its end (R140). -/
theorem drvLoop_ends {fuel : Nat} {stack : List (NodeIx × Nat × Nat)} {s u t : State} (hu : Progress .drv s u)
    (ht : u.treeValid = true) (h : drvLoop fuel stack u = .next t) : Ends .drv s t := by
  induction fuel generalizing stack u with
  | zero =>
    cases stack with
    | nil =>
      cases h
      exact .finish (hu.flagTableValid ht)
    | cons => cases h
  | succ fuel ih =>
    cases stack with
    | nil =>
      cases h
      exact .finish (hu.flagTableValid ht)
    | cons top rest =>
      obtain ⟨-, h⟩ := withNode_next h
      split at h
      · obtain ⟨-, h⟩ := withCode_next h
        split at h
        · exact drvRaise_ends (by decide) hu h
        · exact ih (hu.putCode _ _) ht h
      · exact ih hu ht h

theorem execDrv_ends {s t : State} (h : execDrv s = .next t) : Ends .drv s t := by
  unfold execDrv at h
  split at h
  · split at h
    · exact drvLoop_ends ((Progress.refl _ s).flagTableStale.zeroCodes) ‹_› h
    · exact drvRaise_ends (by decide) (.refl _ s) h
  · cases h

/-! The engine's turn -/

/-- One step of any command ends at a stream access, with `finish` or with `raise`; SRST is no command (R128). -/
theorem exec_ends {i : Instr} {s t : State} (hi : ∀ ignored, i ≠ .srst ignored) (h : exec i s = .next t) :
    Ends i s t := by
  cases i with
  | nop => exact execNop_ends h
  | ldt => exact execLdt_ends h
  | stt => exact execStt_ends h
  | drv => exact execDrv_ends h
  | ckm => exact execCkm_ends h
  | wrm => exact execWrm_ends h
  | enc => exact execEnc_ends h
  | ens b => exact encodeSymbol_ends h
  | ensEof => exact encodeSymbol_ends h
  | dec => exact execDec_ends h
  | rwd => exact execRwd_ends h
  | srst ignored => exact absurd rfl (hi ignored)
  | illegal w => exact execIllegal_ends h

theorem decodeOp_ne_srst (w : Word32) (ignored : BitVec 31) : decodeOp w ≠ .srst ignored := by
  unfold decodeOp
  split <;> exact Instr.noConfusion

theorem decodeEns_ne_srst (w : Word32) (ignored : BitVec 31) : decodeEns w ≠ .srst ignored := by
  unfold decodeEns
  split_ifs <;> exact Instr.noConfusion

/-- No CMD word is the soft reset (R91). -/
theorem decodeCmd_ne_srst (w : Word32) (ignored : BitVec 31) : decodeCmd w ≠ .srst ignored := by
  unfold decodeCmd
  split_ifs
  · exact Instr.noConfusion
  · exact Instr.noConfusion
  · exact decodeEns_ne_srst w ignored
  · exact Instr.noConfusion
  · exact decodeOp_ne_srst w ignored

/-- The engine's turn does nothing while IDLE and otherwise is one step of the running command (R122, R224). -/
theorem engineTurn_cases {s t : State} (h : engineTurn s = .next t) :
    (s.eng = .idle ∧ t = s) ∨
      ∃ p, s.eng = .run p ∧ exec (decodeCmd s.cmdLatch) s = .next t ∧ Ends (decodeCmd s.cmdLatch) s t := by
  cases heng : s.eng with
  | idle =>
    rw [engineTurn_idle heng] at h
    cases h
    exact .inl ⟨rfl, rfl⟩
  | run p =>
    rw [engineTurn_run heng] at h
    exact .inr ⟨p, rfl, h, exec_ends (decodeCmd_ne_srst _) h⟩

end Sys2Proof.Machine
end

section
/-! PROOFS. The registers as the host sees them: O1, O2, O10, O11, O12, O14 (spec/10_state.md R23 to R44;
spec/20_memory.md R61, R75; spec/70_reset_and_hazards.md R240, R243). -/

namespace Sys2Proof.Machine

/-! ### What a read returns -/

/-- A reserved offset reads 0 (R38). -/
theorem readReg_reserved {offset : Nat} (h : 0x24 ≤ offset) (s : State) : s.readReg offset = 0 := by
  unfold State.readReg
  split
  case h_8 => rfl
  all_goals omega

/-- Extending a field to a register's width keeps its value (R32, R34). -/
theorem toNat_zext32 {n : Nat} (hn : n ≤ 32) (v : BitVec n) : (zext32 v).toNat = v.toNat :=
  BitVec.toNat_setWidth_of_le hn

/-- The registers hold their reset values, MAGIC apart (R44). -/
structure RegsClear (s : State) : Prop where
  eng : s.eng = .idle
  done : s.done = false
  err : s.err = false
  treeValid : s.treeValid = false
  tableValid : s.tableValid = false
  ovr : s.ovr = false
  errCode : s.errCode = .none
  nodeCount : s.nodeCount = 0
  inBits : s.inBits = 0
  outBits : s.outBits = 0
  symCount : s.symCount = 0

theorem regsClear_reset : RegsClear State.reset := ⟨rfl, rfl, rfl, rfl, rfl, rfl, rfl, rfl, rfl, rfl, rfl⟩

theorem regsClear_resetBlock (s : State) : RegsClear s.resetBlock :=
  ⟨rfl, rfl, rfl, rfl, rfl, rfl, rfl, rfl, rfl, rfl, rfl⟩

theorem RegsClear.statusWord {s : State} (h : RegsClear s) : s.statusWord = 0 := by
  have hbusy : s.busy = false := by simp [State.busy, h.eng]
  simp [State.statusWord, h.ovr, h.tableValid, h.treeValid, h.err, h.done, hbusy]

/-- With the registers clear every offset but MAGIC's reads 0 (R44). -/
theorem RegsClear.readReg {s : State} (h : RegsClear s) {offset : Nat} (hm : offset ≠ 0x10) :
    s.readReg offset = 0 := by
  unfold State.readReg
  split
  · exact h.statusWord
  · rw [h.errCode]; rfl
  · exact absurd rfl hm
  · rw [h.nodeCount]; rfl
  · exact h.inBits
  · exact h.outBits
  · exact h.symCount
  · rfl

/-- Settles O1: both resets are the one update `State.resetBlock`, which clears the registers. -/
theorem resetClearsRegistersKeepsStreams : Obligations.ResetClearsRegistersKeepsStreams := by
  intro ignored s
  have hclear := regsClear_resetBlock s
  exact ⟨s.resetBlock, rfl, rfl, hclear.eng, fun _ => hclear.readReg, rfl, rfl, rfl, rfl, rfl, rfl⟩

/-- MAGIC_VALUE is the successor of a number below 2^32 - 1 (R5). -/
theorem magicValue_ne_zero : Config.magicValue ≠ 0 := by
  have hlt := Config.magicOffset.isLt
  intro h
  have hval := congrArg BitVec.toNat h
  simp only [Config.magicValue, BitVec.toNat_ofNat, BitVec.ofNat_eq_ofNat] at hval
  omega

/-- Settles O2: the registers are clear, and MAGIC holds a constant that is not 0. -/
theorem powerOnRegisters : Obligations.PowerOnRegisters :=
  ⟨regsClear_reset.eng, fun _ => regsClear_reset.readReg, rfl, magicValue_ne_zero⟩

/-! ### STATUS and the error codes -/

theorem busy_iff_ne_idle (s : State) : s.busy = true ↔ s.eng ≠ .idle := by
  unfold State.busy
  split <;> simp [*]

/-- STATUS from its fields, bit 0 last. -/
theorem statusWord_eq_concat (s : State) :
    s.statusWord =
      (((((BitVec.concat (0 : BitVec 26) s.ovr).concat s.tableValid).concat s.treeValid).concat s.err).concat
        s.done).concat s.busy := rfl

/-- Bit `k` of STATUS (R26). -/
theorem getLsbD_statusWord (s : State) (k : Nat) :
    s.statusWord.getLsbD k = [s.busy, s.done, s.err, s.treeValid, s.tableValid, s.ovr].getD k false := by
  rw [statusWord_eq_concat]
  rcases k with _ | _ | _ | _ | _ | _ | k <;> simp

/-- A write to a read-only register or a reserved offset is ignored (R23, R38). -/
theorem hostWrite_ignored {offset : Nat} (haligned : offset % 4 = 0) (hlo : 0x08 ≤ offset) (hhi : offset < 256)
    (w : Word32) (s : State) : hostWrite 32 offset w s = .next s := by
  unfold hostWrite
  rw [if_pos (accessOk_iff.2 ⟨rfl, haligned, hhi⟩)]
  split
  · omega
  · omega
  · rfl

/-- Settles O10. -/
theorem statusWordLayout : Obligations.StatusWordLayout := by
  intro s w
  refine ⟨rfl, getLsbD_statusWord s 0, getLsbD_statusWord s 1, getLsbD_statusWord s 2, getLsbD_statusWord s 3,
    getLsbD_statusWord s 4, getLsbD_statusWord s 5, fun k hk => ?_, busy_iff_ne_idle s,
    hostWrite_ignored rfl (by decide) (by decide) w s⟩
  rw [getLsbD_statusWord]
  exact List.getD_eq_default _ _ hk

/-- The names of R211, in its order. -/
def ErrCode.all : List ErrCode :=
  [.none, .invalidMagic, .malformedHeader, .truncatedStream, .unencodableSymbol, .badCommand, .noTree, .noTable,
    .treeCapacity, .badSymbol, .duplicateSymbol, .degenerateTree]

theorem ErrCode.mem_all (e : ErrCode) : e ∈ ErrCode.all := by cases e <;> decide

theorem ErrCode.code_injective {a b : ErrCode} (h : a.code = b.code) : a = b := by
  have distinct : ∀ a ∈ ErrCode.all, ∀ b ∈ ErrCode.all, a.code = b.code → a = b := by decide
  exact distinct a a.mem_all b b.mem_all h

/-- Settles O11: each register reads as its field, extended with zeros; each error code has the value R211 lists. -/
theorem registerMapReads : Obligations.RegisterMapReads :=
  ⟨fun s => ⟨rfl, rfl, toNat_zext32 (by decide) _, rfl, toNat_zext32 (by decide) _, rfl, rfl, rfl⟩,
    fun _ _ => ErrCode.code_injective, rfl, rfl, rfl, rfl, rfl, rfl, rfl, rfl, rfl, rfl, rfl, rfl⟩

/-- Settles O12. -/
theorem reservedOffsetsAndReads : Obligations.ReservedOffsetsAndReads := by
  intro s offset w haligned hhi
  exact ⟨if_pos (accessOk_iff.2 ⟨rfl, haligned, hhi⟩), fun hlo => hostWrite_ignored haligned hlo hhi w s,
    fun hlo => readReg_reserved hlo s⟩

/-- Settles O14: bit 0 of the word written to CTRL decides between the reset and nothing. -/
theorem controlWrite : Obligations.ControlWrite := by
  intro s w
  refine ⟨rfl, fun hw => ?_, fun hw => ?_⟩
  · rw [takeMove_write_ctrl, writeCtrl_eq, if_neg (Bool.eq_false_iff.1 hw)]
  · rw [takeMove_write_ctrl, writeCtrl_eq, if_pos hw]
    rfl

end Sys2Proof.Machine
end

section
/-! PROOFS. What every step keeps of the registers and of the memories' owners: O9, O51, O52, O54 (spec/10_state.md
R26 to R34; spec/40_command_control.md R124, R125), each from the cases of a step. -/

namespace Sys2Proof.Machine

/-! ### The overrun flag -/

theorem Ends.ovr {i : Instr} {s t : State} (h : Ends i s t) : t.ovr = s.ovr := by
  cases h with
  | resume p body => exact body.ovr
  | finish body => exact body.ovr
  | raise he body => exact body.ovr

theorem engineTurn_ovr {s t : State} (h : engineTurn s = .next t) : t.ovr = s.ovr := by
  rcases engineTurn_cases h with ⟨-, rfl⟩ | ⟨p, -, -, ends⟩
  · rfl
  · exact ends.ovr

theorem Moved.ovr {m : Move} {s t : State} (h : Moved m s t) :
    t.ovr = (!m.resets && (s.ovr || (m.issues && s.busy))) := by
  cases h with
  | engine hm turn =>
    subst hm
    simp [engineTurn_ovr turn, Move.resets, Move.issues]
  | reset hm => simp [hm]
  | accepted w hr hi hb => simp [hr, hb]
  | dropped hr hi hb => simp [hr, hi, hb]
  | quiet reads agenda hr hi => simp [hr, hi]

/-- Settles O9: no command touches OVR, and each kind of move sets, clears or keeps it as R31 says. -/
theorem overrunFlagIsSticky : Obligations.OverrunFlagIsSticky := by
  intro s t h
  rcases step_cases h with ⟨hagenda, turn⟩ | ⟨m, rest, hagenda, moved⟩
  · rw [hagenda]
    exact engineTurn_ovr turn
  · rw [hagenda]
    exact moved.ovr

/-! ### The owners of the tree and of the table -/

/-- From `s` to `t` the tree, the table and their flags change only where the command running in `s` owns them (R29, R30,
R34). -/
structure KeepsOwned (s t : State) : Prop where
  tree : (∀ p, s.eng = .run p → decodeCmd s.cmdLatch ≠ .ldt) →
    t.treeValid = s.treeValid ∧ t.nodeCount = s.nodeCount ∧ t.nodes = s.nodes
  codes : (∀ p, s.eng = .run p → decodeCmd s.cmdLatch ≠ .drv) → t.codes = s.codes
  tableValid : (∀ p, s.eng = .run p → decodeCmd s.cmdLatch ≠ .ldt ∧ decodeCmd s.cmdLatch ≠ .drv) →
    t.tableValid = s.tableValid

theorem KeepsOwned.of_eq {s t : State} (htv : t.treeValid = s.treeValid) (hnc : t.nodeCount = s.nodeCount)
    (hn : t.nodes = s.nodes) (hc : t.codes = s.codes) (htab : t.tableValid = s.tableValid) : KeepsOwned s t :=
  ⟨fun _ => ⟨htv, hnc, hn⟩, fun _ => hc, fun _ => htab⟩

theorem Progress.keepsOwned {s u : State} {p : Point} (hrun : s.eng = .run p)
    (body : Progress (decodeCmd s.cmdLatch) s u) : KeepsOwned s u where
  tree h := ⟨body.treeValid (h p hrun), body.nodeCount (h p hrun), body.nodes (h p hrun)⟩
  codes h := body.codes (h p hrun)
  tableValid h := body.tableValid (h p hrun).1 (h p hrun).2

theorem engineTurn_keepsOwned {s t : State} (h : engineTurn s = .next t) : KeepsOwned s t := by
  rcases engineTurn_cases h with ⟨-, rfl⟩ | ⟨p, hrun, -, ends⟩
  · exact .of_eq rfl rfl rfl rfl rfl
  · cases ends with
    | resume q body => exact { body.keepsOwned hrun with }
    | finish body => exact { body.keepsOwned hrun with }
    | raise he body => exact { body.keepsOwned hrun with }

theorem Moved.keepsOwned {m : Move} {s t : State} (h : Moved m s t) (hm : m.resets = false) : KeepsOwned s t := by
  cases h with
  | engine _ turn => exact engineTurn_keepsOwned turn
  | reset hr => simp [hm] at hr
  | accepted | dropped | quiet => exact .of_eq rfl rfl rfl rfl rfl

/-- Settles O51: an engine step changes only what its command owns, and no host move but a reset changes any of it. -/
theorem treeAndTableOwners : Obligations.TreeAndTableOwners := by
  intro s t h hreset
  have owned : KeepsOwned s t := by
    rcases step_cases h with ⟨-, turn⟩ | ⟨m, rest, hagenda, moved⟩
    · exact engineTurn_keepsOwned turn
    · rw [hagenda] at hreset
      exact { moved.keepsOwned hreset with }
  exact ⟨owned.tree, owned.codes, owned.tableValid⟩

/-! ### The rules of the registers -/

/-- While a command runs DONE, ERR and ERRCODE are clear (R28, R32). -/
theorem RegInv.clear_of_run {s : State} {p : Point} (h : RegInv s) (hrun : s.eng = .run p) :
    s.done = false ∧ s.err = false ∧ s.errCode = .none := by
  obtain ⟨hdone, herr⟩ := h.busyClear ((busy_iff s).2 ⟨p, hrun⟩)
  refine ⟨hdone, herr, ?_⟩
  by_contra hcode
  simp [h.errCode.2 hcode] at herr

/-- BUSY, DONE, ERR and ERRCODE after an engine step: still running, finished, or raised (R28, R32, R124, R125). -/
def EndFlags (t : State) : Prop :=
  (t.busy = true ∧ t.done = false ∧ t.err = false ∧ t.errCode = .none) ∨
    (t.busy = false ∧ t.done = true ∧ t.err = false ∧ t.errCode = .none) ∨
    (t.busy = false ∧ t.done = false ∧ t.err = true ∧ t.errCode ≠ .none)

theorem Ends.flags {i : Instr} {s t : State} {p : Point} (h : RegInv s) (hrun : s.eng = .run p) (ends : Ends i s t) :
    EndFlags t := by
  obtain ⟨hdone, herr, hcode⟩ := h.clear_of_run hrun
  cases ends with
  | resume q body => exact .inl ⟨rfl, body.done.trans hdone, body.err.trans herr, body.errCode.trans hcode⟩
  | finish body => exact .inr (.inl ⟨rfl, rfl, body.err.trans herr, body.errCode.trans hcode⟩)
  | raise he body => exact .inr (.inr ⟨rfl, body.done.trans hdone, rfl, he⟩)

/-- Settles O52: the three ends of an engine step, seen in the flags. -/
theorem commandEndsDoneOrErr : Obligations.CommandEndsDoneOrErr := by
  intro s t p hreg hrun turn
  rcases engineTurn_cases turn with ⟨hidle, -⟩ | ⟨q, hq, -, ends⟩
  · rw [hrun] at hidle
    cases hidle
  · exact ends.flags hreg hq

/-- The rules of the registers but those of BUSY, DONE, ERR and ERRCODE. -/
structure StreamRules (s : State) : Prop where
  cursor : s.ip ≤ s.input.length
  magicNonzero : s.magic ≠ 0
  table : s.tableValid = true → s.treeValid = true

theorem RegInv.streamRules {s : State} (h : RegInv s) : StreamRules s := ⟨h.cursor, h.magicNonzero, h.table⟩

theorem Progress.streamRules {i : Instr} {s u : State} (body : Progress i s u) (h : StreamRules s) : StreamRules u where
  cursor := body.cursor h.cursor
  magicNonzero := by
    rw [body.magic]
    exact h.magicNonzero
  table := body.table h.table

theorem Ends.streamRules {i : Instr} {s t : State} (ends : Ends i s t) (h : StreamRules s) : StreamRules t := by
  cases ends with
  | resume q body => exact { body.streamRules h with }
  | finish body => exact { body.streamRules h with }
  | raise he body => exact { body.streamRules h with }

/-- The flags a command's step leaves obey R28 and R32. -/
theorem EndFlags.regInv {t : State} (flags : EndFlags t) (h : StreamRules t) : RegInv t := by
  have hflags : ¬(t.done = true ∧ t.err = true) ∧ (t.busy = true → t.done = false ∧ t.err = false) ∧
      (t.err = true ↔ t.errCode ≠ .none) := by
    obtain ⟨hbusy, hdone, herr, hcode⟩ | ⟨hbusy, hdone, herr, hcode⟩ | ⟨hbusy, hdone, herr, hcode⟩ := flags
    all_goals simp [hbusy, hdone, herr, hcode]
  obtain ⟨hone, hbusy, hcode⟩ := hflags
  exact ⟨h.cursor, h.magicNonzero, hone, hbusy, hcode, h.table⟩

theorem engineTurn_regInv {s t : State} (h : RegInv s) (turn : engineTurn s = .next t) : RegInv t := by
  rcases engineTurn_cases turn with ⟨-, rfl⟩ | ⟨p, hrun, -, ends⟩
  · exact h
  · exact (ends.flags h hrun).regInv (ends.streamRules h.streamRules)

theorem RegInv.accept {s : State} (h : RegInv s) (w : Word32) : RegInv (s.accept w) :=
  { h.streamRules with
    doneOrErr := nofun, busyClear := fun _ => ⟨rfl, rfl⟩, errCode := ⟨nofun, fun hcode => absurd rfl hcode⟩ }

theorem RegInv.resetBlock {s : State} (h : RegInv s) : RegInv s.resetBlock :=
  { h with
    doneOrErr := nofun, busyClear := nofun, errCode := ⟨nofun, fun hcode => absurd rfl hcode⟩, table := nofun }

theorem Moved.regInv {m : Move} {s t : State} (moved : Moved m s t) (h : RegInv s) : RegInv t := by
  cases moved with
  | engine _ turn => exact engineTurn_regInv h turn
  | reset => exact h.resetBlock
  | accepted w => exact h.accept w
  | dropped => exact { h with }
  | quiet => exact { h with }

/-- Settles O54. -/
theorem stepKeepsRegisterRules : Obligations.StepKeepsRegisterRules := by
  intro s t h hstep
  rcases step_cases hstep with ⟨-, turn⟩ | ⟨m, rest, -, moved⟩
  · exact engineTurn_regInv h turn
  · exact moved.regInv { h with }

end Sys2Proof.Machine
end

section
/-! PROOFS. What every step keeps of the memories and of the resume point (spec/10_state.md R34, R40; 
spec/41_code_table.md R141; spec/42_tree_codec.md R151, R152): a lemma per command, which O56 joins with the rules of
the registers. -/

namespace Sys2Proof.Machine

/-! ### The parts of the invariant -/

/-- The part of the machine invariant about the memories and their flags. -/
structure MemInv (s : State) : Prop where
  mem : Memory.wf s = true
  count : s.treeValid = true ↔ s.nodeCount ≠ 0
  tree : s.treeValid = true → ∃ t : Tree, s.hasTree t ∧ (s.tableValid = true → s.hasTable t)

/-- The point where `s` stands, if a command runs, is one of the command `i` (R22). -/
def AtPoint (i : Instr) (s : State) : Prop := ∀ p : Point, s.eng = .run p → PointOk i s p

theorem Inv.memInv {s : State} (h : Inv s) : MemInv s := ⟨h.mem, h.count, h.tree⟩

theorem MemInv.inv {s : State} (hmem : MemInv s) (hreg : RegInv s) (hpoint : AtPoint (decodeCmd s.cmdLatch) s) :
    Inv s :=
  ⟨hreg, hmem.mem, hmem.count, hmem.tree, hpoint⟩

/-- The two memories and their flags are the same in both states. -/
structure SameMemory (s t : State) : Prop where
  treeValid : t.treeValid = s.treeValid
  tableValid : t.tableValid = s.tableValid
  nodeCount : t.nodeCount = s.nodeCount
  nodes : t.nodes = s.nodes
  codes : t.codes = s.codes

theorem MemInv.congr {s t : State} (h : MemInv s) (same : SameMemory s t) : MemInv t := by
  obtain ⟨htree, htable, hcount, hnodes, hcodes⟩ := same
  refine ⟨Memory.wf_of_eq h.mem hnodes hcodes, ?_, ?_⟩
  · rw [htree, hcount]
    exact h.count
  · simpa only [State.hasTree, State.hasTable, htree, htable, hcount, hnodes, hcodes] using h.tree

theorem PointOk.congr {i : Instr} {s t : State} {p : Point} (h : PointOk i s p) (same : SameMemory s t)
    (hcur : t.cur = s.cur) : PointOk i t p := by
  obtain ⟨htree, htable, hcount, hnodes, hcodes⟩ := same
  cases p
  case start => trivial
  all_goals simpa only [PointOk, Unloaded, EmitOk, htree, htable, hcount, hnodes, hcodes, hcur] using h

theorem Memory.wf_iff {s : State} : Memory.wf s = true ↔ s.nodes.wf = true ∧ s.codes.wf = true := by
  simp only [Memory.wf, Bool.and_eq_true]

/-- With no tree loaded only the canonical form is left to show (R34). -/
theorem Unloaded.memInv {s : State} (h : Unloaded s) (hn : s.nodes.wf = true) (hc : s.codes.wf = true) : MemInv s := by
  obtain ⟨htree, -, hcount⟩ := h
  refine ⟨Memory.wf_iff.2 ⟨hn, hc⟩, ?_, ?_⟩
  · simp [htree, hcount]
  · simp [htree]

/-- The loaded tree's root is entry 0 (R40). -/
theorem MemInv.treeAt_root {s : State} (h : MemInv s) (htree : s.treeValid = true) : s.nodes.treeAt 0 := by
  obtain ⟨t, ht, -⟩ := h.tree htree
  exact ht.treeAt

/-! The point after each end of a step -/

theorem AtPoint.finish (i : Instr) (s : State) : AtPoint i s.finish := nofun

theorem AtPoint.raise (i : Instr) (e : ErrCode) (s : State) : AtPoint i (s.raise e) := nofun

theorem AtPoint.resumeAt {i : Instr} {s : State} {p : Point} (h : PointOk i s p) : AtPoint i (s.resumeAt p) := by
  intro q hq
  cases hq
  exact h.congr ⟨rfl, rfl, rfl, rfl, rfl⟩ rfl

theorem AtPoint.readThen {i : Instr} {s : State} {n : Nat} {p : Option (BitVec n) → Point}
    (h : PointOk i s (p (s.peekBits n))) : AtPoint i (s.readThen n p) :=
  .resumeAt (h.congr ⟨rfl, rfl, rfl, rfl, rfl⟩ rfl)

theorem AtPoint.writeThen {i : Instr} {s : State} {n v : Nat} {p : Point} (h : PointOk i s p) :
    AtPoint i (s.writeThen n v p) :=
  .resumeAt (h.congr ⟨rfl, rfl, rfl, rfl, rfl⟩ rfl)

/-! ### Commands that store to no memory -/

theorem Progress.sameMemory {i : Instr} {s u : State} (body : Progress i s u) (hl : i ≠ .ldt) (hd : i ≠ .drv) :
    SameMemory s u :=
  ⟨body.treeValid hl, body.tableValid hl hd, body.nodeCount hl, body.nodes hl, body.codes hd⟩

theorem Ends.sameMemory {i : Instr} {s t : State} (ends : Ends i s t) (hl : i ≠ .ldt) (hd : i ≠ .drv) :
    SameMemory s t := by
  cases ends with
  | resume p body => exact { body.sameMemory hl hd with }
  | finish body => exact { body.sameMemory hl hd with }
  | raise he body => exact { body.sameMemory hl hd with }

theorem execNop_atPoint {s t : State} (h : execNop s = .next t) : AtPoint .nop t := by
  unfold execNop at h
  split at h <;> cases h
  exact .finish _ s

theorem execIllegal_atPoint {w : Word32} {s t : State} (h : execIllegal w s = .next t) : AtPoint (.illegal w) t := by
  unfold execIllegal at h
  split at h <;> cases h
  exact .raise _ _ s

theorem execRwd_atPoint {s t : State} (h : execRwd s = .next t) : AtPoint .rwd t := by
  unfold execRwd at h
  split at h <;> cases h
  · exact .resumeAt rfl
  · exact .finish _ s

theorem execCkm_atPoint {s t : State} (h : execCkm s = .next t) : AtPoint .ckm t := by
  unfold execCkm at h
  split at h
  · cases h
    exact .readThen rfl
  · split at h <;> cases h
    · exact .finish _ s
    · exact .raise _ _ s
  · cases h

theorem execWrm_atPoint {s t : State} (h : execWrm s = .next t) : AtPoint .wrm t := by
  unfold execWrm at h
  split at h <;> cases h
  · exact .writeThen rfl
  · exact .finish _ s

/-! ENCODE and ENCODE_SYM -/

/-- The bits of an entry of the table are emitted one by one up to its length (R170). -/
theorem emitCode_atPoint {i : Instr} {y : Symbol} {k : Nat} {p : Nat → Point} {s t : State} {rest : State → Result}
    (htable : s.tableValid = true) (hy : y ≤ Config.eofSym) (hvalid : (s.codes.read y.toNat).valid = true)
    (hp : EmitOk s y (k + 1) → PointOk i s (p (k + 1))) (hrest : rest s = .next t → AtPoint i t)
    (h : emitCode (s.codes.read y.toNat) k p s rest = .next t) : AtPoint i t := by
  rcases emitCode_next h with ⟨hk, rfl⟩ | ⟨-, h⟩
  · exact .writeThen (hp ⟨htable, hy, hvalid, Nat.le_add_left 1 k, hk⟩)
  · exact hrest h

theorem symbolOfByte_le (b : Byte) : symbolOfByte b ≤ Config.eofSym := by
  have hb : (symbolOfByte b).toNat = b.toNat := BitVec.toNat_setWidth_of_le (by decide)
  have heof : Config.eofSym.toNat = 256 := rfl
  rw [BitVec.le_def]
  omega

theorem encSymbol_le (v : Option Byte) : encSymbol v ≤ Config.eofSym := by
  cases v with
  | none => exact BitVec.le_refl _
  | some b => exact symbolOfByte_le b

theorem pointOk_encBits (s : State) (y : Symbol) (k : Nat) : PointOk .enc s (.encBits y k) ↔ EmitOk s y k := by
  simp [PointOk]

theorem encAfter_atPoint {y : Symbol} {s t : State} (htable : s.tableValid = true) (h : encAfter y s = .next t) :
    AtPoint .enc t := by
  unfold encAfter at h
  split at h <;> cases h
  · exact .finish _ s
  · exact .readThen ⟨rfl, htable⟩

theorem execEnc_atPoint {s t : State} (hpoint : AtPoint .enc s) (h : execEnc s = .next t) : AtPoint .enc t := by
  unfold execEnc at h
  split at h
  · split at h <;> cases h
    · exact .readThen ⟨rfl, ‹_›⟩
    · exact .raise _ _ s
  · rename_i v heng
    obtain ⟨-, htable⟩ := hpoint _ heng
    obtain ⟨-, h⟩ := withCode_next h
    split at h
    · exact emitCode_atPoint htable (encSymbol_le v) ‹_› (pointOk_encBits s _ _).2 (encAfter_atPoint htable) h
    · cases h
      exact .raise _ _ s
  · rename_i y k heng
    obtain ⟨-, htable, hy, hvalid, -, -⟩ := hpoint _ heng
    obtain ⟨-, h⟩ := withCode_next h
    exact emitCode_atPoint htable hy hvalid (pointOk_encBits s _ _).2 (encAfter_atPoint htable) h
  · cases h

/-- ENCODE_SYM stands in EmitCode of the symbol it names (R173). -/
theorem pointOk_ensBits {i : Instr} {y : Symbol} (hi : EncodesSymbol i y) (s : State) (k : Nat) :
    PointOk i s (.ensBits k) ↔ EmitOk s y k := by
  rcases hi with ⟨b, rfl, rfl⟩ | ⟨rfl, rfl⟩ <;> simp [PointOk]

theorem EncodesSymbol.le {i : Instr} {y : Symbol} (hi : EncodesSymbol i y) : y ≤ Config.eofSym := by
  rcases hi with ⟨b, rfl, rfl⟩ | ⟨rfl, rfl⟩
  · exact symbolOfByte_le b
  · exact BitVec.le_refl _

theorem ensFinish_atPoint {i : Instr} {s t : State} (h : ensFinish s = .next t) : AtPoint i t := by
  cases h
  exact .finish _ _

theorem encodeSymbol_atPoint {i : Instr} {y : Symbol} {s t : State} (hi : EncodesSymbol i y) (hpoint : AtPoint i s)
    (h : encodeSymbol y s = .next t) : AtPoint i t := by
  unfold encodeSymbol at h
  split at h
  · split at h
    · obtain ⟨-, h⟩ := withCode_next h
      split at h
      · exact emitCode_atPoint ‹_› hi.le ‹_› (pointOk_ensBits hi s _).2 ensFinish_atPoint h
      · cases h
        exact .raise _ _ s
    · cases h
      exact .raise _ _ s
  · rename_i k heng
    obtain ⟨htable, hy, hvalid, -, -⟩ := (pointOk_ensBits hi s k).1 (hpoint _ heng)
    obtain ⟨-, h⟩ := withCode_next h
    exact emitCode_atPoint htable hy hvalid (pointOk_ensBits hi s _).2 ensFinish_atPoint h
  · cases h

/-! STORE_TREE -/

theorem nodeIsLeaf_iff {e : Node} : nodeIsLeaf e = true ↔ e.kind = .leaf := by
  unfold nodeIsLeaf
  split <;> simp [*]

theorem kind_internal_of_not_leaf {e : Node} (h : ¬nodeIsLeaf e = true) : e.kind = .internal := by
  cases hk : e.kind with
  | internal => rfl
  | leaf => exact absurd (nodeIsLeaf_iff.2 hk) h

/-- STORE_TREE's stack holds roots of trees only (R153). -/
theorem sttLoopStep_atPoint {stack : List NodeIx} {s t : State} (htree : s.treeValid = true)
    (hstack : ∀ k ∈ stack, s.nodes.treeAt k.toNat) (h : sttLoopStep stack s = .next t) : AtPoint .stt t := by
  cases stack with
  | nil =>
    cases h
    exact .finish _ s
  | cons j rest =>
    unfold sttLoopStep at h
    obtain ⟨-, h⟩ := withNode_next h
    split at h <;> cases h
    · exact .writeThen ⟨rfl, htree, nodeIsLeaf_iff.1 ‹_›, hstack⟩
    · exact .writeThen ⟨rfl, htree, kind_internal_of_not_leaf ‹_›, hstack⟩

theorem execStt_atPoint {s t : State} (hmem : MemInv s) (hpoint : AtPoint .stt s) (h : execStt s = .next t) :
    AtPoint .stt t := by
  unfold execStt at h
  split at h
  · split at h
    · rename_i htree
      have hroot : s.nodes.treeAt (0 : NodeIx).toNat := hmem.treeAt_root htree
      exact sttLoopStep_atPoint htree (List.forall_mem_singleton.2 hroot) h
    · cases h
      exact .raise _ _ s
  · rename_i j stack heng
    obtain ⟨-, htree, -, hstack⟩ := hpoint _ heng
    obtain ⟨-, h⟩ := withNode_next h
    cases h
    exact .writeThen ⟨rfl, htree, (List.forall_mem_cons.1 hstack).2⟩
  · rename_i j stack heng
    obtain ⟨-, htree, hkind, hstack⟩ := hpoint _ heng
    obtain ⟨hj, hrest⟩ := List.forall_mem_cons.1 hstack
    obtain ⟨hleft, hright⟩ := NodeMem.treeAt_children hj hkind
    obtain ⟨-, h⟩ := withNode_next h
    exact sttLoopStep_atPoint htree (List.forall_mem_cons.2 ⟨hleft, List.forall_mem_cons.2 ⟨hright, hrest⟩⟩) h
  · rename_i stack heng
    obtain ⟨-, htree, hstack⟩ := hpoint _ heng
    exact sttLoopStep_atPoint htree hstack h
  · cases h

/-! DECODE -/

/-- Below an internal node of the tree either bit selects the root of a tree (R191). -/
theorem NodeMem.treeAt.child {m : NodeMem} {j : Nat} (h : m.treeAt j) (hkind : (m.read j).kind = .internal)
    (r : BitVec 1) : m.treeAt (childOf (m.read j) r).toNat := by
  obtain ⟨hleft, hright⟩ := NodeMem.treeAt_children h hkind
  unfold childOf
  split
  · exact hleft
  · exact hright

/-- In a tree whose root is no leaf DECODE descends from an internal node to a node of the tree. -/
theorem decDescend_atPoint {r : BitVec 1} {s t : State} (htree : s.treeValid = true) (hcur : s.nodes.treeAt s.cur.toNat)
    (hkind : (s.nodes.read s.cur.toNat).kind = .internal) (hroot : nodeIsLeaf (s.nodes.read 0) = false)
    (h : decDescend r s = .next t) : AtPoint .dec t := by
  obtain ⟨-, h⟩ := withNode_next h
  cases h
  refine .readThen ⟨rfl, htree, hcur.child hkind r, fun hleaf => ?_⟩
  exact absurd (hroot.symm.trans hleaf) Bool.false_ne_true

theorem execDec_atPoint {s t : State} (hmem : MemInv s) (hpoint : AtPoint .dec s) (h : execDec s = .next t) :
    AtPoint .dec t := by
  unfold execDec at h
  split at h
  · split at h
    · rename_i htree
      obtain ⟨-, h⟩ := withNode_next h
      split at h <;> cases h
      · exact .raise _ _ s
      · rename_i hroot
        simp only [Bool.and_eq_true, Bool.not_eq_true', not_and, Bool.not_eq_false] at hroot
        exact .readThen ⟨rfl, htree, hmem.treeAt_root htree, fun hleaf => ⟨hroot hleaf, rfl⟩⟩
    · cases h
      exact .raise _ _ s
  · rename_i r heng
    obtain ⟨-, htree, hcur, hroot⟩ := hpoint _ heng
    obtain ⟨-, h⟩ := withNode_next h
    split at h
    · cases h
      exact .finish _ s
    · rename_i heof
      have hinner : nodeIsLeaf (s.nodes.read 0) = false := by
        refine Bool.eq_false_iff.2 fun hleaf => heof ?_
        obtain ⟨hrootEof, hzero⟩ := hroot hleaf
        rw [hzero]
        exact hrootEof
      split at h
      · cases h
        exact .raise _ _ s
      · split at h
        · cases h
          exact .writeThen ⟨rfl, htree, hinner⟩
        · exact decDescend_atPoint htree hcur (kind_internal_of_not_leaf ‹_›) hinner h
  · rename_i b heng
    obtain ⟨-, htree, hinner⟩ := hpoint _ heng
    exact decDescend_atPoint (s := s.countSymbol.setCur 0) htree (hmem.treeAt_root htree)
      (kind_internal_of_not_leaf (Bool.eq_false_iff.1 hinner)) hinner h
  · cases h

/-! ### LOAD_TREE -/

theorem toNat_add_one {n : NodeIx} (h : n.toNat < Config.nodeCap) : (n + 1).toNat = n.toNat + 1 := by
  have hcap : Config.nodeCap = 513 := rfl
  exact BitVec.toNat_add_of_lt (y := (1 : NodeIx)) (show n.toNat + 1 < 2 ^ 10 by omega)

/-- Attaching node `n` as the right child of the stack's top leaves the spine of the rest ending at `n` (R150, R151). -/
theorem LoadOk.spine_attach {m : NodeMem} {n p : NodeIx} {rest : List NodeIx} (h : LoadOk m n (p :: rest) true) :
    Spine (m.write p.toNat { m.read p.toNat with right := n }) rest n.toNat := by
  obtain ⟨-, l, hspine, hopen, hleft, hn⟩ := h
  have hright : BitVec.ofNat 10 (p.toNat + 1 + l.size) = n := by rw [← hn]; simp
  rw [hn]
  refine .right (hspine.write _ (Nat.le_refl _)) ?_ (NodeMem.holds_write hleft _ (.inl (Nat.lt_succ_self _))) ?_
  · simpa [NodeMem.opensAt] using hopen
  · simp [hright]

/-- An internal node stored at the spine's end opens there (R150). -/
theorem Spine.openNode {m : NodeMem} {n : NodeIx} {rest : List NodeIx} (h : Spine m rest n.toNat) :
    Spine (m.write n.toNat (openNode n)) (n :: rest) (n.toNat + 1) := by
  refine .left (h.write _ (Nat.le_refl _)) ?_
  refine ⟨?_, ?_, ?_⟩
  · simp [Machine.openNode]
  · simp [Machine.openNode]
  · exact BitVec.eq_of_toNat_eq (by simp [Machine.openNode])

theorem NodeMem.holds_leaf (m : NodeMem) (j : Nat) {y : Symbol} (hy : y ≤ Config.eofSym) :
    (m.write j (leafNode y)).holds j (.leaf y) := ⟨NodeMem.read_write_same m j _, hy⟩

theorem ldtRaise_keeps {e : ErrCode} {s t : State} (hun : Unloaded s) (hc : s.codes.wf = true)
    (h : ldtRaise e s = .next t) : MemInv t ∧ AtPoint .ldt t := by
  cases h
  exact ⟨Unloaded.memInv (s := s.forgetNodes.raise e) hun rfl hc, .raise _ _ _⟩

/-- A node begun at the spine's end: LOAD_TREE reads its symbol, or opens it and reads the next flag (R150). -/
theorem ldtNode_keeps {b : BitVec 1} {n : NodeIx} {rest : List NodeIx} {s t : State} (hun : Unloaded s)
    (hn : s.nodes.wf = true) (hc : s.codes.wf = true) (hlt : n.toNat < Config.nodeCap)
    (hspine : Spine s.nodes rest n.toNat) (h : ldtNode b n rest s = .next t) : MemInv t ∧ AtPoint .ldt t := by
  unfold ldtNode at h
  split at h
  · cases h
    exact ⟨Unloaded.memInv hun hn hc, .readThen ⟨rfl, hun, toNat_add_one hlt, hlt, hspine⟩⟩
  · obtain ⟨-, h⟩ := putNode_next h
    cases h
    refine ⟨Unloaded.memInv hun (NodeMem.wf_write _ hn hlt) hc, .readThen ⟨rfl, hun, ?_, ?_⟩⟩
    · rw [toNat_add_one hlt]
      exact hlt
    · rw [toNat_add_one hlt]
      exact hspine.openNode

theorem ldtFlagStep_keeps {f : Option (BitVec 1)} {n : NodeIx} {stack : List NodeIx} {attach : Bool} {s t : State}
    (hmem : MemInv s) (hun : Unloaded s) (hload : LoadOk s.nodes n stack attach)
    (h : ldtFlagStep f n stack attach s = .next t) : MemInv t ∧ AtPoint .ldt t := by
  obtain ⟨hn, hc⟩ := Memory.wf_iff.1 hmem.mem
  rcases ldtFlagStep_next h with ⟨e, -, h⟩ | ⟨b, -, hcap, h⟩
  · exact ldtRaise_keeps hun hc h
  · have hlt : n.toNat < Config.nodeCap := Nat.lt_of_le_of_ne hload.1 hcap
    rcases ldtAttach_next h with ⟨rfl, h⟩ | ⟨p, rest, rfl, rfl, hp, h⟩
    · exact ldtNode_keeps hun hn hc hlt hload.2 h
    · have hwf := NodeMem.wf_write { s.nodes.read p.toNat with right := n } hn hp
      exact ldtNode_keeps (s := { s with nodes := s.nodes.write _ _ }) hun hwf hc hlt hload.spine_attach h

/-- The last leaf completes the tree; any other completes the left subtree of the stack's top (R150). -/
theorem ldtSymStep_keeps {v : Option Symbol} {n j : NodeIx} {stack : List NodeIx} {s t : State} (hmem : MemInv s)
    (hun : Unloaded s) (hnj : n.toNat = j.toNat + 1) (hj : j.toNat < Config.nodeCap)
    (hspine : Spine s.nodes stack j.toNat) (h : ldtSymStep v n j stack s = .next t) : MemInv t ∧ AtPoint .ldt t := by
  obtain ⟨hn, hc⟩ := Memory.wf_iff.1 hmem.mem
  unfold ldtSymStep at h
  split at h
  · exact ldtRaise_keeps hun hc h
  · rename_i y
    split at h
    · exact ldtRaise_keeps hun hc h
    · rename_i hy
      obtain ⟨-, h⟩ := putNode_next h
      have hleaf := s.nodes.holds_leaf j.toNat (BitVec.not_lt.1 hy)
      have hwf := NodeMem.wf_write (leafNode y) hn hj
      have hspine' := hspine.write (leafNode y) (Nat.le_refl _)
      split at h
      · cases h
        obtain ⟨u, hu, hsize⟩ := hspine'.close_root hleaf
        have hcount : n.toNat = u.size := by rw [hnj, hsize, Tree.size]
        have hcap : u.size ≤ Config.nodeCap := by
          rw [← hcount, hnj]
          exact hj
        have hnonzero : n ≠ 0 := by
          rintro rfl
          simp at hnj
        obtain ⟨-, hstale, -⟩ := hun
        have hnoTable : s.tableValid ≠ true := Bool.eq_false_iff.1 hstale
        exact ⟨⟨Memory.wf_iff.2 ⟨hwf, hc⟩, ⟨fun _ => hnonzero, fun _ => rfl⟩,
          fun _ => ⟨u, ⟨rfl, hcount, hcap, hu⟩, fun htable => absurd htable hnoTable⟩⟩, .finish _ _⟩
      · cases h
        refine ⟨Unloaded.memInv hun hwf hc, .readThen ⟨rfl, hun, ?_, ?_⟩⟩
        · rw [hnj]
          exact hj
        · rw [hnj]
          exact hspine'.close_left hleaf

theorem execLdt_keeps {s t : State} (hmem : MemInv s) (hpoint : AtPoint .ldt s) (h : execLdt s = .next t) :
    MemInv t ∧ AtPoint .ldt t := by
  unfold execLdt at h
  split at h
  · cases h
    obtain ⟨hn, hc⟩ := Memory.wf_iff.1 hmem.mem
    have hun : Unloaded s.flagsUnload := ⟨rfl, rfl, rfl⟩
    exact ⟨Unloaded.memInv hun hn hc, .readThen ⟨rfl, hun, Nat.zero_le _, .root⟩⟩
  · rename_i heng
    obtain ⟨-, hun, hload⟩ := hpoint _ heng
    exact ldtFlagStep_keeps hmem hun hload h
  · rename_i heng
    obtain ⟨-, hun, hnj, hj, hspine⟩ := hpoint _ heng
    exact ldtSymStep_keeps hmem hun hnj hj hspine h
  · cases h

/-! ### DERIVE -/

/-- With TABLE_VALID = 0 the code table may hold anything in canonical form. -/
theorem MemInv.of_stale {s t : State} (h : MemInv s) (htree : t.treeValid = s.treeValid)
    (hcount : t.nodeCount = s.nodeCount) (hnodes : t.nodes = s.nodes) (hstale : t.tableValid = false)
    (hcodes : t.codes.wf = true) : MemInv t := by
  obtain ⟨hn, -⟩ := Memory.wf_iff.1 h.mem
  refine ⟨Memory.wf_iff.2 ⟨hnodes ▸ hn, hcodes⟩, ?_, fun hvalid => ?_⟩
  · rw [htree, hcount]
    exact h.count
  · obtain ⟨tree, hhas, -⟩ := h.tree (htree ▸ hvalid)
    refine ⟨tree, ?_, fun htable => absurd (hstale.symm.trans htable) Bool.false_ne_true⟩
    simpa only [State.hasTree, htree, hcount, hnodes] using hhas

theorem drvRaise_keeps {e : ErrCode} {s t : State} (hmem : MemInv s) (hstale : s.tableValid = false)
    (h : drvRaise e s = .next t) : MemInv t ∧ AtPoint .drv t := by
  cases h
  exact ⟨hmem.of_stale rfl rfl rfl hstale rfl, .raise _ _ _⟩

/-- A visit of the whole tree over the zeroed table gives that tree's table (R141). -/
theorem hasTable_of_deriveCodes {tree : Tree} {c : CodeMem} (hsyms : tree.symsOk = true)
    (h : deriveCodes [] tree CodeMem.zeros = some c) :
    tree.symbols.Nodup ∧ ∀ y : Symbol, c.read y.toNat = tree.codeEntry y := by
  rcases deriveCodes_spec [] tree CodeMem.zeros CodeMem.wf_zeros hsyms with ⟨c', hc', hnodup, -, hread⟩ | ⟨hnone, -⟩
  · obtain rfl : c' = c := Option.some.inj (hc'.symm.trans h)
    refine ⟨hnodup, fun y => ?_⟩
    rw [hread y, Tree.codeEntry]
    cases tree.code y <;> rfl
  · rw [hnone] at h
    cases h

/-- DERIVE's loop over the loaded tree and the zeroed table builds that tree's table, or raises (R140). -/
theorem drvLoop_keeps {s t : State} (hmem : MemInv s) (htree : s.treeValid = true) (hstale : s.tableValid = false)
    (hzeros : s.codes = CodeMem.zeros) (h : drvLoop drvFuel [(0, 0, 0)] s = .next t) : MemInv t ∧ AtPoint .drv t := by
  obtain ⟨tree, hhas, -⟩ := hmem.tree htree
  obtain ⟨-, hcount, hsize, hholds⟩ := hhas
  have hsyms := NodeMem.holds_symsOk hholds
  have hloop := drvLoop_tree (i := 0) (pre := []) (rest := []) hholds
    (by simpa using hsize) (fuel := drvFuel) (by simp only [drvFuel]; omega)
  rw [hzeros] at hloop
  rw [show drvLoop drvFuel [(0, 0, 0)] s = _ from hloop] at h
  split at h
  · exact drvRaise_keeps hmem hstale h
  · rename_i c hc
    rw [drvLoop] at h
    cases h
    obtain ⟨hnodup, hread⟩ := hasTable_of_deriveCodes hsyms hc
    obtain ⟨hn, -⟩ := Memory.wf_iff.1 hmem.mem
    have hcwf : c.wf = true := deriveCodes_wf hc CodeMem.wf_zeros hsyms
    exact ⟨⟨Memory.wf_iff.2 ⟨hn, hcwf⟩, hmem.count,
      fun _ => ⟨tree, ⟨htree, hcount, hsize, hholds⟩, fun _ => ⟨hnodup, fun y _ => hread y⟩⟩⟩, .finish _ _⟩

theorem execDrv_keeps {s t : State} (hreg : RegInv s) (hmem : MemInv s) (h : execDrv s = .next t) :
    MemInv t ∧ AtPoint .drv t := by
  unfold execDrv at h
  split at h
  · split at h
    · rename_i htree
      have hstart : MemInv s.flagTableStale.zeroCodes := hmem.of_stale rfl rfl rfl rfl rfl
      exact drvLoop_keeps hstart htree rfl rfl h
    · rename_i htree
      exact drvRaise_keeps hmem (Bool.eq_false_iff.2 fun htable => htree (hreg.table htable)) h
  · cases h

/-! ### Every step -/

/-- One step of any command keeps the memories' rules and leads to a point of the same command. -/
theorem exec_keeps {i : Instr} {s t : State} (hi : ∀ ignored, i ≠ .srst ignored) (hreg : RegInv s) (hmem : MemInv s)
    (hpoint : AtPoint i s) (h : exec i s = .next t) : MemInv t ∧ AtPoint i t := by
  have hother : i ≠ .ldt → i ≠ .drv → MemInv t := fun hl hd => hmem.congr ((exec_ends hi h).sameMemory hl hd)
  cases i with
  | ldt => exact execLdt_keeps hmem hpoint h
  | drv => exact execDrv_keeps hreg hmem h
  | nop => exact ⟨hother nofun nofun, execNop_atPoint h⟩
  | stt => exact ⟨hother nofun nofun, execStt_atPoint hmem hpoint h⟩
  | ckm => exact ⟨hother nofun nofun, execCkm_atPoint h⟩
  | wrm => exact ⟨hother nofun nofun, execWrm_atPoint h⟩
  | enc => exact ⟨hother nofun nofun, execEnc_atPoint hpoint h⟩
  | ens b => exact ⟨hother nofun nofun, encodeSymbol_atPoint (.inl ⟨b, rfl, rfl⟩) hpoint h⟩
  | ensEof => exact ⟨hother nofun nofun, encodeSymbol_atPoint (.inr ⟨rfl, rfl⟩) hpoint h⟩
  | dec => exact ⟨hother nofun nofun, execDec_atPoint hmem hpoint h⟩
  | rwd => exact ⟨hother nofun nofun, execRwd_atPoint h⟩
  | srst ignored => exact absurd rfl (hi ignored)
  | illegal w => exact ⟨hother nofun nofun, execIllegal_atPoint h⟩

/-- CMDLATCH holds the accepted word as long as the command runs (R21, R120). -/
theorem Ends.cmdLatch {i : Instr} {s t : State} {p : Point} (ends : Ends i s t) (hrun : t.eng = .run p) :
    t.cmdLatch = s.cmdLatch := by
  cases ends with
  | resume q body => exact body.cmdLatch
  | finish | raise => cases hrun

theorem engineTurn_inv {s t : State} (h : Inv s) (turn : engineTurn s = .next t) : Inv t := by
  rcases engineTurn_cases turn with ⟨-, rfl⟩ | ⟨p, -, hexec, ends⟩
  · exact h
  · obtain ⟨hmem, hpoint⟩ := exec_keeps (decodeCmd_ne_srst _) h.regs h.memInv h.point hexec
    refine hmem.inv (engineTurn_regInv h.regs turn) fun q hq => ?_
    rw [ends.cmdLatch hq]
    exact hpoint q hq

/-- What the machine invariant says does not depend on OVR, the agenda or the values read. -/
theorem Inv.congr {s t : State} (h : Inv s) (hreg : RegInv t) (same : SameMemory s t) (heng : t.eng = s.eng)
    (hlatch : t.cmdLatch = s.cmdLatch) (hcur : t.cur = s.cur) : Inv t := by
  refine (h.memInv.congr same).inv hreg fun p hp => ?_
  rw [hlatch]
  exact (h.point p (heng ▸ hp)).congr same hcur

theorem Inv.accept {s : State} (h : Inv s) (w : Word32) : Inv (s.accept w) := by
  refine (h.memInv.congr (t := s.accept w) ⟨rfl, rfl, rfl, rfl, rfl⟩).inv (h.regs.accept w) fun p hp => ?_
  cases hp
  trivial

theorem Inv.resetBlock {s : State} (h : Inv s) : Inv s.resetBlock :=
  (Unloaded.memInv (s := s.resetBlock) ⟨rfl, rfl, rfl⟩ rfl rfl).inv h.regs.resetBlock nofun

theorem Moved.inv {m : Move} {s t : State} (moved : Moved m s t) (h : Inv s) : Inv t := by
  have hreg : RegInv t := moved.regInv h.regs
  cases moved with
  | engine _ turn => exact engineTurn_inv h turn
  | reset => exact h.resetBlock
  | accepted w => exact h.accept w
  | dropped => exact h.congr hreg ⟨rfl, rfl, rfl, rfl, rfl⟩ rfl rfl rfl
  | quiet => exact h.congr hreg ⟨rfl, rfl, rfl, rfl, rfl⟩ rfl rfl rfl

/-- Settles O56: each command's step keeps the invariant from the points its own pseudocode reaches, and a host move ends
the command, starts one at `start`, or leaves memories and ENG alone. -/
theorem stepKeepsMachineInvariant : Obligations.StepKeepsMachineInvariant := by
  intro s t h hstep
  rcases step_cases hstep with ⟨-, turn⟩ | ⟨m, rest, -, moved⟩
  · exact engineTurn_inv h turn
  · exact moved.inv (h.congr { h.regs with } ⟨rfl, rfl, rfl, rfl, rfl⟩ rfl rfl rfl)

/-- Settles O55: nothing is loaded, no command runs and IN is empty. -/
theorem machineInvariantAtReset : Obligations.MachineInvariantAtReset := by
  refine (Unloaded.memInv (s := State.reset) ⟨rfl, rfl, rfl⟩ rfl rfl).inv ?_ nofun
  exact ⟨Nat.le_refl 0, magicValue_ne_zero, nofun, nofun, ⟨nofun, fun hcode => absurd rfl hcode⟩, nofun⟩

end Sys2Proof.Machine
end

section
/-! PROOFS. The stream ports and the host's port: O13, O17, O18, O19, O22 (spec/20_memory.md R61 to R69;
spec/40_command_control.md R127). -/

namespace Sys2Proof.Machine

/-! ### ReadBits and WriteBits -/

/-- The value of a bit string is the sum of its bits' weights, the first bit's the greatest (R64). -/
theorem bitsValue_eq_sum (bits : List Bool) :
    bitsValue bits =
      ((List.range bits.length).map fun k => (bits.getD k false).toNat * 2 ^ (bits.length - 1 - k)).sum := by
  induction bits with
  | nil => rfl
  | cons b rest ih =>
    rw [bitsValue_cons, ih, List.length_cons, List.range_succ_eq_map]
    simp [Function.comp_def, Nat.sub_sub, Nat.add_comm]

/-- Bit `k` of the next `n` bits is the bit `k` places after the cursor (R62). -/
theorem State.getD_take_unread (s : State) {n k : Nat} (h : k < n) :
    (s.unread.take n).getD k false = s.input.getD (s.ip + k) false := by
  simp [State.unread, List.getD_eq_getElem?_getD, h]

/-- The value a read returns is the number its bits spell (R64). -/
theorem State.toNat_ofNat_bitsValue_take (s : State) {n : Nat} (h : n ≤ s.unread.length) :
    (BitVec.ofNat n (bitsValue (s.unread.take n))).toNat =
      ((List.range n).map fun k => (s.input.getD (s.ip + k) false).toNat * 2 ^ (n - 1 - k)).sum := by
  have hlen : (s.unread.take n).length = n := List.length_take_of_le h
  have hlt := bitsValue_lt (s.unread.take n)
  rw [hlen] at hlt
  rw [BitVec.toNat_ofNat, Nat.mod_eq_of_lt hlt, bitsValue_eq_sum, hlen]
  refine congrArg List.sum (List.map_congr_left fun k hk => ?_)
  rw [s.getD_take_unread (List.mem_range.1 hk)]

/-- Settles O17: the two clauses are the two branches of `ReadBits`, enough bits left or not. -/
theorem readBitsContract : Obligations.ReadBitsContract := by
  intro n s _
  refine ⟨rfl, fun henough => ?_, fun hshort => ?_⟩
  · have hunread : n ≤ s.unread.length := s.length_unread ▸ henough
    refine ⟨_, State.peekBits_some hunread, s.toNat_ofNat_bitsValue_take hunread, if_pos henough, ?_⟩
    rw [State.consume_inBits, State.readSize, Nat.min_eq_left henough]
  · refine ⟨State.peekBits_none (s.length_unread ▸ hshort), if_neg (Nat.not_le.2 hshort), ?_⟩
    rw [State.consume_inBits, State.readSize, Nat.min_eq_right (Nat.le_of_lt hshort)]

/-- Settles O18. -/
theorem writeBitsContract : Obligations.WriteBitsContract := by
  intro n v s
  rw [← lowBits_eq_map]
  rfl

theorem bitsOfBytes_cons (b : Byte) (rest : List Byte) :
    bitsOfBytes (b :: rest) = lowBits 8 b.toNat ++ bitsOfBytes rest := rfl

/-- Settles O19: the byte's eight bits are the first ones left, and their value is the byte. -/
theorem byteReadsBack : Obligations.ByteReadsBack := by
  intro b rest tail s hunread
  rw [bitsOfBytes_cons, List.append_assoc] at hunread
  constructor
  · rw [State.peekBits_some (by simp [hunread]), hunread, List.take_left' (length_lowBits 8 _), bitsValue_lowBits,
      Nat.mod_eq_of_lt b.isLt, BitVec.ofNat_toNat, BitVec.setWidth_eq]
  · rw [State.consume_unread, hunread, List.drop_left' (length_lowBits 8 _)]

/-! ### The host's port and REWIND -/

/-- Settles O13: reads and writes pass the same test, which is R61's three conditions. -/
theorem oddHostAccessRefused : Obligations.OddHostAccessRefused := by
  intro s width offset w hodd
  have hrefused : ¬accessOk width offset = true := by
    rw [accessOk_iff]
    omega
  exact ⟨if_neg hrefused, if_neg hrefused⟩

/-- Settles O22: the first step rewinds and resumes at `rwdDone`, the second finishes. -/
theorem rewindSetsCursor : Obligations.RewindSetsCursor := by
  intro s hstart
  have ⟨hrun, hdecode⟩ := hstart
  have hfirst : exec .rwd s = .next (s.rewind.resumeAt .rwdDone) := by simp only [exec, execRwd, hrun]
  have hsecond : exec .rwd (s.rewind.resumeAt .rwdDone) = .next (s.rewind.resumeAt .rwdDone).finish := rfl
  have hturn : engineTurn (s.rewind.resumeAt .rwdDone) = .next (s.rewind.resumeAt .rwdDone).finish := by
    rw [engineTurn_run rfl, State.resumeAt_cmdLatch, State.rewind_cmdLatch, hdecode, hsecond]
  refine ⟨_, _, hfirst, rfl, hsecond, ?_, rfl⟩
  rw [engineSteps_succ (hstart.turn.trans hfirst), engineSteps_succ hturn, engineSteps_zero]

end Sys2Proof.Machine
end

section
/-! PROOFS. One engine step as a chain of the model's shared updates, each by the commands that may make it
(spec/20_memory.md R62 to R69; spec/40_command_control.md R124, R125), and from it O20. -/

namespace Sys2Proof.Machine

/-! ### The updates -/

/-- The commands that read IN (R62). -/
def readsInput : Instr → Bool
  | .ldt | .ckm | .enc | .dec => true
  | _ => false

/-- The commands that write OUT (R68). -/
def writesOutput : Instr → Bool
  | .stt | .wrm | .enc | .ens _ | .ensEof | .dec => true
  | _ => false

/-- The commands that write SYM_COUNT (R37). -/
def writesSymCount : Instr → Bool
  | .enc | .ens _ | .ensEof | .dec => true
  | _ => false

/-- One update of the state in a step of the command `i`. -/
inductive Update (i : Instr) (s : State) : State → Prop
  | consume (n : Nat) (hi : readsInput i = true) : Update i s (s.consume n)
  | writeBits (n v : Nat) (hi : writesOutput i = true) : Update i s (s.writeBits n v)
  | setSymCount (c : Word32) (hi : writesSymCount i = true) : Update i s { s with symCount := c }
  | rewind (hi : i = .rwd) : Update i s s.rewind
  | setCur (j : NodeIx) (hi : i = .dec) : Update i s (s.setCur j)
  /-- LOAD_TREE's stores to NODE and to the registers of the loaded tree (R29, R30, R34). -/
  | load (treeValid tableValid : Bool) (nodeCount : NodeIx) (nodes : NodeMem) (draws : Nat) (hi : i = .ldt) :
      Update i s { s with treeValid := treeValid, tableValid := tableValid, nodeCount := nodeCount, nodes := nodes,
                          draws := draws }
  /-- DERIVE's stores to CODE and TABLE_VALID (R30, R140). -/
  | derive (tableValid : Bool) (codes : CodeMem) (draws : Nat) (hi : i = .drv) :
      Update i s { s with tableValid := tableValid, codes := codes, draws := draws }
  | resumeAt (p : Point) : Update i s (s.resumeAt p)
  | finish : Update i s s.finish
  | raise (e : ErrCode) : Update i s (s.raise e)

/-- The updates of a step of `i`, one after the other. -/
abbrev Updates (i : Instr) : State → State → Prop := Relation.ReflTransGen (Update i)

namespace Updates

variable {i : Instr} {s u : State}

theorem readThen (h : Updates i s u) (n : Nat) (p : Option (BitVec n) → Point) (hi : readsInput i = true) :
    Updates i s (u.readThen n p) :=
  (h.tail (.consume n hi)).tail (.resumeAt _)

theorem writeThen (h : Updates i s u) (n v : Nat) (p : Point) (hi : writesOutput i = true) :
    Updates i s (u.writeThen n v p) :=
  (h.tail (.writeBits n v hi)).tail (.resumeAt _)

theorem finish (h : Updates i s u) : Updates i s u.finish := h.tail .finish

theorem raise (h : Updates i s u) (e : ErrCode) : Updates i s (u.raise e) := h.tail (.raise e)

end Updates

/-! ### The commands -/

theorem execNop_updates {s t : State} (h : execNop s = .next t) : Updates .nop s t := by
  unfold execNop at h
  split at h <;> cases h
  exact .finish .refl

theorem execIllegal_updates {w : Word32} {s t : State} (h : execIllegal w s = .next t) :
    Updates (.illegal w) s t := by
  unfold execIllegal at h
  split at h <;> cases h
  exact .raise .refl _

theorem execRwd_updates {s t : State} (h : execRwd s = .next t) : Updates .rwd s t := by
  unfold execRwd at h
  split at h <;> cases h
  · exact .tail (.single (.rewind rfl)) (.resumeAt _)
  · exact .finish .refl

theorem execCkm_updates {s t : State} (h : execCkm s = .next t) : Updates .ckm s t := by
  unfold execCkm at h
  split at h
  · cases h
    exact .readThen .refl _ _ rfl
  · split at h <;> cases h
    · exact .finish .refl
    · exact .raise .refl _
  · cases h

theorem execWrm_updates {s t : State} (h : execWrm s = .next t) : Updates .wrm s t := by
  unfold execWrm at h
  split at h <;> cases h
  · exact .writeThen .refl _ _ _ rfl
  · exact .finish .refl

/-! DECODE -/

theorem decDescend_updates {r : BitVec 1} {s u t : State} (hu : Updates .dec s u) (h : decDescend r u = .next t) :
    Updates .dec s t := by
  obtain ⟨-, h⟩ := withNode_next h
  cases h
  exact .readThen (hu.tail (.setCur _ rfl)) _ _ rfl

theorem decReadStep_updates {r : Option (BitVec 1)} {s t : State} (h : decReadStep r s = .next t) :
    Updates .dec s t := by
  obtain ⟨-, h⟩ := withNode_next h
  split at h
  · cases h
    exact .finish .refl
  · split at h
    · cases h
      exact .raise .refl _
    · split at h
      · cases h
        exact .writeThen .refl _ _ _ rfl
      · exact decDescend_updates .refl h

theorem execDec_updates {s t : State} (h : execDec s = .next t) : Updates .dec s t := by
  unfold execDec at h
  split at h
  · split at h
    · obtain ⟨-, h⟩ := withNode_next h
      split at h <;> cases h
      · exact .raise .refl _
      · exact .readThen (.single (.setCur 0 rfl)) _ _ rfl
    · cases h
      exact .raise .refl _
  · exact decReadStep_updates h
  · exact decDescend_updates (.tail (.single (.setSymCount _ rfl)) (.setCur 0 rfl)) h
  · cases h

/-! ENCODE and ENCODE_SYM -/

theorem emitCode_updates {i : Instr} {c : CodeEntry} {k : Nat} {p : Nat → Point} {s t : State}
    {rest : State → Result} (hi : writesOutput i = true) (hrest : rest s = .next t → Updates i s t)
    (h : emitCode c k p s rest = .next t) : Updates i s t := by
  rcases emitCode_next h with ⟨-, rfl⟩ | ⟨-, h⟩
  · exact .writeThen .refl _ _ _ hi
  · exact hrest h

theorem encAfter_updates {y : Symbol} {s t : State} (h : encAfter y s = .next t) : Updates .enc s t := by
  unfold encAfter at h
  split at h <;> cases h
  · exact .finish .refl
  · exact .readThen (.single (.setSymCount _ rfl)) _ _ rfl

theorem execEnc_updates {s t : State} (h : execEnc s = .next t) : Updates .enc s t := by
  unfold execEnc at h
  split at h
  · split at h <;> cases h
    · exact .readThen .refl _ _ rfl
    · exact .raise .refl _
  · obtain ⟨-, h⟩ := withCode_next h
    split at h
    · exact emitCode_updates rfl encAfter_updates h
    · cases h
      exact .raise .refl _
  · obtain ⟨-, h⟩ := withCode_next h
    exact emitCode_updates rfl encAfter_updates h
  · cases h

theorem encodeSymbol_updates {i : Instr} {y : Symbol} {s t : State} (hi : EncodesSymbol i y)
    (h : encodeSymbol y s = .next t) : Updates i s t := by
  have hwrites : writesOutput i = true ∧ writesSymCount i = true := by
    rcases hi with ⟨b, rfl, -⟩ | ⟨rfl, -⟩ <;> exact ⟨rfl, rfl⟩
  obtain ⟨hout, hcount⟩ := hwrites
  have hfinish : ensFinish s = .next t → Updates i s t := by
    rintro ⟨⟩
    exact .finish (.single (.setSymCount 1 hcount))
  unfold encodeSymbol at h
  split at h
  · split at h
    · obtain ⟨-, h⟩ := withCode_next h
      split at h
      · exact emitCode_updates hout hfinish h
      · cases h
        exact .raise .refl _
    · cases h
      exact .raise .refl _
  · obtain ⟨-, h⟩ := withCode_next h
    exact emitCode_updates hout hfinish h
  · cases h

/-! STORE_TREE -/

theorem sttLoopStep_updates {stack : List NodeIx} {s t : State} (h : sttLoopStep stack s = .next t) :
    Updates .stt s t := by
  cases stack with
  | nil =>
    cases h
    exact .finish .refl
  | cons j rest =>
    unfold sttLoopStep at h
    obtain ⟨-, h⟩ := withNode_next h
    split at h <;> cases h
    · exact .writeThen .refl _ _ _ rfl
    · exact .writeThen .refl _ _ _ rfl

theorem execStt_updates {s t : State} (h : execStt s = .next t) : Updates .stt s t := by
  unfold execStt at h
  split at h
  · split at h
    · exact sttLoopStep_updates h
    · cases h
      exact .raise .refl _
  · obtain ⟨-, h⟩ := withNode_next h
    cases h
    exact .writeThen .refl _ _ _ rfl
  · obtain ⟨-, h⟩ := withNode_next h
    exact sttLoopStep_updates h
  · exact sttLoopStep_updates h
  · cases h

/-! LOAD_TREE -/

theorem Update.setNodes (s : State) (nodes : NodeMem) : Update .ldt s { s with nodes := nodes } :=
  .load _ _ _ _ _ rfl

theorem ldtRaise_updates {e : ErrCode} {s t : State} (h : ldtRaise e s = .next t) : Updates .ldt s t := by
  cases h
  exact .raise (.single (.load _ _ _ _ _ rfl)) _

theorem ldtNode_updates {b : BitVec 1} {n : NodeIx} {rest : List NodeIx} {s u t : State} (hu : Updates .ldt s u)
    (h : ldtNode b n rest u = .next t) : Updates .ldt s t := by
  unfold ldtNode at h
  split at h
  · cases h
    exact .readThen hu _ _ rfl
  · obtain ⟨-, h⟩ := putNode_next h
    cases h
    exact .readThen (hu.tail (.setNodes u _)) _ _ rfl

theorem ldtFlagStep_updates {f : Option (BitVec 1)} {n : NodeIx} {stack : List NodeIx} {attach : Bool} {s t : State}
    (h : ldtFlagStep f n stack attach s = .next t) : Updates .ldt s t := by
  rcases ldtFlagStep_next h with ⟨e, -, h⟩ | ⟨b, -, -, h⟩
  · exact ldtRaise_updates h
  · rcases ldtAttach_next h with ⟨-, h⟩ | ⟨p, rest, -, -, -, h⟩
    · exact ldtNode_updates .refl h
    · exact ldtNode_updates (.single (.setNodes s _)) h

theorem ldtSymStep_updates {v : Option Symbol} {n j : NodeIx} {stack : List NodeIx} {s t : State}
    (h : ldtSymStep v n j stack s = .next t) : Updates .ldt s t := by
  unfold ldtSymStep at h
  split at h
  · exact ldtRaise_updates h
  · split at h
    · exact ldtRaise_updates h
    · obtain ⟨-, h⟩ := putNode_next h
      split at h <;> cases h
      · exact .finish (.tail (.single (.setNodes s _)) (.load _ _ _ _ _ rfl))
      · exact .readThen (.single (.setNodes s _)) _ _ rfl

theorem execLdt_updates {s t : State} (h : execLdt s = .next t) : Updates .ldt s t := by
  unfold execLdt at h
  split at h
  · cases h
    exact .readThen (.single (.load _ _ _ _ _ rfl)) _ _ rfl
  · exact ldtFlagStep_updates h
  · exact ldtSymStep_updates h
  · cases h

/-! DERIVE -/

theorem drvRaise_updates {e : ErrCode} {s u t : State} (hu : Updates .drv s u) (h : drvRaise e u = .next t) :
    Updates .drv s t := by
  cases h
  exact .raise (hu.tail (.derive _ _ _ rfl)) _

theorem drvLoop_updates {fuel : Nat} {stack : List (NodeIx × Nat × Nat)} {s u t : State} (hu : Updates .drv s u)
    (h : drvLoop fuel stack u = .next t) : Updates .drv s t := by
  induction fuel generalizing stack u with
  | zero =>
    cases stack with
    | nil =>
      cases h
      exact .finish (hu.tail (.derive _ _ _ rfl))
    | cons => cases h
  | succ fuel ih =>
    cases stack with
    | nil =>
      cases h
      exact .finish (hu.tail (.derive _ _ _ rfl))
    | cons top rest =>
      obtain ⟨-, h⟩ := withNode_next h
      split at h
      · obtain ⟨-, h⟩ := withCode_next h
        split at h
        · exact drvRaise_updates hu h
        · exact ih (hu.tail (.derive _ _ _ rfl)) h
      · exact ih hu h

theorem execDrv_updates {s t : State} (h : execDrv s = .next t) : Updates .drv s t := by
  unfold execDrv at h
  split at h
  · split at h
    · exact drvLoop_updates (.single (.derive _ _ _ rfl)) h
    · exact drvRaise_updates .refl h
  · cases h

/-- One step of any command is a chain of that command's updates; SRST is no command (R128). -/
theorem exec_updates {i : Instr} {s t : State} (hi : ∀ ignored, i ≠ .srst ignored) (h : exec i s = .next t) :
    Updates i s t := by
  cases i with
  | nop => exact execNop_updates h
  | ldt => exact execLdt_updates h
  | stt => exact execStt_updates h
  | drv => exact execDrv_updates h
  | ckm => exact execCkm_updates h
  | wrm => exact execWrm_updates h
  | enc => exact execEnc_updates h
  | ens b => exact encodeSymbol_updates (.inl ⟨b, rfl, rfl⟩) h
  | ensEof => exact encodeSymbol_updates (.inr ⟨rfl, rfl⟩) h
  | dec => exact execDec_updates h
  | rwd => exact execRwd_updates h
  | srst ignored => exact absurd rfl (hi ignored)
  | illegal w => exact execIllegal_updates h

/-! ### IN, MAGIC and OUT -/

/-- From `s` to `t` IN and MAGIC stay and OUT only grows (R62, R33, R68). -/
structure StreamsGrow (s t : State) : Prop where
  input : t.input = s.input
  magic : t.magic = s.magic
  out : s.out <+: t.out

theorem StreamsGrow.of_out_eq {s t : State} (hinput : t.input = s.input) (hmagic : t.magic = s.magic)
    (hout : t.out = s.out) : StreamsGrow s t := ⟨hinput, hmagic, [], by rw [List.append_nil, hout]⟩

theorem StreamsGrow.trans {s u t : State} (h : StreamsGrow s u) (h' : StreamsGrow u t) : StreamsGrow s t :=
  ⟨h'.input.trans h.input, h'.magic.trans h.magic, h.out.trans h'.out⟩

/-- WriteBits is the only update of OUT, and it appends (R68). -/
theorem Update.streamsGrow {i : Instr} {s t : State} (h : Update i s t) : StreamsGrow s t := by
  cases h with
  | writeBits n v => exact ⟨rfl, rfl, ⟨_, rfl⟩⟩
  | consume | setSymCount | rewind | setCur | load | derive | resumeAt | finish | raise =>
    exact .of_out_eq rfl rfl rfl

theorem Updates.streamsGrow {i : Instr} {s t : State} (h : Updates i s t) : StreamsGrow s t := by
  induction h with
  | refl => exact .of_out_eq rfl rfl rfl
  | tail _ update ih => exact ih.trans update.streamsGrow

theorem engineTurn_streamsGrow {s t : State} (h : engineTurn s = .next t) : StreamsGrow s t := by
  rcases engineTurn_cases h with ⟨-, rfl⟩ | ⟨p, -, hexec, -⟩
  · exact .of_out_eq rfl rfl rfl
  · exact (exec_updates (decodeCmd_ne_srst _) hexec).streamsGrow

theorem Moved.streamsGrow {m : Move} {s t : State} (moved : Moved m s t) : StreamsGrow s t := by
  cases moved with
  | engine _ turn => exact engineTurn_streamsGrow turn
  | reset | accepted | dropped | quiet => exact .of_out_eq rfl rfl rfl

/-- Settles O20: no update of a command touches IN or MAGIC, a `raise` undoes nothing (R125), and no move of the host
or the platform touches a stream. -/
theorem inputFixedOutputGrows : Obligations.InputFixedOutputGrows := by
  intro s t h
  have grows : StreamsGrow s t := by
    rcases step_cases h with ⟨-, turn⟩ | ⟨m, rest, -, moved⟩
    · exact engineTurn_streamsGrow turn
    · exact { moved.streamsGrow with }
  exact ⟨grows.input, grows.magic, grows.out⟩

end Sys2Proof.Machine
end

section
/-! PROOFS. Command words, host words and serialized trees: O3, O4, O5, O6, O15, O32 (spec/30_encoding.md R90 to R94,
R99; spec/10_state.md R25; spec/40_command_control.md R123, R125). -/

namespace Sys2Proof.Machine

/-! ### The fields of a command word -/

theorem toNat_opField (w : Word32) : (opField w).toNat = w.toNat % 16 := by
  simp [opField]

theorem toNat_symField (w : Word32) : (symField w).toNat = w.toNat / 16 % 512 := by
  simp [symField, Nat.shiftRight_eq_div_pow]

theorem toNat_rsvField (w : Word32) : (rsvField w).toNat = w.toNat / 2 ^ 13 := by
  have := w.isLt
  simp only [rsvField, BitVec.extractLsb'_toNat, Nat.shiftRight_eq_div_pow]
  omega

theorem opField_eq_seven_iff (w : Word32) : opField w = 7 ↔ w.toNat % 16 = 7 := by
  rw [← toNat_opField, ← BitVec.toNat_inj]
  rfl

theorem symField_eq_zero_iff (w : Word32) : symField w = 0 ↔ w.toNat / 16 % 512 = 0 := by
  rw [← toNat_symField, ← BitVec.toNat_inj]
  rfl

theorem rsvField_eq_zero_iff (w : Word32) : rsvField w = 0 ↔ w.toNat / 2 ^ 13 = 0 := by
  rw [← toNat_rsvField, ← BitVec.toNat_inj]
  rfl

theorem toNat_cmdWord (op : BitVec 4) (sym : Symbol) : (cmdWord op sym).toNat = 16 * sym.toNat + op.toNat := by
  rw [cmdWord, BitVec.toNat_append, BitVec.toNat_append, Nat.shiftLeft_eq, Nat.mul_comm _ (2 ^ 4),
    ← Nat.two_pow_add_eq_or_of_lt op.isLt]
  simp

@[simp] theorem opField_cmdWord (op : BitVec 4) (sym : Symbol) : opField (cmdWord op sym) = op := by
  apply BitVec.eq_of_toNat_eq
  rw [toNat_opField, toNat_cmdWord]
  omega

@[simp] theorem symField_cmdWord (op : BitVec 4) (sym : Symbol) : symField (cmdWord op sym) = sym := by
  apply BitVec.eq_of_toNat_eq
  rw [toNat_symField, toNat_cmdWord]
  omega

@[simp] theorem rsvField_cmdWord (op : BitVec 4) (sym : Symbol) : rsvField (cmdWord op sym) = 0 := by
  rw [rsvField_eq_zero_iff, toNat_cmdWord]
  omega

/-- A word whose RSV field is 0 is the command word of its OP and SYM fields (R90). -/
theorem cmdWord_fields {w : Word32} (h : rsvField w = 0) : cmdWord (opField w) (symField w) = w := by
  rw [rsvField_eq_zero_iff] at h
  apply BitVec.eq_of_toNat_eq
  rw [toNat_cmdWord, toNat_opField, toNat_symField]
  omega

/-- A word whose RSV and SYM fields are 0 is the word of its OP (R91). -/
theorem cmdWord_opField {w : Word32} (hrsv : rsvField w = 0) (hsym : symField w = 0) : cmdWord (opField w) 0 = w :=
  hsym ▸ cmdWord_fields hrsv

/-! ### Which words spell a command -/

/-- The words R91 does not list are those that fail one of R93's four tests. -/
theorem legalWord_eq_false_iff (w : Word32) :
    legalWord w = false ↔
      (w.toNat / 2 ^ 13 ≠ 0 ∨ 10 ≤ w.toNat % 16 ∨ (w.toNat % 16 ≠ 7 ∧ w.toNat / 16 % 512 ≠ 0) ∨
        (w.toNat % 16 = 7 ∧ 256 < w.toNat / 16 % 512)) := by
  simp only [legalWord, Bool.or_eq_false_iff, Bool.and_eq_false_iff, decide_eq_false_iff_not, beq_eq_false_iff_ne]
  omega

theorem decodeEns_eq_illegal_iff (w : Word32) : decodeEns w = .illegal w ↔ 256 < w.toNat / 16 % 512 := by
  unfold decodeEns
  rw [toNat_symField]
  split_ifs with hbyte heof
  · exact iff_of_false nofun (by omega)
  · exact iff_of_false nofun (by omega)
  · exact iff_of_true rfl (by omega)

/-- The ten operations of R91, each with its word that has no operand. -/
theorem decodeOp_cmdWord_ne_illegal : ∀ op : BitVec 4, op.toNat < 10 →
    decodeOp (cmdWord op 0) ≠ .illegal (cmdWord op 0) := by decide

theorem decodeOp_ne_illegal {w : Word32} (hrsv : w.toNat / 2 ^ 13 = 0) (hsym : w.toNat / 16 % 512 = 0)
    (hop : w.toNat % 16 < 10) : decodeOp w ≠ .illegal w := by
  rw [← toNat_opField] at hop
  rw [← cmdWord_opField ((rsvField_eq_zero_iff w).2 hrsv) ((symField_eq_zero_iff w).2 hsym)]
  exact decodeOp_cmdWord_ne_illegal (opField w) hop

/-- The four tests of R123 refuse the words R91 does not list, and no other (R93). -/
theorem decodeCmd_eq_illegal_iff (w : Word32) : decodeCmd w = .illegal w ↔ legalWord w = false := by
  rw [legalWord_eq_false_iff]
  simp only [decodeCmd, ne_eq, ite_not, rsvField_eq_zero_iff, toNat_opField, opField_eq_seven_iff,
    symField_eq_zero_iff]
  split_ifs with hrsv hop hens hsym
  · exact iff_of_true rfl (by omega)
  · rw [decodeEns_eq_illegal_iff]
    omega
  · exact iff_of_false (decodeOp_ne_illegal hrsv hsym (Nat.lt_of_not_le hop)) (by omega)
  · exact iff_of_true rfl (by omega)
  · exact iff_of_true rfl (by omega)

/-! ### Decoding what is encoded -/

/-- ENCODE_SYM's row of the decoder: RSV is 0, OP is 7, and SYM is the operand (R92). -/
theorem decodeCmd_ens (sym : Symbol) : decodeCmd (cmdWord 7 sym) = decodeEns (cmdWord 7 sym) := by
  simp [decodeCmd]

theorem toNat_symbolOfByte (b : Byte) : (symbolOfByte b).toNat = b.toNat := BitVec.toNat_setWidth_of_le (by decide)

/-- A data byte is a symbol below 256, so it comes back as itself (R92). -/
theorem decodeEns_symbolOfByte (b : Byte) : decodeEns (cmdWord 7 (symbolOfByte b)) = .ens b := by
  have hbyte : (symbolOfByte b).toNat < 256 := toNat_symbolOfByte b ▸ b.isLt
  rw [decodeEns, symField_cmdWord, if_pos hbyte, symbolOfByte, BitVec.setWidth_setWidth_of_le _ (by decide),
    BitVec.setWidth_eq]

/-- A CTRL word with bit 0 = 1 is SRST, and its other bits are kept (R25). -/
theorem decodeCtrl_srst (ignored : BitVec 31) :
    decodeCtrl (ignored ++ (1 : BitVec 1)) = .ok (.srst ignored) := by
  have hbit : (ignored ++ (1 : BitVec 1)).getLsbD 0 = true := Laws.EncodedWord.srst ignored rfl
  rw [decodeCtrl, if_pos hbit, BitVec.extractLsb'_append_eq_left]

/-- Settles O4: the commands without operand each have one word; a byte, the ignored bits of CTRL and a word that
R91 does not list come back from their own row. -/
theorem decodeEncode : Obligations.DecodeEncode := by
  intro i hwf
  cases i with
  | nop | ldt | stt | drv | ckm | wrm | enc | ensEof | dec | rwd => rfl
  | ens b => exact congrArg Except.ok ((decodeCmd_ens _).trans (decodeEns_symbolOfByte b))
  | srst ignored => exact decodeCtrl_srst ignored
  | illegal w => exact congrArg Except.ok ((decodeCmd_eq_illegal_iff w).2 (Bool.not_eq_true' _ ▸ hwf))

/-- Settles O3: the words are encodings, but for the CTRL write without effect (R25). -/
theorem operationMapWords : Obligations.OperationMapWords :=
  ⟨decodeEncode .nop rfl, decodeEncode .ldt rfl, decodeEncode .stt rfl, decodeEncode .drv rfl, decodeEncode .ckm rfl,
    decodeEncode .wrm rfl, decodeEncode .enc rfl, decodeEncode (.ens 0x42) rfl, decodeEncode .ensEof rfl,
    decodeEncode .dec rfl, decodeEncode .rwd rfl, decodeEncode (.srst 0x7FFFFFFF) rfl, rfl,
    decodeEncode (.illegal 0x00001017) rfl⟩

/-! ### Encoding what is decoded -/

theorem encode_decodeEns {w : Word32} (hw : cmdWord 7 (symField w) = w) : encode (decodeEns w) = ⟨.cmd, w⟩ := by
  unfold decodeEns
  split_ifs with hbyte heof
  · have hsym : ((symField w).setWidth 8).setWidth 9 = symField w := by
      apply BitVec.eq_of_toNat_eq
      simp only [BitVec.toNat_setWidth]
      omega
    rw [encode, hsym, hw]
  · have hsym : symField w = 256 := BitVec.eq_of_toNat_eq heof
    rw [encode, ← hsym, hw]
  · rfl

/-- The operation map's row of a word with no operand, for each of the sixteen OP values (R91, R93). -/
theorem encode_decodeOp_cmdWord : ∀ op : BitVec 4, encode (decodeOp (cmdWord op 0)) = ⟨.cmd, cmdWord op 0⟩ := by
  decide

/-- Every CMD word is the word of what it decodes to (R90). -/
theorem encode_decodeCmd (w : Word32) : encode (decodeCmd w) = ⟨.cmd, w⟩ := by
  unfold decodeCmd
  split_ifs with hrsv hop hens hsym
  · rfl
  · rfl
  · exact encode_decodeEns (hens ▸ cmdWord_fields (not_not.1 hrsv))
  · rfl
  · rw [← cmdWord_opField (not_not.1 hrsv) (not_not.1 hsym)]
    exact encode_decodeOp_cmdWord (opField w)

/-- The default row's word is the word that was decoded, which the four tests refused (R93). -/
theorem wf_decodeCmd (w : Word32) : (decodeCmd w).wf = true := by
  cases hi : decodeCmd w with
  | illegal v =>
    have hencode := encode_decodeCmd w
    rw [hi] at hencode
    obtain rfl : v = w := congrArg HostWord.word hencode
    rw [Instr.wf, (decodeCmd_eq_illegal_iff v).1 hi, Bool.not_false]
  | nop | ldt | stt | drv | ckm | wrm | enc | ens | ensEof | dec | rwd | srst => rfl

/-- A CTRL word with bit 0 = 1 is its bits 31:1 followed by that bit (R25). -/
theorem extract_append_one {w : Word32} (hbit : w.getLsbD 0 = true) : w.extractLsb' 1 31 ++ (1 : BitVec 1) = w := by
  apply BitVec.eq_of_getLsbD_eq
  intro k hk
  rw [BitVec.getLsbD_append]
  cases k with
  | zero => exact hbit.symm
  | succ k =>
    have hk' : k < 31 := by omega
    simp [hk', Nat.add_comm]

theorem encode_decodeCtrl {w : Word32} {i : Instr} (h : decodeCtrl w = .ok i) :
    i.wf = true ∧ encode i = ⟨.ctrl, w⟩ := by
  unfold decodeCtrl at h
  split_ifs at h with hbit
  cases h
  exact ⟨rfl, congrArg (HostWord.mk .ctrl) (extract_append_one hbit)⟩

/-- Settles O5, register by register. -/
theorem encodeDecode : Obligations.EncodeDecode := by
  rintro ⟨port, w⟩ i h
  cases port with
  | cmd =>
    cases h
    exact ⟨wf_decodeCmd w, encode_decodeCmd w⟩
  | ctrl => exact encode_decodeCtrl h

/-! ### The step of a word that spells no command -/

/-- Settles O6: R93's four tests are those of the decoder, and the default row's one step is `raise` (R125). -/
theorem illegalWordRaisesBadCommand : Obligations.IllegalWordRaisesBadCommand := by
  rintro _ s hrun rfl
  refine ⟨by rw [decodeCmd_eq_illegal_iff, legalWord_eq_false_iff], fun hdecode => ?_⟩
  have hexec : exec (.illegal s.cmdLatch) s = .next (s.raise .badCommand) := by
    simp only [exec, execIllegal, hrun]
  have hstart : Started (.illegal s.cmdLatch) s := ⟨hrun, hdecode⟩
  exact ⟨_, hexec, hstart.turn.trans hexec, rfl⟩

/-! ### The wait of a program line -/

/-- Settles O15: the clauses are the branches of the poll's new agenda. -/
theorem programLineWaits : Obligations.ProgramLineWaits := by
  intro s
  exact ⟨_, rfl, rfl, rfl, fun hbusy => if_pos hbusy, fun hidle => if_neg (Bool.eq_false_iff.1 hidle)⟩

/-! ### The grammar of the serialized tree -/

/-- Ten bits for a leaf and one for an internal node, of which there is one fewer (R94). -/
theorem Tree.length_serialize (t : Tree) : t.serialize.length + 1 = 11 * t.symbols.length := by
  induction t with
  | leaf v => simp [Tree.serialize, Tree.symbols]
  | node l r ihl ihr =>
    simp only [Tree.serialize, Tree.symbols, List.length_cons, List.length_append]
    omega

/-- Nine bits spell one symbol (R64, R68). -/
theorem lowBits_symbol_injective {v u : Symbol} (h : lowBits 9 v.toNat = lowBits 9 u.toNat) : v = u := by
  have hval := congrArg bitsValue h
  rw [bitsValue_lowBits, bitsValue_lowBits, Nat.mod_eq_of_lt v.isLt, Nat.mod_eq_of_lt u.isLt] at hval
  exact BitVec.eq_of_toNat_eq hval

/-- The first flag says whether a leaf's symbol or two subtrees follow, so a reader knows where a tree ends (R94). -/
theorem serialize_append_injective {t u : Tree} {a b : List Bool} (h : t.serialize ++ a = u.serialize ++ b) :
    t = u ∧ a = b := by
  induction t generalizing u a b with
  | leaf v =>
    cases u with
    | leaf v' =>
      obtain ⟨hsym, hrest⟩ := List.append_inj (List.cons.inj h).2 (by simp)
      exact ⟨congrArg Tree.leaf (lowBits_symbol_injective hsym), hrest⟩
    | node l' r' => cases h
  | node l r ihl ihr =>
    cases u with
    | leaf v' => cases h
    | node l' r' =>
      simp only [Tree.serialize, List.cons_append, List.append_assoc, List.cons.injEq, true_and] at h
      obtain ⟨rfl, hright⟩ := ihl h
      obtain ⟨rfl, hrest⟩ := ihr hright
      exact ⟨rfl, hrest⟩

/-- Settles O32: a tree of n nodes has (n + 1)/2 leaves (R40). -/
theorem serializedTreeGrammar : Obligations.SerializedTreeGrammar := by
  refine ⟨fun t => ?_, fun t u a b => serialize_append_injective⟩
  have hbits := t.length_serialize
  have hleaves := t.size_eq
  omega

end Sys2Proof.Machine
end

section
/-! PROOFS. The life of a command as the host starts it, and what a step leaves unchanged by the command it belongs to:
O7, O8, O21, O46 (spec/40_command_control.md R120, R121, R123, R126, R127; spec/44_decoder.md R190). -/

namespace Sys2Proof.Machine

/-! ### The CMD write -/

/-- A word access at offset 0x00 passes R61's test and reaches CMD (R23). -/
@[simp] theorem takeMove_write_cmd (w : Word32) (s : State) : takeMove (.write 32 0x00 w) s = writeCmd w s := rfl

theorem writeCmd_of_idle {s : State} (h : s.busy = false) (w : Word32) : writeCmd w s = .next (s.accept w) :=
  if_neg (Bool.eq_false_iff.1 h)

theorem writeCmd_of_busy {s : State} (h : s.busy = true) (w : Word32) : writeCmd w s = .next s.flagOverrun := if_pos h

/-- Settles O7: the write's effect is the one update `State.accept`. -/
theorem acceptanceStartsCommand : Obligations.AcceptanceStartsCommand := by
  intro w s hidle
  exact ⟨s.accept w, by rw [takeMove_write_cmd, writeCmd_of_idle hidle], rfl, rfl⟩

/-- Settles O8. -/
theorem overrunDropsWrite : Obligations.OverrunDropsWrite := by
  intro w s hbusy
  rw [takeMove_write_cmd, writeCmd_of_busy hbusy]
  rfl

/-! ### NOP -/

theorem started_nop_accept (s : State) : Started .nop (s.accept 0) := ⟨rfl, (by decide : decodeCmd 0 = .nop)⟩

/-- Settles O21: the acceptance of word 0 clears the last command's results, and NOP's one step is `finish`. -/
theorem nopFinishes : Obligations.NopFinishes := by
  intro s hidle
  have hexec : exec .nop (s.accept 0) = .next (s.accept 0).finish := rfl
  exact ⟨s.accept 0, (s.accept 0).finish, by rw [takeMove_write_cmd, writeCmd_of_idle hidle], hexec,
    (started_nop_accept s).turn.trans hexec, rfl⟩

/-! ### The frame of a command's step -/

/-- What a step of the command `i` from `s` to `t` leaves unchanged: OVR, MAGIC, IN and the host's lists always, each
other register and each memory unless `i` is a command that writes it. -/
structure Kept (i : Instr) (s t : State) : Prop where
  ovr : t.ovr = s.ovr
  magic : t.magic = s.magic
  input : t.input = s.input
  agenda : t.agenda = s.agenda
  reads : t.reads = s.reads
  ip : readsInput i = false → i ≠ .rwd → t.ip = s.ip
  inBits : readsInput i = false → t.inBits = s.inBits
  out : writesOutput i = false → t.out = s.out
  outBits : writesOutput i = false → t.outBits = s.outBits
  symCount : writesSymCount i = false → t.symCount = s.symCount
  treeValid : i ≠ .ldt → t.treeValid = s.treeValid
  nodeCount : i ≠ .ldt → t.nodeCount = s.nodeCount
  nodes : i ≠ .ldt → t.nodes = s.nodes
  tableValid : i ≠ .ldt → i ≠ .drv → t.tableValid = s.tableValid
  codes : i ≠ .drv → t.codes = s.codes

theorem Kept.refl (i : Instr) (s : State) : Kept i s s := by
  constructor
  all_goals
    intros
    rfl

theorem Kept.trans {i : Instr} {s u t : State} (h : Kept i s u) (h' : Kept i u t) : Kept i s t where
  ovr := h'.ovr.trans h.ovr
  magic := h'.magic.trans h.magic
  input := h'.input.trans h.input
  agenda := h'.agenda.trans h.agenda
  reads := h'.reads.trans h.reads
  ip hi hr := (h'.ip hi hr).trans (h.ip hi hr)
  inBits hi := (h'.inBits hi).trans (h.inBits hi)
  out hi := (h'.out hi).trans (h.out hi)
  outBits hi := (h'.outBits hi).trans (h.outBits hi)
  symCount hi := (h'.symCount hi).trans (h.symCount hi)
  treeValid hi := (h'.treeValid hi).trans (h.treeValid hi)
  nodeCount hi := (h'.nodeCount hi).trans (h.nodeCount hi)
  nodes hi := (h'.nodes hi).trans (h.nodes hi)
  tableValid hl hd := (h'.tableValid hl hd).trans (h.tableValid hl hd)
  codes hi := (h'.codes hi).trans (h.codes hi)

/-- Each update writes only what a command that may make it owns. -/
theorem Update.kept {i : Instr} {s t : State} (h : Update i s t) : Kept i s t := by
  have same := Kept.refl i s
  cases h with
  | consume n hi =>
    have reader {P : Prop} (h : readsInput i = false) : P := absurd hi (Bool.eq_false_iff.1 h)
    exact { same with ip := fun h _ => reader h, inBits := reader }
  | writeBits n v hi =>
    have writer {P : Prop} (h : writesOutput i = false) : P := absurd hi (Bool.eq_false_iff.1 h)
    exact { same with out := writer, outBits := writer }
  | setSymCount c hi => exact { same with symCount := fun h => absurd hi (Bool.eq_false_iff.1 h) }
  | rewind hi => exact { same with ip := fun _ => absurd hi }
  | load treeValid tableValid nodeCount nodes draws hi =>
    exact { same with treeValid := absurd hi, nodeCount := absurd hi, nodes := absurd hi, tableValid := absurd hi }
  | derive tableValid codes draws hi => exact { same with tableValid := fun _ => absurd hi, codes := absurd hi }
  | setCur | resumeAt | finish | raise => exact { same with }

theorem Updates.kept {i : Instr} {s t : State} (h : Updates i s t) : Kept i s t := by
  induction h with
  | refl => exact .refl i s
  | tail _ update ih => exact ih.trans update.kept

theorem exec_kept {i : Instr} {s t : State} (hi : ∀ ignored, i ≠ .srst ignored) (h : exec i s = .next t) :
    Kept i s t := (exec_updates hi h).kept

/-- With no output, no SYM_COUNT and no memory to write, what is left is the input side and the command's end (R124,
R125). -/
theorem Kept.eq_of_no_stores {i : Instr} {s t : State} (kept : Kept i s t) (hout : writesOutput i = false)
    (hsym : writesSymCount i = false) (hldt : i ≠ .ldt) (hdrv : i ≠ .drv) :
    t = { s with ip := t.ip, inBits := t.inBits, done := t.done, err := t.err, errCode := t.errCode, eng := t.eng,
                 cmdLatch := t.cmdLatch, cur := t.cur, draws := t.draws } := by
  rw [← kept.ovr, ← kept.magic, ← kept.input, ← kept.agenda, ← kept.reads, ← kept.out hout, ← kept.outBits hout,
    ← kept.symCount hsym, ← kept.treeValid hldt, ← kept.nodeCount hldt, ← kept.nodes hldt, ← kept.tableValid hldt hdrv,
    ← kept.codes hdrv]

/-- NOP, a word that spells no command, REWIND and CHECK_MAGIC (R126, R123, R127, R190). -/
def IsControlOrCheck (i : Instr) : Prop := i = .nop ∨ (∃ w, i = .illegal w) ∨ i = .rwd ∨ i = .ckm

theorem IsControlOrCheck.no_stores {i : Instr} (h : IsControlOrCheck i) :
    writesOutput i = false ∧ writesSymCount i = false ∧ i ≠ .ldt ∧ i ≠ .drv ∧ ∀ ignored, i ≠ .srst ignored := by
  rcases h with rfl | ⟨w, rfl⟩ | rfl | rfl <;> exact ⟨rfl, rfl, nofun, nofun, nofun⟩

/-- Of the four only CHECK_MAGIC reads input. -/
theorem IsControlOrCheck.readsInput_eq_false {i : Instr} (h : IsControlOrCheck i) (hckm : i ≠ .ckm) :
    readsInput i = false := by
  rcases h with rfl | ⟨w, rfl⟩ | rfl | rfl
  · rfl
  · rfl
  · rfl
  · exact absurd rfl hckm

/-- Settles O46: of what the updates of a command may write, the four write at most IP and IN_BITS. -/
theorem frameControlAndCheckMagic : Obligations.FrameControlAndCheckMagic := by
  intro s t i hi h
  replace hi : IsControlOrCheck i := hi
  obtain ⟨hout, hsym, hldt, hdrv, hsrst⟩ := hi.no_stores
  have kept := exec_kept hsrst h
  exact ⟨kept.eq_of_no_stores hout hsym hldt hdrv, fun hckm => kept.inBits (hi.readsInput_eq_false hckm),
    fun hckm hrwd => kept.ip (hi.readsInput_eq_false hckm) hrwd, fun j => by rw [kept.nodes hldt],
    fun j => by rw [kept.codes hdrv]⟩

end Sys2Proof.Machine
end

section
/-! PROOFS. DERIVE and the code table: O33, O34, O35, O36, O37, O49 (spec/30_encoding.md R97, R98;
spec/41_code_table.md R140 to R142). -/

namespace Sys2Proof.Machine

/-! ### DERIVE over a loaded tree -/

/-- The symbols of a loaded tree are 0..256 (R40). -/
theorem State.hasTree.symsOk {s : State} {t : Tree} (h : s.hasTree t) : t.symsOk = true := by
  obtain ⟨-, -, -, hholds⟩ := h
  exact NodeMem.holds_symsOk hholds

/-- Over the zeroed table a visit fails on a repeated symbol alone (R140). -/
theorem deriveCodes_zeros_eq_none_iff {t : Tree} (hsyms : t.symsOk = true) :
    deriveCodes [] t CodeMem.zeros = none ↔ ¬t.symbols.Nodup := by
  rcases deriveCodes_spec [] t CodeMem.zeros CodeMem.wf_zeros hsyms with ⟨c, hc, hnodup, -⟩ | ⟨hnone, hfail⟩
  · simp [hc, hnodup]
  · exact iff_of_true hnone fun hnodup => hfail ⟨hnodup, fun _ _ => rfl⟩

/-- On an empty stack DERIVE's loop ends, whatever fuel is left (R140). -/
theorem drvLoop_nil (fuel : Nat) (s : State) : drvLoop fuel [] s = .next s.flagTableValid.finish := by
  cases fuel <;> rfl

/-- DERIVE's one step over a loaded tree is one visit of it from the zeroed table, which finishes with the table built
or raises (R8, R140). -/
theorem exec_drv_of_hasTree {s : State} {t : Tree} (hrun : s.eng = .run .start) (htree : s.hasTree t) :
    exec .drv s =
      (deriveCodes [] t CodeMem.zeros).elim (drvRaise .duplicateSymbol s.flagTableStale)
        fun c => .next ({ s with codes := c } : State).flagTableValid.finish := by
  obtain ⟨hvalid, -, hsize, hholds⟩ := htree
  have hstart : exec .drv s = drvLoop drvFuel [(0, 0, 0)] s.flagTableStale.zeroCodes := by
    simp only [exec, execDrv, hrun, hvalid, if_true]
  have hfuel : t.size ≤ drvFuel := hsize.trans (by decide)
  have hvisit := drvLoop_tree (s := s.flagTableStale.zeroCodes) (i := 0) (pre := []) (rest := []) hholds
    (by simpa using hsize) hfuel
  refine hstart.trans (hvisit.trans ?_)
  rw [State.zeroCodes_codes]
  cases deriveCodes [] t CodeMem.zeros with
  | none => rfl
  | some c => exact drvLoop_nil _ _

/-- Settles O33: the visit of a tree with distinct symbols succeeds, and what it leaves is the tree's table. -/
theorem deriveBuildsTable : Obligations.DeriveBuildsTable := by
  intro s t hstart htree hnodup
  have hsome : deriveCodes [] t CodeMem.zeros ≠ none := fun hnone =>
    (deriveCodes_zeros_eq_none_iff htree.symsOk).1 hnone hnodup
  obtain ⟨c, hc⟩ := Option.ne_none_iff_exists'.1 hsome
  have hexec := exec_drv_of_hasTree hstart.1 htree
  rw [hc] at hexec
  obtain ⟨-, hread⟩ := hasTable_of_deriveCodes htree.symsOk hc
  exact ⟨_, hexec, ⟨hnodup, fun y _ => hread y⟩, rfl⟩

/-- Settles O34: the visit of a tree with a repeated symbol fails, so the step ends in DERIVE's `raise`. -/
theorem deriveDuplicateSymbol : Obligations.DeriveDuplicateSymbol := by
  intro s t hstart htree hdup
  have hnone := (deriveCodes_zeros_eq_none_iff htree.symsOk).2 hdup
  have hexec := exec_drv_of_hasTree hstart.1 htree
  rw [hnone] at hexec
  exact ⟨_, hexec, rfl⟩

theorem Tree.codeEntry_leaf_same (v : Symbol) : (Tree.leaf v).codeEntry v = ⟨true, 0, 0⟩ := by
  rw [Tree.codeEntry, Tree.code_leaf, if_pos rfl]
  rfl

theorem Tree.codeEntry_leaf_other {v y : Symbol} (h : y ≠ v) : (Tree.leaf v).codeEntry y = noCode := by
  rw [Tree.codeEntry, Tree.code_leaf, if_neg h]

/-- Settles O35: a root leaf is the tree of one leaf, whose only path is empty. -/
theorem deriveZeroLengthCode : Obligations.DeriveZeroLengthCode := by
  intro s v hstart hvalid hcount hv hroot
  have htree : s.hasTree (.leaf v) := ⟨hvalid, by rw [hcount]; rfl, (by decide : 1 ≤ Config.nodeCap), hroot, hv⟩
  obtain ⟨u, hexec, ⟨-, htable⟩, hframe⟩ := deriveBuildsTable s (.leaf v) hstart htree (List.nodup_singleton v)
  refine ⟨u, hexec, by rw [hframe], by rw [hframe], ?_, fun y hy hne => ?_⟩
  · rw [htable v hv, Tree.codeEntry_leaf_same]
  · rw [htable y hy, Tree.codeEntry_leaf_other hne]
    rfl

/-- Settles O49: the updates of DERIVE own CODE, TABLE_VALID and the command's end alone. -/
theorem frameDerive : Obligations.FrameDerive := by
  intro s t h
  have kept : Kept .drv s t := exec_kept nofun h
  refine ⟨?_, fun j => by rw [kept.nodes nofun]⟩
  rw [← kept.ovr, ← kept.magic, ← kept.input, ← kept.agenda, ← kept.reads, ← kept.ip rfl nofun, ← kept.inBits rfl,
    ← kept.out rfl, ← kept.outBits rfl, ← kept.symCount rfl, ← kept.treeValid nofun, ← kept.nodeCount nofun,
    ← kept.nodes nofun]

/-! ### The codes of a tree -/

/-- A code under an internal node is the branch taken, 0 = left, and a code of that subtree (R97). -/
theorem Tree.code_node_eq_some {l r : Tree} {y : Symbol} {p : List Bool} (h : (Tree.node l r).code y = some p) :
    (∃ q, l.code y = some q ∧ p = false :: q) ∨ (∃ q, r.code y = some q ∧ p = true :: q) := by
  rw [Tree.code_node, Option.or_eq_some_iff, Option.map_eq_some_iff, Option.map_eq_some_iff] at h
  rcases h with ⟨q, hq, rfl⟩ | ⟨-, q, hq, rfl⟩
  · exact .inl ⟨q, hq, rfl⟩
  · exact .inr ⟨q, hq, rfl⟩

/-- A code ends at a leaf, so a code that begins with it belongs to the same leaf (R98). -/
theorem Tree.eq_of_code_prefix {t : Tree} {x y : Symbol} {p q : List Bool} (hx : t.code x = some p)
    (hy : t.code y = some q) (hpq : p <+: q) : x = y := by
  induction t generalizing p q with
  | leaf v =>
    have hsym {z : Symbol} {c : List Bool} (hz : (Tree.leaf v).code z = some c) : z = v := by
      simpa [Tree.symbols] using ((Tree.leaf v).code_isSome_iff z).1 (hz ▸ rfl)
    rw [hsym hx, hsym hy]
  | node l r ihl ihr =>
    rcases Tree.code_node_eq_some hx with ⟨p', hx', rfl⟩ | ⟨p', hx', rfl⟩ <;>
      rcases Tree.code_node_eq_some hy with ⟨q', hy', rfl⟩ | ⟨q', hy', rfl⟩ <;>
        obtain ⟨hbit, hpq'⟩ := List.cons_prefix_cons.1 hpq
    · exact ihl hx' hy' hpq'
    · cases hbit
    · cases hbit
    · exact ihr hx' hy' hpq'

/-- Settles O36. -/
theorem codesArePrefixFree : Obligations.CodesArePrefixFree :=
  fun _ _ _ _ _ hx hy hne hprefix => hne (Tree.eq_of_code_prefix hx hy hprefix)

/-- Each bit of a code leaves an internal node and, beside it, the whole other subtree. -/
theorem Tree.two_mul_length_code_lt_size {t : Tree} {y : Symbol} {p : List Bool} (h : t.code y = some p) :
    2 * p.length < t.size := by
  induction t generalizing p with
  | leaf v =>
    have hp : p = [] := by
      rw [Tree.code_leaf, Option.ite_none_right_eq_some, Option.some.injEq] at h
      exact h.2.symm
    simp [hp, Tree.size]
  | node l r ihl ihr =>
    have hl := l.size_pos
    have hr := r.size_pos
    rcases Tree.code_node_eq_some h with ⟨q, hq, rfl⟩ | ⟨q, hq, rfl⟩
    · have := ihl hq
      simp only [Tree.size, List.length_cons]
      omega
    · have := ihr hq
      simp only [Tree.size, List.length_cons]
      omega

theorem toNat_len_codeEntryOf {p : List Bool} (h : p.length ≤ 256) : (codeEntryOf p).len.toNat = p.length :=
  Nat.mod_eq_of_lt (Nat.lt_of_le_of_lt h (by decide))

/-- BITS holds the value of a code of at most 256 bits, and its low LEN bits spell the code again (R97). -/
theorem codeString_codeEntryOf {p : List Bool} (h : p.length ≤ 256) : codeString (codeEntryOf p) = p := by
  have hbit : ∀ k ∈ List.range p.length, codeBit (codeEntryOf p) k = (bitsValue p).testBit (p.length - 1 - k) := by
    intro k hk
    have hlow : p.length - 1 - k < 256 := by
      have := List.mem_range.1 hk
      omega
    rw [codeBit, toNat_len_codeEntryOf h, codeEntryOf, codeOf, BitVec.getLsbD_ofNat, decide_eq_true hlow,
      Bool.true_and]
  calc codeString (codeEntryOf p)
      = (List.range p.length).map (codeBit (codeEntryOf p)) := by rw [codeString, toNat_len_codeEntryOf h]
    _ = (List.range p.length).map fun k => (bitsValue p).testBit (p.length - 1 - k) := List.map_congr_left hbit
    _ = lowBits p.length (bitsValue p) := (lowBits_eq_map _ _).symm
    _ = p := lowBits_bitsValue p

/-- Settles O37: a code of more than 256 bits would need more than 513 nodes. -/
theorem codeTableHoldsCodes : Obligations.CodeTableHoldsCodes := by
  intro t y p hsize hcode
  have hlen : p.length ≤ 256 := by
    have hcap : Config.nodeCap = 513 := rfl
    have := Tree.two_mul_length_code_lt_size hcode
    omega
  have hentry : t.codeEntry y = codeEntryOf p := by rw [Tree.codeEntry, hcode]
  rw [hentry]
  exact ⟨hlen, rfl, toNat_len_codeEntryOf hlen, codeString_codeEntryOf hlen⟩

end Sys2Proof.Machine
end

section
/-! PROOFS. LOAD_TREE over the bits of a serialized tree, whole or cut: O25, O26, O27, O28, O29
(spec/30_encoding.md R94; spec/42_tree_codec.md R150 to R152; spec/60_exceptions.md R213, R215). -/

namespace Sys2Proof.Machine

/-! ### Reads of the header's fields -/

theorem State.consume_zero (s : State) : s.consume 0 = s := by
  simp [State.consume, State.readSize]

/-- Two reads consume what one read of both sizes does, also at the end of IN (R64 to R66). -/
theorem State.consume_consume (a b : Nat) (s : State) : (s.consume a).consume b = s.consume (a + b) := by
  have hip : ((s.consume a).consume b).ip = (s.consume (a + b)).ip := by
    simp only [State.consume_ip, State.consume_input]
    split_ifs <;> omega
  have hsize : min a (s.input.length - s.ip) + min b (s.input.length - (s.consume a).ip) =
      min (a + b) (s.input.length - s.ip) := by
    simp only [State.consume_ip]
    split_ifs <;> omega
  have hbits : ((s.consume a).consume b).inBits = (s.consume (a + b)).inBits := by
    simp only [State.consume_inBits, State.readSize, State.consume_input, BitVec.add_assoc, ← BitVec.ofNat_add, hsize]
  calc (s.consume a).consume b
      = { s with ip := ((s.consume a).consume b).ip, inBits := ((s.consume a).consume b).inBits } := rfl
    _ = s.consume (a + b) := by rw [hip, hbits]; rfl

/-- A read of `n` bits that stand for `v` returns `v` (R64, R68). -/
theorem State.peekBits_lowBits {n : Nat} {v : BitVec n} {s : State} {rest : List Bool}
    (h : s.unread = lowBits n v.toNat ++ rest) : s.peekBits n = some v := by
  rw [State.peekBits_some (by simp [h]), h, List.take_left' (length_lowBits n _), bitsValue_lowBits,
    Nat.mod_eq_of_lt v.isLt, BitVec.ofNat_toNat, BitVec.setWidth_eq]

theorem State.peekBits_flag {b : Bool} {s : State} {rest : List Bool} (h : s.unread = b :: rest) :
    s.peekBits 1 = some (BitVec.ofBool b) := by
  refine State.peekBits_lowBits (rest := rest) ?_
  cases b <;> exact h

/-- Where the bits suffice a read moves the cursor by its size and counts it (R64, R65). -/
theorem State.consume_of_le {n : Nat} {s : State} (h : n ≤ s.unread.length) :
    (s.consume n).ip = s.ip + n ∧ (s.consume n).inBits = s.inBits + BitVec.ofNat 32 n := by
  rw [State.length_unread] at h
  rw [State.consume_ip, if_pos h, State.consume_inBits, State.readSize, Nat.min_eq_left h]
  exact ⟨rfl, rfl⟩

/-- A read that returns EXH leaves the cursor at the end of IN (R65). -/
theorem State.consume_ip_of_lt {n : Nat} {s : State} (h : s.unread.length < n) :
    (s.consume n).ip = s.input.length := by
  rw [State.length_unread] at h
  rw [State.consume_ip, if_neg (Nat.not_le.2 h)]

/-! ### One node of the header -/

/-- LOAD_TREE waits for the flag of node `i`. With a parent `par` the node is `par`'s right child, which is still to be
attached; `rest` are the open nodes below it on the stack (R151). -/
def ldtNextFlag (i : Nat) (par : Option NodeIx) (rest : List NodeIx) (s : State) : State :=
  s.readThen 1 fun f => .ldtFlag f (BitVec.ofNat 10 i) (par.toList ++ rest) par.isSome

/-- What LOAD_TREE does once a subtree is complete, with `i` nodes allocated: the tree is loaded, or the top of the
stack gets its right child (R150). -/
def ldtAfterTree (i : Nat) (stack : List NodeIx) (s : State) : State :=
  match stack with
  | [] => (s.flagsLoaded (BitVec.ofNat 10 i)).finish
  | p :: rest => ldtNextFlag i (some p) rest s

/-- `NODE[par].RIGHT <- i`, where there is a parent (R150). -/
def NodeMem.linkRight (par : Option NodeIx) (i : Nat) (m : NodeMem) : NodeMem :=
  match par with
  | none => m
  | some p => m.write p.toNat { m.read p.toNat with right := BitVec.ofNat 10 i }

theorem execLdt_start {s : State} (h : s.eng = .run .start) :
    exec .ldt s = .next (ldtNextFlag 0 none [] s.flagsUnload) := by
  simp only [exec, execLdt, h]
  rfl

/-- A step that resumes after a flag does not depend on the point it resumes at. -/
theorem ldtFlagStep_resumeAt (f : Option (BitVec 1)) (n : NodeIx) (stack : List NodeIx) (attach : Bool) (p : Point)
    (s : State) : ldtFlagStep f n stack attach (s.resumeAt p) = ldtFlagStep f n stack attach s := by
  cases f with
  | none => rfl
  | some b => cases attach <;> cases stack <;> rfl

theorem ldtSymStep_resumeAt (v : Option Symbol) (n i : NodeIx) (stack : List NodeIx) (p : Point) (s : State) :
    ldtSymStep v n i stack (s.resumeAt p) = ldtSymStep v n i stack s := by
  cases v with
  | none => rfl
  | some y => cases stack <;> rfl

theorem engineTurn_ldtNextFlag {i : Nat} {par : Option NodeIx} {rest : List NodeIx} {s : State}
    (hcmd : decodeCmd s.cmdLatch = .ldt) :
    engineTurn (ldtNextFlag i par rest s) =
      ldtFlagStep (s.peekBits 1) (BitVec.ofNat 10 i) (par.toList ++ rest) par.isSome (s.consume 1) := by
  rw [engineTurn_run rfl, show (ldtNextFlag i par rest s).cmdLatch = s.cmdLatch from rfl, hcmd]
  exact ldtFlagStep_resumeAt _ _ _ _ _ _

theorem engineTurn_ldtSym {n i : NodeIx} {stack : List NodeIx} {s : State} (hcmd : decodeCmd s.cmdLatch = .ldt) :
    engineTurn (s.readThen 9 fun v => .ldtSym v n i stack) = ldtSymStep (s.peekBits 9) n i stack (s.consume 9) := by
  rw [engineTurn_run rfl, State.readThen_cmdLatch, hcmd]
  exact ldtSymStep_resumeAt _ _ _ _ _ _

theorem toNat_nodeIx {i : Nat} (h : i ≤ Config.nodeCap) : (BitVec.ofNat 10 i).toNat = i :=
  Nat.mod_eq_of_lt (Nat.lt_of_le_of_lt h (by decide))

/-- A node that NODE holds can be a parent. -/
theorem parent_lt {i : Nat} (h : i < Config.nodeCap) : ∀ p ∈ some (BitVec.ofNat 10 i), p.toNat < Config.nodeCap := by
  rintro _ ⟨⟩
  rwa [toNat_nodeIx h.le]

/-- Node `i` with the entry `e` joins the tree under `par` (R150). -/
def NodeMem.addNode (par : Option NodeIx) (i : Nat) (e : Node) (m : NodeMem) : NodeMem := (m.linkRight par i).write i e

/-- LOAD_TREE has read the next `k` bits of IN, and NODE holds `m`. -/
def State.readInto (k : Nat) (m : NodeMem) (s : State) : State := { s.consume k with nodes := m }

@[simp] theorem State.readInto_cmdLatch (k : Nat) (m : NodeMem) (s : State) :
    (s.readInto k m).cmdLatch = s.cmdLatch := rfl

@[simp] theorem State.readInto_nodes (k : Nat) (m : NodeMem) (s : State) : (s.readInto k m).nodes = m := rfl

theorem State.readInto_unread (k : Nat) (m : NodeMem) (s : State) : (s.readInto k m).unread = s.unread.drop k :=
  s.consume_unread k

theorem State.readInto_readInto (a b : Nat) (m m' : NodeMem) (s : State) :
    (s.readInto a m).readInto b m' = s.readInto (a + b) m' :=
  congrArg (fun u : State => { u with nodes := m' }) (State.consume_consume a b s)

theorem State.readInto_zero (s : State) : s.readInto 0 s.nodes = s :=
  congrArg (fun u : State => { u with nodes := s.nodes }) s.consume_zero

/-- A flag within the capacity of NODE begins node `i`, its parent's right child attached first (R150). -/
theorem ldtFlagStep_of_lt {i : Nat} {par : Option NodeIx} {rest : List NodeIx} {b : BitVec 1} {s : State}
    (hi : i < Config.nodeCap) (hpar : ∀ p ∈ par, p.toNat < Config.nodeCap) :
    ldtFlagStep (some b) (BitVec.ofNat 10 i) (par.toList ++ rest) par.isSome s =
      ldtNode b (BitVec.ofNat 10 i) rest { s with nodes := s.nodes.linkRight par i } := by
  have hcap : (BitVec.ofNat 10 i).toNat ≠ Config.nodeCap := by
    rw [toNat_nodeIx hi.le]
    exact Nat.ne_of_lt hi
  simp only [ldtFlagStep, if_neg hcap]
  cases par with
  | none => rfl
  | some p =>
    have hp := hpar p rfl
    simp only [ldtAttach, Option.toList_some, List.singleton_append, Option.isSome_some, withNode_of_lt hp,
      putNode_of_lt hp]
    rfl

/-- A symbol field 0..256 completes a leaf (R150). -/
theorem ldtSymStep_of_le {i : Nat} {rest : List NodeIx} {v : Symbol} {s : State} (hv : v ≤ Config.eofSym)
    (hi : i < Config.nodeCap) :
    ldtSymStep (some v) (BitVec.ofNat 10 (i + 1)) (BitVec.ofNat 10 i) rest s =
      .next (ldtAfterTree (i + 1) rest { s with nodes := s.nodes.write i (leafNode v) }) := by
  have hn := toNat_nodeIx hi.le
  have hlt : (BitVec.ofNat 10 i).toNat < Config.nodeCap := by rwa [hn]
  simp only [ldtSymStep, if_neg (BitVec.not_lt.2 hv), putNode_of_lt hlt, hn]
  cases rest <;> rfl

section Node

variable {i : Nat} {par : Option NodeIx} {rest : List NodeIx} {s : State} (hcmd : decodeCmd s.cmdLatch = .ldt)
include hcmd

/-- A flag 0 stores an internal node, whose left child comes next (R150). -/
theorem ldtNextFlag_internal {more : List Bool} (hbits : s.unread = false :: more) (hi : i < Config.nodeCap)
    (hpar : ∀ p ∈ par, p.toNat < Config.nodeCap) :
    engineTurn (ldtNextFlag i par rest s) =
      .next (ldtNextFlag (i + 1) none (BitVec.ofNat 10 i :: rest)
        (s.readInto 1 (s.nodes.addNode par i (openNode (BitVec.ofNat 10 i))))) := by
  have hn := toNat_nodeIx hi.le
  rw [engineTurn_ldtNextFlag hcmd, State.peekBits_flag hbits, ldtFlagStep_of_lt hi hpar, ldtNode, if_neg (by decide),
    putNode_of_lt (by rwa [hn]), hn, ldtReadFlag, ldtNextFlag, BitVec.ofNat_add]
  rfl

/-- A flag 1 begins a leaf, whose symbol field is read (R150). -/
theorem ldtNextFlag_leaf {more : List Bool} (hbits : s.unread = true :: more) (hi : i < Config.nodeCap)
    (hpar : ∀ p ∈ par, p.toNat < Config.nodeCap) :
    engineTurn (ldtNextFlag i par rest s) =
      .next ((s.readInto 1 (s.nodes.linkRight par i)).readThen 9
        fun v => .ldtSym v (BitVec.ofNat 10 (i + 1)) (BitVec.ofNat 10 i) rest) := by
  rw [engineTurn_ldtNextFlag hcmd, State.peekBits_flag hbits, ldtFlagStep_of_lt hi hpar, ldtNode, if_pos (by decide),
    BitVec.ofNat_add]
  rfl

/-- A leaf takes ten bits and two steps (R94, R254). -/
theorem ldtNextFlag_leaf_symbol {v : Symbol} {more : List Bool} (hbits : s.unread = (Tree.leaf v).serialize ++ more)
    (hv : v ≤ Config.eofSym) (hi : i < Config.nodeCap) (hpar : ∀ p ∈ par, p.toNat < Config.nodeCap) :
    engineSteps 2 (ldtNextFlag i par rest s) =
      .next (ldtAfterTree (i + 1) rest (s.readInto 10 (s.nodes.addNode par i (leafNode v)))) := by
  have hsym : (s.readInto 1 (s.nodes.linkRight par i)).unread = lowBits 9 v.toNat ++ more := by
    rw [State.readInto_unread, hbits]
    rfl
  have hsecond := engineTurn_ldtSym (n := BitVec.ofNat 10 (i + 1)) (i := BitVec.ofNat 10 i) (stack := rest)
    (s := s.readInto 1 (s.nodes.linkRight par i)) hcmd
  rw [State.peekBits_lowBits hsym, ldtSymStep_of_le hv hi] at hsecond
  rw [engineSteps_succ (ldtNextFlag_leaf hcmd hbits hi hpar), engineSteps_succ hsecond, engineSteps_zero,
    ← State.readInto_readInto 1 9 (s.nodes.linkRight par i)]
  rfl

end Node

/-! ### A whole tree -/

/-- The tree memory after LOAD_TREE has read the tree `t` at node `i` (R150). -/
def Tree.loadInto (i : Nat) (par : Option NodeIx) (m : NodeMem) : Tree → NodeMem
  | .leaf v => m.addNode par i (leafNode v)
  | .node l r =>
    r.loadInto (i + 1 + l.size) (some (BitVec.ofNat 10 i))
      (l.loadInto (i + 1) none (m.addNode par i (openNode (BitVec.ofNat 10 i))))

/-- The flag of an internal node takes one step (R254). -/
theorem Tree.steps_node (l r : Tree) : (Tree.node l r).size + (Tree.node l r).symbols.length =
    (l.size + l.symbols.length) + (r.size + r.symbols.length) + 1 := by
  simp only [Tree.size, Tree.symbols, List.length_append]
  omega

/-- LOAD_TREE reads a whole subtree, one step for each node and one more for each leaf, and goes on behind it (R150,
R254). -/
theorem ldtNextFlag_tree {t : Tree} {i : Nat} {par : Option NodeIx} {rest : List NodeIx} {s : State} {more : List Bool}
    (hcmd : decodeCmd s.cmdLatch = .ldt) (hbits : s.unread = t.serialize ++ more) (hsyms : t.symsOk = true)
    (hsize : i + t.size ≤ Config.nodeCap) (hpar : ∀ p ∈ par, p.toNat < Config.nodeCap) :
    engineSteps (t.size + t.symbols.length) (ldtNextFlag i par rest s) =
      .next (ldtAfterTree (i + t.size) rest (s.readInto t.serialize.length (t.loadInto i par s.nodes))) := by
  induction t generalizing i par rest s more with
  | leaf v =>
    have hv : v ≤ Config.eofSym := by simpa [Tree.symsOk, Tree.symbols] using hsyms
    exact ldtNextFlag_leaf_symbol hcmd hbits hv hsize hpar
  | node l r ihl ihr =>
    simp only [Tree.symsOk, Tree.symbols, List.all_append, Bool.and_eq_true] at hsyms
    obtain ⟨hlsyms, hrsyms⟩ := hsyms
    simp only [Tree.size] at hsize
    have hi : i < Config.nodeCap := by omega
    simp only [Tree.serialize, List.cons_append, List.append_assoc] at hbits
    have hopen := ldtNextFlag_internal (rest := rest) hcmd hbits hi hpar
    have hlbits : (s.readInto 1 (s.nodes.addNode par i (openNode (BitVec.ofNat 10 i)))).unread =
        l.serialize ++ (r.serialize ++ more) := by
      rw [State.readInto_unread, hbits]
      rfl
    have hleft := ihl (i := i + 1) (par := none) (rest := BitVec.ofNat 10 i :: rest) (s := s.readInto 1 _) hcmd hlbits
      hlsyms (by omega) nofun
    rw [State.readInto_readInto, State.readInto_nodes] at hleft
    have hrbits : (s.readInto (1 + l.serialize.length) (l.loadInto (i + 1) none
        (s.nodes.addNode par i (openNode (BitVec.ofNat 10 i))))).unread = r.serialize ++ more := by
      rw [State.readInto_unread, hbits, ← List.drop_drop]
      exact List.drop_left
    have hright := ihr (i := i + 1 + l.size) (par := some (BitVec.ofNat 10 i)) (rest := rest) (s := s.readInto _ _) hcmd
      hrbits hrsyms (by omega) (parent_lt hi)
    rw [State.readInto_readInto] at hright
    rw [Tree.steps_node, engineSteps_succ hopen, engineSteps_add hleft]
    refine hright.trans ?_
    have hbitsRead : 1 + l.serialize.length + r.serialize.length = (Tree.node l r).serialize.length := by
      simp only [Tree.serialize, List.length_cons, List.length_append]
      omega
    have hcount : i + 1 + l.size + r.size = i + (Tree.node l r).size := by
      simp only [Tree.size]
      omega
    rw [hbitsRead, hcount]
    rfl

theorem NodeMem.read_linkRight_other {par : Option NodeIx} {j : Nat} (h : ∀ p ∈ par, j ≠ p.toNat) (i : Nat)
    (m : NodeMem) : (m.linkRight par i).read j = m.read j := by
  cases par with
  | none => rfl
  | some p => exact NodeMem.read_write_other m _ (h p rfl)

/-- A subtree is stored from its own node on, and of what lies below only its parent's entry changes (R151). -/
theorem Tree.read_loadInto_outside (t : Tree) {i j : Nat} {par : Option NodeIx} (hsize : i + t.size ≤ Config.nodeCap)
    (hj : j < i ∨ i + t.size ≤ j) (m : NodeMem) : (t.loadInto i par m).read j = (m.linkRight par i).read j := by
  induction t generalizing i par m with
  | leaf v =>
    simp only [Tree.size] at hj
    exact NodeMem.read_write_other _ _ (by omega)
  | node l r ihl ihr =>
    simp only [Tree.size] at hj hsize
    have hji : ∀ p ∈ some (BitVec.ofNat 10 i), j ≠ p.toNat := by
      simp only [Option.mem_some_iff, forall_eq', toNat_nodeIx (show i ≤ Config.nodeCap by omega)]
      omega
    calc ((Tree.node l r).loadInto i par m).read j
        = (l.loadInto (i + 1) none (m.addNode par i (openNode (BitVec.ofNat 10 i)))).read j := by
          rw [Tree.loadInto, ihr (by omega) (by omega), NodeMem.read_linkRight_other hji]
      _ = (m.addNode par i (openNode (BitVec.ofNat 10 i))).read j := ihl (by omega) (by omega) _
      _ = (m.linkRight par i).read j := NodeMem.read_write_other _ _ (by omega)

/-- What LOAD_TREE has stored for a subtree is that subtree, in pre-order (R40, R151). -/
theorem Tree.holds_loadInto (t : Tree) {i : Nat} {par : Option NodeIx} (hsize : i + t.size ≤ Config.nodeCap)
    (hsyms : t.symsOk = true) (m : NodeMem) : (t.loadInto i par m).holds i t := by
  induction t generalizing i par m with
  | leaf v => exact NodeMem.holds_leaf _ i (by simpa [Tree.symsOk, Tree.symbols] using hsyms)
  | node l r ihl ihr =>
    simp only [Tree.symsOk, Tree.symbols, List.all_append, Bool.and_eq_true] at hsyms
    obtain ⟨hlsyms, hrsyms⟩ := hsyms
    simp only [Tree.size] at hsize
    have hi : (BitVec.ofNat 10 i).toNat = i := toNat_nodeIx (by omega)
    rw [Tree.loadInto]
    generalize hopened : m.addNode par i (openNode (BitVec.ofNat 10 i)) = opened
    have hnode : (l.loadInto (i + 1) none opened).read i = openNode (BitVec.ofNat 10 i) := by
      rw [l.read_loadInto_outside (by omega) (by omega), ← hopened]
      exact NodeMem.read_write_same _ i _
    have hleft : (l.loadInto (i + 1) none opened).holds (i + 1) l := ihl (by omega) hlsyms opened
    have hframe {j : Nat} (hj : j < i + 1 + l.size) :=
      r.read_loadInto_outside (par := some (BitVec.ofNat 10 i)) (show i + 1 + l.size + r.size ≤ Config.nodeCap by omega)
        (.inl hj) (l.loadInto (i + 1) none opened)
    refine ⟨?_, NodeMem.holds_congr (fun j hlow hhigh => ?_) hleft, ihr (by omega) hrsyms _⟩
    · rw [hframe (by omega), NodeMem.linkRight, hi, NodeMem.read_write_same, hnode, openNode, BitVec.ofNat_add i 1]
      rfl
    · rw [hframe hhigh]
      exact NodeMem.read_linkRight_other (by simp only [Option.mem_some_iff, forall_eq', hi]; omega) _ _

theorem Started.ldt_turn {s : State} (h : Started .ldt s) :
    engineTurn s = .next (ldtNextFlag 0 none [] s.flagsUnload) := h.turn.trans (execLdt_start h.1)

/-- Settles O26: after the first step the whole tree is read with an empty stack, so behind it the tree is loaded. -/
theorem loadTreeLoadsSerializedTree : Obligations.LoadTreeLoadsSerializedTree := by
  intro s t rest hstart _ hbits hsyms hsize
  have hload := ldtNextFlag_tree (i := 0) (par := none) (rest := []) (s := s.flagsUnload) hstart.2 hbits hsyms
    (by omega) nofun
  have hfits : t.serialize.length ≤ s.unread.length := by simp [hbits]
  obtain ⟨hip, hinBits⟩ := State.consume_of_le hfits
  rw [← engineSteps_succ hstart.ldt_turn] at hload
  refine ⟨_, hload, ⟨rfl, ?_, hsize, t.holds_loadInto (by omega) hsyms _⟩, hip, hinBits, rfl⟩
  rw [Nat.zero_add]
  exact toNat_nodeIx hsize

/-! ### A tree that is cut -/

/-- `pre` are the bits of a tree up to the flag of one of its nodes (R94). -/
inductive Tree.Before : Tree → List Bool → Prop
  | root (t : Tree) : Before t []
  | left {l : Tree} {pre : List Bool} (r : Tree) (h : Before l pre) : Before (.node l r) (false :: pre)
  | right {r : Tree} {pre : List Bool} (l : Tree) (h : Before r pre) :
      Before (.node l r) (false :: (l.serialize ++ pre))

/-- The bits up to a flag are read by themselves. -/
theorem Tree.Before.headerFields_append {t : Tree} {pre : List Bool} (h : t.Before pre) (more : List Bool) :
    headerFields none (pre ++ more) = headerFields none pre ++ headerFields none more := by
  induction h with
  | root t => rfl
  | left r h ih => simp [headerFields, ih]
  | right l h ih => simp [headerFields, headerFields_serialize, ih]

theorem Tree.Before.headerFlags_append {t : Tree} {pre : List Bool} (h : t.Before pre) (more : List Bool) :
    headerFlags (pre ++ more) = headerFlags pre + headerFlags more := by
  simp only [headerFlags, h.headerFields_append, List.countP_append]

theorem Tree.Before.headerSymsOk_append {t : Tree} {pre : List Bool} (h : t.Before pre) (more : List Bool) :
    headerSymsOk (pre ++ more) = (headerSymsOk pre && headerSymsOk more) := by
  simp only [headerSymsOk, h.headerFields_append, List.all_append]

/-- A symbol field that stands incomplete holds no flag. -/
theorem headerFields_cut_symbol {bits field : List Bool} (h : field.length + bits.length < 9) :
    headerFields (some field) bits = [] := by
  induction bits generalizing field with
  | nil => rfl
  | cons b rest ih =>
    simp only [List.length_cons] at h
    rw [headerFields, if_pos (by omega)]
    exact ih (by simp only [List.length_append, List.length_cons, List.length_nil]; omega)

/-- The bits of a leaf, whole or cut, hold one flag (R94). -/
theorem headerFlags_leaf {field : List Bool} (h : field.length ≤ 9) : headerFlags (true :: field) = 1 := by
  rw [headerFlags, headerFields, if_pos rfl]
  rcases Nat.lt_or_eq_of_le h with hcut | hwhole
  · rw [headerFields_cut_symbol (by simpa using hcut)]
    rfl
  · have hsym := headerFields_symbol [] field [] (by rintro rfl; cases hwhole) (by simpa using hwhole)
    rw [List.append_nil] at hsym
    rw [hsym]
    rfl

theorem headerFlags_false_cons (bits : List Bool) : headerFlags (false :: bits) = headerFlags bits + 1 := by
  rw [headerFlags, headerFields, List.countP_cons_of_pos rfl]
  rfl

theorem headerSymsOk_false_cons (bits : List Bool) : headerSymsOk (false :: bits) = headerSymsOk bits := rfl

/-- The bits of a tree up to where they are cut: whole nodes, then the flag and fewer than nine symbol bits of a leaf,
or nothing (R94). -/
def Tree.CutAt (t : Tree) (bits : List Bool) : Prop :=
  ∃ pre tail, t.Before pre ∧ bits = pre ++ tail ∧ (tail = [] ∨ ∃ field, field.length < 9 ∧ tail = true :: field)

theorem Tree.Before.cutAt {t : Tree} {bits : List Bool} (h : t.Before bits) : t.CutAt bits :=
  ⟨bits, [], h, (List.append_nil bits).symm, .inl rfl⟩

theorem Tree.CutAt.left {l : Tree} {bits : List Bool} (h : l.CutAt bits) (r : Tree) :
    (Tree.node l r).CutAt (false :: bits) := by
  obtain ⟨pre, tail, hbefore, rfl, htail⟩ := h
  exact ⟨false :: pre, tail, .left r hbefore, rfl, htail⟩

theorem Tree.CutAt.right {r : Tree} {bits : List Bool} (h : r.CutAt bits) (l : Tree) :
    (Tree.node l r).CutAt (false :: (l.serialize ++ bits)) := by
  obtain ⟨pre, tail, hbefore, rfl, htail⟩ := h
  exact ⟨false :: (l.serialize ++ pre), tail, .right l hbefore, by simp, htail⟩

theorem Tree.cutAt_of_append {t : Tree} {bits missing : List Bool} (h : bits ++ missing = t.serialize)
    (hm : missing ≠ []) : t.CutAt bits := by
  induction t generalizing bits missing with
  | leaf v =>
    cases bits with
    | nil => exact (Tree.Before.root _).cutAt
    | cons b field =>
      obtain ⟨rfl, hfield : field ++ missing = lowBits 9 v.toNat⟩ := List.cons.inj h
      have hlen := congrArg List.length hfield
      rw [List.length_append, length_lowBits] at hlen
      have hpos := List.length_pos_iff.2 hm
      exact ⟨[], true :: field, .root _, rfl, .inr ⟨field, by omega, rfl⟩⟩
  | node l r ihl ihr =>
    cases bits with
    | nil => exact (Tree.Before.root _).cutAt
    | cons b bits =>
      obtain ⟨rfl, hbits : bits ++ missing = l.serialize ++ r.serialize⟩ := List.cons.inj h
      rcases List.append_eq_append_iff.1 hbits with ⟨inLeft, hl, hmissing⟩ | ⟨inRight, rfl, hr⟩
      · by_cases hwhole : inLeft = []
        · rw [hwhole, List.append_nil] at hl
          have hcut := (Tree.Before.root r).cutAt.right l
          rwa [List.append_nil, hl] at hcut
        · exact (ihl hl.symm hwhole).left r
      · exact (ihr hr.symm hm).right l

/-- Some number of engine steps leads from `s` to `t`. -/
def Reaches (s t : State) : Prop := ∃ k, engineSteps k s = .next t

theorem Reaches.refl (s : State) : Reaches s s := ⟨0, rfl⟩

theorem Reaches.trans {s t u : State} (h : Reaches s t) (h' : Reaches t u) : Reaches s u := by
  obtain ⟨m, hm⟩ := h
  obtain ⟨n, hn⟩ := h'
  exact ⟨m + n, (engineSteps_add hm).trans hn⟩

theorem Reaches.of_turn {s t : State} (h : engineTurn s = .next t) : Reaches s t := ⟨1, engineSteps_succ h⟩

section Reading

variable {i : Nat} {par : Option NodeIx} {s : State} {more : List Bool} (hcmd : decodeCmd s.cmdLatch = .ldt)
  (hpar : ∀ p ∈ par, p.toNat < Config.nodeCap)
include hcmd hpar

theorem ldt_reaches_internal (rest : List NodeIx) (hbits : s.unread = false :: more) (hi : i < Config.nodeCap) :
    ∃ m, Reaches (ldtNextFlag i par rest s) (ldtNextFlag (i + 1) none (BitVec.ofNat 10 i :: rest) (s.readInto 1 m)) :=
  ⟨_, .of_turn (ldtNextFlag_internal hcmd hbits hi hpar)⟩

theorem ldt_reaches_subtree {t : Tree} (p : NodeIx) (rest : List NodeIx) (hbits : s.unread = t.serialize ++ more)
    (hsyms : t.symsOk = true) (hsize : i + t.size ≤ Config.nodeCap) :
    ∃ m, Reaches (ldtNextFlag i par (p :: rest) s)
      (ldtNextFlag (i + t.size) (some p) rest (s.readInto t.serialize.length m)) :=
  ⟨_, _, ldtNextFlag_tree hcmd hbits hsyms hsize hpar⟩

/-- LOAD_TREE reads the whole nodes of a header up to a flag, and waits for it (R150). -/
theorem ldt_reaches_flag {t : Tree} {pre : List Bool} (h : t.Before pre) (rest : List NodeIx)
    (hbits : s.unread = pre ++ more) (hsyms : headerSymsOk pre = true) (hsize : i + headerFlags pre ≤ Config.nodeCap) :
    ∃ (par' : Option NodeIx) (rest' : List NodeIx) (m : NodeMem), (∀ p ∈ par', p.toNat < Config.nodeCap) ∧
      Reaches (ldtNextFlag i par rest s) (ldtNextFlag (i + headerFlags pre) par' rest' (s.readInto pre.length m)) := by
  induction h generalizing i par rest s with
  | root t =>
    refine ⟨par, rest, s.nodes, hpar, ?_⟩
    rw [List.length_nil, State.readInto_zero]
    exact .refl _
  | @left l pre r h ih =>
    rw [headerFlags_false_cons, Nat.add_comm _ 1, ← Nat.add_assoc] at hsize ⊢
    obtain ⟨m₁, hopen⟩ := ldt_reaches_internal (i := i) hcmd hpar rest hbits (by omega)
    have hunread : (s.readInto 1 m₁).unread = pre ++ more := by rw [State.readInto_unread, hbits]; rfl
    obtain ⟨par', rest', m, hpar', hrun⟩ :=
      ih (par := none) (s := s.readInto 1 m₁) hcmd nofun _ hunread hsyms hsize
    rw [State.readInto_readInto] at hrun
    rw [List.length_cons, Nat.add_comm pre.length]
    exact ⟨par', rest', m, hpar', hopen.trans hrun⟩
  | @right r pre l h ih =>
    have hflags : i + headerFlags (false :: (l.serialize ++ pre)) = i + 1 + l.size + headerFlags pre := by
      rw [headerFlags_false_cons, headerFlags_serialize]
      omega
    have hlen : (false :: (l.serialize ++ pre)).length = 1 + l.serialize.length + pre.length := by
      rw [List.length_cons, List.length_append]
      omega
    rw [hflags] at hsize ⊢
    rw [headerSymsOk_false_cons, headerSymsOk_serialize, Bool.and_eq_true] at hsyms
    obtain ⟨hlsyms, hsyms⟩ := hsyms
    have hi : i < Config.nodeCap := by omega
    rw [List.cons_append, List.append_assoc] at hbits
    obtain ⟨m₁, hopen⟩ := ldt_reaches_internal hcmd hpar rest hbits hi
    have hlunread : (s.readInto 1 m₁).unread = l.serialize ++ (pre ++ more) := by
      rw [State.readInto_unread, hbits]
      rfl
    obtain ⟨m₂, hleft⟩ := ldt_reaches_subtree (i := i + 1) (par := none) (s := s.readInto 1 m₁) hcmd nofun
      (BitVec.ofNat 10 i) rest hlunread hlsyms (by omega)
    have hunread : ((s.readInto 1 m₁).readInto l.serialize.length m₂).unread = pre ++ more := by
      rw [State.readInto_unread, hlunread, List.drop_left]
    obtain ⟨par', rest', m, hpar', hrun⟩ := ih (par := some (BitVec.ofNat 10 i))
      (s := (s.readInto 1 m₁).readInto _ m₂) hcmd (parent_lt hi) rest hunread hsyms hsize
    simp only [State.readInto_readInto] at hleft hrun
    rw [hlen]
    exact ⟨par', rest', m, hpar', hopen.trans (hleft.trans hrun)⟩

end Reading

/-! ### The errors -/

section Errors

variable {i : Nat} {par : Option NodeIx} {rest : List NodeIx} {s : State} (hcmd : decodeCmd s.cmdLatch = .ldt)
include hcmd

theorem ldt_reaches_malformed_of_no_flag (hbits : s.unread = []) :
    Reaches (ldtNextFlag i par rest s) ((s.consume 1).forgetNodes.raise .malformedHeader) := by
  refine .of_turn ?_
  rw [engineTurn_ldtNextFlag hcmd, State.peekBits_none (by simp [hbits])]
  rfl

theorem ldt_reaches_malformed_of_no_symbol {field : List Bool} (hbits : s.unread = true :: field)
    (hlen : field.length < 9) (hi : i < Config.nodeCap) (hpar : ∀ p ∈ par, p.toNat < Config.nodeCap) :
    Reaches (ldtNextFlag i par rest s) ((s.consume 10).forgetNodes.raise .malformedHeader) := by
  have hflag := ldtNextFlag_leaf (rest := rest) hcmd hbits hi hpar
  have hfield : (s.readInto 1 (s.nodes.linkRight par i)).unread = field := by
    rw [State.readInto_unread, hbits]
    rfl
  have hsym := engineTurn_ldtSym (n := BitVec.ofNat 10 (i + 1)) (i := BitVec.ofNat 10 i) (stack := rest)
    (s := s.readInto 1 (s.nodes.linkRight par i)) hcmd
  rw [State.peekBits_none (by rwa [hfield])] at hsym
  rw [← State.consume_consume 1 9]
  exact (Reaches.of_turn hflag).trans (.of_turn hsym)

theorem ldt_reaches_treeCapacity {b : Bool} {more : List Bool} (hbits : s.unread = b :: more) :
    Reaches (ldtNextFlag Config.nodeCap par rest s) ((s.consume 1).forgetNodes.raise .treeCapacity) := by
  refine .of_turn ?_
  rw [engineTurn_ldtNextFlag hcmd, State.peekBits_flag hbits]
  rfl

/-- A header that is cut is read to the end of IN before the error (R150, R215). -/
theorem ldt_reaches_malformed_of_cutAt {t : Tree} (hcut : t.CutAt s.unread) (hsyms : headerSymsOk s.unread = true)
    (hflags : headerFlags s.unread ≤ Config.nodeCap) :
    ∃ n, s.unread.length < n ∧
      Reaches (ldtNextFlag 0 none [] s) ((s.consume n).forgetNodes.raise .malformedHeader) := by
  obtain ⟨pre, tail, hbefore, hbits, htail⟩ := hcut
  rw [hbits] at hsyms hflags
  rw [hbefore.headerSymsOk_append, Bool.and_eq_true] at hsyms
  obtain ⟨hsyms, -⟩ := hsyms
  rw [hbefore.headerFlags_append] at hflags
  obtain ⟨par, rest, m, hpar, hread⟩ := ldt_reaches_flag (i := 0) (par := none) hcmd nofun hbefore [] hbits hsyms
    (by omega)
  have hunread : (s.readInto pre.length m).unread = tail := by rw [State.readInto_unread, hbits, List.drop_left]
  rcases htail with rfl | ⟨field, hlen, rfl⟩
  · refine ⟨pre.length + 1, by simp [hbits], hread.trans ?_⟩
    rw [← State.consume_consume]
    exact ldt_reaches_malformed_of_no_flag (s := s.readInto pre.length m) hcmd hunread
  · rw [headerFlags_leaf hlen.le] at hflags
    refine ⟨pre.length + 10, ?_, hread.trans ?_⟩
    · rw [hbits, List.length_append, List.length_cons]
      omega
    · rw [← State.consume_consume]
      exact ldt_reaches_malformed_of_no_symbol (s := s.readInto pre.length m) hcmd hunread hlen (by omega) hpar

end Errors

/-- Settles O27: where the bits end LOAD_TREE waits for a flag or for a symbol, and the read returns EXH. -/
theorem loadTreeTruncated : Obligations.LoadTreeTruncated := by
  intro s t missing hstart _ hbits hmissing hsyms hflags
  obtain ⟨n, hn, k, hrun⟩ := ldt_reaches_malformed_of_cutAt (s := s.flagsUnload) hstart.2
    (Tree.cutAt_of_append hbits hmissing) hsyms hflags
  rw [← engineSteps_succ hstart.ldt_turn] at hrun
  exact ⟨_, _, hrun, rfl, rfl, rfl, State.consume_ip_of_lt hn, rfl, rfl, rfl, rfl⟩

/-- A flag stands where the bits before it are whole nodes. -/
theorem Tree.Before.of_headerFlags_ne {t : Tree} {bits : List Bool} {b : Bool} (hpre : bits ++ [b] <+: t.serialize)
    (hflag : headerFlags (bits ++ [b]) ≠ headerFlags bits) : t.Before bits := by
  obtain ⟨more, hmore⟩ := hpre
  rw [List.append_assoc] at hmore
  obtain ⟨pre, tail, hbefore, rfl, rfl | ⟨field, hlen, rfl⟩⟩ := Tree.cutAt_of_append hmore (by simp)
  · rwa [List.append_nil]
  · have hfield : (field ++ [b]).length ≤ 9 := by simpa using hlen
    rw [List.append_assoc, List.cons_append, hbefore.headerFlags_append, hbefore.headerFlags_append,
      headerFlags_leaf hfield, headerFlags_leaf hlen.le] at hflag
    exact absurd rfl hflag

/-- Settles O28: in front of the 514th flag 513 nodes have been allocated. -/
theorem loadTreeOverCapacity : Obligations.LoadTreeOverCapacity := by
  intro s t nodes rest b hstart _ hbits hpre hsyms hcount hflag
  have hbefore := Tree.Before.of_headerFlags_ne hpre (by omega)
  obtain ⟨par, stack, m, -, hread⟩ := ldt_reaches_flag (i := 0) (par := none) (s := s.flagsUnload) hstart.2 nofun
    hbefore [] hbits hsyms (by omega)
  rw [hcount, Nat.zero_add] at hread
  have hunread : (s.flagsUnload.readInto nodes.length m).unread = b :: rest := by
    rw [State.readInto_unread]
    exact (congrArg (List.drop nodes.length) hbits).trans List.drop_left
  obtain ⟨k, hrun⟩ := hread.trans
    (ldt_reaches_treeCapacity (s := s.flagsUnload.readInto nodes.length m) hstart.2 hunread)
  rw [← engineSteps_succ hstart.ldt_turn, State.readInto] at hrun
  have hfits : nodes.length + 1 ≤ s.unread.length := by simp [hbits]
  obtain ⟨hip, hinBits⟩ := State.consume_of_le hfits
  rw [← State.consume_consume] at hip hinBits
  exact ⟨_, _, hrun, rfl, rfl, rfl, hip, hinBits, rfl, rfl, rfl, rfl⟩

/-! ### One step -/

/-- Settles O25. -/
theorem loadTreeBegins : Obligations.LoadTreeBegins := by
  intro s hrun
  exact ⟨_, execLdt_start hrun, rfl, rfl, rfl⟩

/-- Settles O29: each clause is the branch of `ldtRaise` at its test. -/
theorem loadTreeErrors : Obligations.LoadTreeErrors := by
  intro s n i stack attach e hpoint
  have hraise : exec .ldt s = ldtRaise e s := by
    rcases hpoint with ⟨hrun, rfl⟩ | ⟨b, hrun, hfull, rfl⟩ | ⟨hrun, rfl⟩ | ⟨y, hrun, hbad, rfl⟩
    · simp only [exec, execLdt, hrun, ldtFlagStep]
    · have hcap : n.toNat = Config.nodeCap := hfull
      simp only [exec, execLdt, hrun, ldtFlagStep, if_pos hcap]
    · simp only [exec, execLdt, hrun, ldtSymStep]
    · have hlt : Config.eofSym < y := hbad
      simp only [exec, execLdt, hrun, ldtSymStep, if_pos hlt]
  exact ⟨_, hraise, rfl⟩

end Sys2Proof.Machine
end

section
/-! PROOFS. STORE_TREE and the header's round trip: O30, O31 (spec/30_encoding.md R94; spec/42_tree_codec.md R153,
R154). -/

namespace Sys2Proof.Machine

/-- The bits `bits` are appended to OUT and counted (R68). -/
def State.appendOut (bits : List Bool) (s : State) : State :=
  { s with out := s.out ++ bits, outBits := s.outBits + BitVec.ofNat 32 bits.length }

theorem State.writeBits_eq_appendOut (n v : Nat) (s : State) : s.writeBits n v = s.appendOut (lowBits n v) := by
  rw [State.appendOut, length_lowBits]
  rfl

theorem State.appendOut_append (a b : List Bool) (s : State) :
    s.appendOut (a ++ b) = (s.appendOut a).appendOut b := by
  simp only [State.appendOut, List.append_assoc, List.length_append, BitVec.ofNat_add, BitVec.add_assoc]

@[simp] theorem State.appendOut_nodes (bits : List Bool) (s : State) : (s.appendOut bits).nodes = s.nodes := rfl

@[simp] theorem State.appendOut_cmdLatch (bits : List Bool) (s : State) : (s.appendOut bits).cmdLatch = s.cmdLatch :=
  rfl

/-! ### The points of STORE_TREE -/

theorem engineTurn_stt {s : State} (hcmd : decodeCmd s.cmdLatch = .stt) (p : Point) :
    engineTurn (s.resumeAt p) = execStt (s.resumeAt p) := by
  rw [engineTurn_run rfl, State.resumeAt_cmdLatch, hcmd]
  rfl

theorem sttLoopStep_resumeAt (stack : List NodeIx) (p : Point) (s : State) :
    sttLoopStep stack (s.resumeAt p) = sttLoopStep stack s := by
  cases stack <;> rfl

theorem execStt_sttLoop (stack : List NodeIx) (s : State) :
    execStt (s.resumeAt (.sttLoop stack)) = sttLoopStep stack s := sttLoopStep_resumeAt stack _ s

theorem execStt_sttLeaf {i : NodeIx} (hi : i.toNat < Config.nodeCap) (stack : List NodeIx) (s : State) :
    execStt (s.resumeAt (.sttLeaf i stack)) =
      .next ((s.appendOut (lowBits 9 (s.nodes.read i.toNat).sym.toNat)).resumeAt (.sttLoop stack)) := by
  rw [← State.writeBits_eq_appendOut]
  simp only [execStt, State.resumeAt_eng, withNode_of_lt hi]
  rfl

theorem execStt_sttInternal {i : NodeIx} (hi : i.toNat < Config.nodeCap) (stack : List NodeIx) (s : State) :
    execStt (s.resumeAt (.sttInternal i stack)) =
      sttLoopStep ((s.nodes.read i.toNat).left :: (s.nodes.read i.toNat).right :: stack) s := by
  simp only [execStt, State.resumeAt_eng, withNode_of_lt hi]
  exact sttLoopStep_resumeAt _ _ s

/-- Where STORE_TREE resumes after the flag of node `i` (R153). -/
def afterFlag (e : Node) (i : NodeIx) (stack : List NodeIx) : Point :=
  if nodeIsLeaf e then .sttLeaf i stack else .sttInternal i stack

/-- The node on top of the stack is popped and its KIND appended as its flag (R153). -/
theorem sttLoopStep_cons {i : NodeIx} (hi : i.toNat < Config.nodeCap) (stack : List NodeIx) (s : State) :
    sttLoopStep (i :: stack) s =
      .next ((s.appendOut [nodeIsLeaf (s.nodes.read i.toNat)]).resumeAt
        (afterFlag (s.nodes.read i.toNat) i stack)) := by
  rw [sttLoopStep, withNode_of_lt hi, afterFlag]
  cases nodeIsLeaf (s.nodes.read i.toNat) <;> rfl

/-! ### A whole tree -/

/-- The engine stands where its next turn is STORE_TREE's loop test over `stack`, and `s` is the state but for the
resume point (R153). -/
def Storing (stack : List NodeIx) (s u : State) : Prop :=
  decodeCmd s.cmdLatch = .stt ∧ engineTurn u = sttLoopStep stack s

/-- STORE_TREE appends the bits of the tree on top of the stack, one step for each node and one more for each leaf
(R153, R254). -/
theorem storing_tree {t : Tree} {i : Nat} {rest : List NodeIx} {s u : State}
    (h : Storing (BitVec.ofNat 10 i :: rest) s u) (hholds : s.nodes.holds i t) (hsize : i + t.size ≤ Config.nodeCap) :
    ∃ w, engineSteps (t.size + t.symbols.length) u = .next w ∧ Storing rest (s.appendOut t.serialize) w := by
  induction t generalizing i rest s u with
  | leaf v =>
    obtain ⟨hcmd, hflag⟩ := h
    obtain ⟨hnode, -⟩ := hholds
    have hlt : i < Config.nodeCap := hsize
    have hn : (BitVec.ofNat 10 i).toNat = i := toNat_nodeIx hlt.le
    rw [sttLoopStep_cons (by rwa [hn]), hn, hnode] at hflag
    have hsym := engineTurn_stt (s := s.appendOut [true]) hcmd (.sttLeaf (BitVec.ofNat 10 i) rest)
    rw [execStt_sttLeaf (by rwa [hn]), State.appendOut_nodes, hn, hnode, ← State.appendOut_append] at hsym
    have hloop := engineTurn_stt (s := s.appendOut (Tree.leaf v).serialize) hcmd (.sttLoop rest)
    rw [execStt_sttLoop] at hloop
    exact ⟨_, (engineSteps_succ hflag).trans (engineSteps_succ hsym), hcmd, hloop⟩
  | node l r ihl ihr =>
    obtain ⟨hcmd, hflag⟩ := h
    obtain ⟨hnode, hl, hr⟩ := hholds
    simp only [Tree.size] at hsize
    have hlt : i < Config.nodeCap := by omega
    have hn : (BitVec.ofNat 10 i).toNat = i := toNat_nodeIx hlt.le
    rw [sttLoopStep_cons (by rwa [hn]), hn, hnode] at hflag
    have hchildren := engineTurn_stt (s := s.appendOut [false]) hcmd (.sttInternal (BitVec.ofNat 10 i) rest)
    rw [execStt_sttInternal (by rwa [hn]), State.appendOut_nodes, hn, hnode] at hchildren
    obtain ⟨u₁, hleft, hstoring⟩ := ihl (i := i + 1) (s := s.appendOut [false]) ⟨hcmd, hchildren⟩ hl (by omega)
    obtain ⟨w, hright, hdone⟩ := ihr (i := i + 1 + l.size) hstoring hr (by omega)
    rw [← State.appendOut_append, ← State.appendOut_append] at hdone
    refine ⟨w, ?_, hdone⟩
    rw [Tree.steps_node, engineSteps_succ hflag]
    exact (engineSteps_add hleft).trans hright

/-- Settles O30: the run starts with the root alone on the stack and ends where the stack is empty. -/
theorem storeTreeAppendsSerializedTree : Obligations.StoreTreeAppendsSerializedTree := by
  rintro s t ⟨hrun, hcmd⟩ ⟨hvalid, -, hsize, hholds⟩
  have hfirst : exec .stt s = sttLoopStep [0] s := by simp only [exec, execStt, hrun, hvalid, if_true]
  have hturn : engineTurn s = sttLoopStep [0] s := by rw [engineTurn_run hrun, hcmd, hfirst]
  obtain ⟨w, hsteps, -, hend⟩ := storing_tree (i := 0) ⟨hcmd, hturn⟩ hholds (by omega)
  have hflag : nodeIsLeaf (s.nodes.read 0) :: [] = t.serialize.take 1 := by
    cases t with
    | leaf v => rw [hholds.1]; rfl
    | node l r => rw [hholds.1]; rfl
  rw [sttLoopStep_cons (by decide)] at hfirst
  have hdone : engineSteps (t.size + t.symbols.length + 1) s = .next (s.appendOut t.serialize).finish := by
    rw [engineSteps_add hsteps, engineSteps_succ hend, engineSteps_zero]
  exact ⟨_, _, hfirst, congrArg (s.out ++ ·) hflag, hdone, rfl⟩

/-! ### The round trip -/

/-- Two memories that hold one tree at one place agree on its nodes (R40, R151). -/
theorem NodeMem.read_eq_of_holds {m m' : NodeMem} {i : Nat} {t : Tree} (h : m.holds i t) (h' : m'.holds i t) {j : Nat}
    (hlow : i ≤ j) (hhigh : j < i + t.size) : m'.read j = m.read j := by
  induction t generalizing i with
  | leaf v =>
    simp only [Tree.size] at hhigh
    obtain rfl : j = i := by omega
    exact h'.1.trans h.1.symm
  | node l r ihl ihr =>
    simp only [Tree.size] at hhigh
    obtain ⟨hnode, hl, hr⟩ := h
    obtain ⟨hnode', hl', hr'⟩ := h'
    rcases Nat.lt_or_ge j (i + 1 + l.size) with hlt | hge
    · rcases Nat.eq_or_lt_of_le hlow with rfl | hinner
      · exact hnode'.trans hnode.symm
      · exact ihl hl hl' hinner hlt
    · exact ihr hr hr' hge (by omega)

theorem started_stt_accept (s : State) : Started .stt (s.accept 2) := ⟨rfl, (by decide : decodeCmd 2 = .stt)⟩

/-- Settles O31: both commands stand to the same tree as O26 and O30 say, and a tree fixes its entries of NODE. -/
theorem headerRoundTrip : Obligations.HeaderRoundTrip := by
  intro s t rest hstart hcursor hbits hsyms hsize
  obtain ⟨u, hload, hu, huip, -, hueq⟩ := loadTreeLoadsSerializedTree s t rest hstart hcursor hbits hsyms hsize
  obtain ⟨-, v, -, -, hstore, hveq⟩ := storeTreeAppendsSerializedTree (u.accept 2) t (started_stt_accept u) hu
  have hvout : v.out = u.out ++ t.serialize := by rw [hveq]; rfl
  have hread : (s.input.drop s.ip).take (u.ip - s.ip) = t.serialize := by
    rw [huip, Nat.add_sub_cancel_left]
    exact (congrArg (List.take _) hbits).trans List.take_left
  refine ⟨_, _, u, v, hload, by rw [hueq], by rw [hueq], hstore, by rw [hveq], by rw [hveq], by rw [hvout, hread], ?_⟩
  intro w rest' hwstart hwcursor hwbits
  rw [hvout, List.drop_left] at hwbits
  obtain ⟨x, hreload, hx, -, -, hxeq⟩ := loadTreeLoadsSerializedTree w t rest' hwstart hwcursor hwbits hsyms hsize
  obtain ⟨-, hucount, -, huholds⟩ := hu
  obtain ⟨-, hxcount, -, hxholds⟩ := hx
  refine ⟨_, x, hreload, by rw [hxeq], by rw [hxeq], BitVec.eq_of_toNat_eq (hxcount.trans hucount.symm), fun i hi => ?_⟩
  rw [hucount] at hi
  exact NodeMem.read_eq_of_holds huholds hxholds (Nat.zero_le i) (by omega)

end Sys2Proof.Machine
end

section
/-! PROOFS. What a step of LOAD_TREE stores to, and the errors of the commands that need a tree: O45, O50
(spec/41_code_table.md R140; spec/42_tree_codec.md R150, R153; spec/44_decoder.md R191; spec/60_exceptions.md R212). -/

namespace Sys2Proof.Machine

/-! ### NO_TREE and DEGENERATE_TREE -/

/-- Settles O45: the first test of each command fails before its first stream access. -/
theorem treeReadersRaise : Obligations.TreeReadersRaise := by
  intro s i e hrun hcase
  rcases hcase with ⟨rfl | rfl | rfl, htree, rfl⟩ | ⟨rfl, htree, hkind, hsym, rfl⟩
  · have hraise : exec .stt s = .next (s.raise .noTree) := by simp [exec, execStt, hrun, htree]
    exact ⟨_, hraise, fun _ => rfl, rfl⟩
  · have hraise : exec .drv s = drvRaise .noTree s := by simp [exec, execDrv, hrun, htree]
    exact ⟨_, hraise, fun hdrv => absurd rfl hdrv, rfl⟩
  · have hraise : exec .dec s = .next (s.raise .noTree) := by simp [exec, execDec, hrun, htree]
    exact ⟨_, hraise, fun _ => rfl, rfl⟩
  · have hdata : (nodeIsLeaf (s.nodes.read 0) && !nodeIsEof (s.nodes.read 0)) = true := by
      have heof : ((s.nodes.read 0).sym == Config.eofSym) = false := beq_false_of_ne hsym
      simp [nodeIsEof, nodeIsLeaf_iff.2 hkind, heof]
    have hraise : exec .dec s = .next (s.raise .degenerateTree) := by
      simp only [exec, execDec, hrun, htree, if_true]
      rw [withNode_of_lt (by decide)]
      exact if_pos hdata
    exact ⟨_, hraise, fun _ => rfl, rfl⟩

/-! ### The entries of NODE a step stores to -/

/-- Outside the entries in `stores` the tree memory reads in `t` as in `s`. -/
def KeepsNodesBut (stores : List Nat) (s t : State) : Prop := ∀ j, j ∉ stores → t.nodes.read j = s.nodes.read j

/-- A step that did not end in an error: the command goes on, or it has just set TREE_VALID (R124, R150). -/
def EndsWell (s t : State) : Prop := t.eng = .idle → t.treeValid = true ∧ s.treeValid = false

/-- An error of LOAD_TREE ends the command and does not set TREE_VALID (R125, R150). -/
theorem not_endsWell_of_ldtRaise {e : ErrCode} {s t : State} (h : ldtRaise e s = .next t) : ¬EndsWell s t := by
  cases h
  intro hwell
  obtain ⟨hset, hclear⟩ := hwell rfl
  exact absurd (hset.symm.trans hclear) nofun

theorem ldtNode_keepsNodesBut {b : BitVec 1} {n : NodeIx} {rest : List NodeIx} {s t : State}
    (h : ldtNode b n rest s = .next t) : KeepsNodesBut (if b = 0 then [n.toNat] else []) s t := by
  unfold ldtNode at h
  split at h
  · cases h
    exact fun j _ => rfl
  · rename_i hb
    obtain ⟨-, h⟩ := putNode_next h
    cases h
    have hzero : b = 0 := (BitVec.eq_zero_or_eq_one b).resolve_right hb
    intro j hj
    rw [if_pos hzero, List.mem_singleton] at hj
    exact NodeMem.read_write_other _ _ hj

theorem ldtFlagStep_keepsNodesBut {f : Option (BitVec 1)} {n : NodeIx} {stack : List NodeIx} {attach : Bool}
    {s t : State} (h : ldtFlagStep f n stack attach s = .next t) (hwell : EndsWell s t) :
    KeepsNodesBut (ldtStores (.ldtFlag f n stack attach)) s t := by
  rcases ldtFlagStep_next h with ⟨e, -, h⟩ | ⟨b, rfl, -, h⟩
  · exact absurd hwell (not_endsWell_of_ldtRaise h)
  · intro j hj
    rw [ldtStores, List.mem_append, not_or] at hj
    obtain ⟨hparent, hnode⟩ := hj
    rcases ldtAttach_next h with ⟨-, h⟩ | ⟨p, rest, rfl, rfl, -, h⟩
    · exact ldtNode_keepsNodesBut h j hnode
    · have hp : j ≠ p.toNat := by simpa using hparent
      exact (ldtNode_keepsNodesBut h j hnode).trans (NodeMem.read_write_other _ _ hp)

theorem ldtSymStep_keepsNodesBut {v : Option Symbol} {n i : NodeIx} {stack : List NodeIx} {s t : State}
    (h : ldtSymStep v n i stack s = .next t) (hwell : EndsWell s t) :
    KeepsNodesBut (ldtStores (.ldtSym v n i stack)) s t := by
  cases v with
  | none => exact absurd hwell (not_endsWell_of_ldtRaise h)
  | some y =>
    simp only [ldtSymStep] at h
    split at h
    · exact absurd hwell (not_endsWell_of_ldtRaise h)
    · obtain ⟨-, h⟩ := putNode_next h
      intro j hj
      rw [ldtStores, List.mem_singleton] at hj
      split at h
      · cases h
        exact NodeMem.read_write_other _ _ hj
      · cases h
        exact NodeMem.read_write_other _ _ hj

theorem execLdt_keepsNodesBut {s t : State} {p : Point} (hrun : s.eng = .run p) (h : execLdt s = .next t)
    (hwell : EndsWell s t) : KeepsNodesBut (ldtStores p) s t := by
  unfold execLdt at h
  split at h
  · cases h
    exact fun j _ => rfl
  · rename_i heng
    cases hrun.symm.trans heng
    exact ldtFlagStep_keepsNodesBut h hwell
  · rename_i heng
    cases hrun.symm.trans heng
    exact ldtSymStep_keepsNodesBut h hwell
  · cases h

/-- Settles O50: LOAD_TREE's updates own the input side, NODE and its registers, and the command's end. -/
theorem frameLoadTree : Obligations.FrameLoadTree := by
  intro s t h
  have kept : Kept .ldt s t := exec_kept nofun h
  refine ⟨?_, fun j => by rw [kept.codes nofun], fun p hrun hwell => execLdt_keepsNodesBut hrun h hwell⟩
  rw [← kept.ovr, ← kept.magic, ← kept.input, ← kept.agenda, ← kept.reads, ← kept.out rfl, ← kept.outBits rfl,
    ← kept.symCount rfl, ← kept.codes nofun]

end Sys2Proof.Machine
end

section
/-! PROOFS. Every step from the machine invariant answers: O57 (spec/20_memory.md R60, R61; spec/42_tree_codec.md
R152). -/

namespace Sys2Proof.Machine

/-! ### Shared operations -/

/-- The meaning answers with a next state, so it neither faults nor refuses. -/
def Answers (r : Result) : Prop := ∃ t, r = .next t

theorem Answers.next (t : State) : Answers (.next t) := ⟨t, rfl⟩

theorem Answers.ite {c : Prop} [Decidable c] {a b : Result} (ha : c → Answers a) (hb : ¬c → Answers b) :
    Answers (if c then a else b) := by
  split
  · exact ha ‹_›
  · exact hb ‹_›

theorem Answers.withNode {i : NodeIx} {s : State} {k : Node → Result} (hi : i.toNat < Config.nodeCap)
    (hk : Answers (k (s.nodes.read i.toNat))) : Answers (withNode i s k) := (withNode_of_lt hi s k).symm ▸ hk

theorem Answers.putNode {i : NodeIx} {e : Node} {s : State} {k : State → Result} (hi : i.toNat < Config.nodeCap)
    (hk : ∀ t, Answers (k t)) : Answers (putNode i e s k) := (putNode_of_lt hi e s k).symm ▸ hk _

theorem Answers.withCode {y : Symbol} {s : State} {k : CodeEntry → Result} (hy : y ≤ Config.eofSym)
    (hk : ∀ c, Answers (k c)) : Answers (withCode y s k) := (withCode_of_le hy s k).symm ▸ hk _

theorem Answers.emitCode {c : CodeEntry} {k : Nat} {p : Nat → Point} {s : State} {rest : State → Result}
    (hrest : Answers (rest s)) : Answers (emitCode c k p s rest) := .ite (fun _ => .next _) fun _ => hrest

/-! ### STORE_TREE, DECODE, ENCODE and ENCODE_SYM -/

theorem sttLoopStep_answers {stack : List NodeIx} {s : State} (hstack : ∀ k ∈ stack, s.nodes.treeAt k.toNat) :
    Answers (sttLoopStep stack s) := by
  cases stack with
  | nil => exact .next _
  | cons i rest =>
    have hi := NodeMem.treeAt_lt (hstack i List.mem_cons_self)
    exact ⟨_, sttLoopStep_cons hi rest s⟩

theorem decDescend_answers {r : BitVec 1} {s : State} (hcur : s.nodes.treeAt s.cur.toNat) :
    Answers (decDescend r s) := .withNode (NodeMem.treeAt_lt hcur) (.next _)

theorem decReadStep_answers {r : Option (BitVec 1)} {s : State} (hcur : s.nodes.treeAt s.cur.toNat) :
    Answers (decReadStep r s) := by
  refine .withNode (NodeMem.treeAt_lt hcur) (.ite (fun _ => .next _) fun _ => ?_)
  cases r with
  | none => exact .next _
  | some b => exact .ite (fun _ => .next _) fun _ => decDescend_answers hcur

theorem encAfter_answers (y : Symbol) (s : State) : Answers (encAfter y s) := .ite (fun _ => .next _) fun _ => .next _

theorem encReadStep_answers (v : Option Byte) (s : State) : Answers (encReadStep v s) :=
  .withCode (encSymbol_le v) fun _ => .ite (fun _ => .emitCode (encAfter_answers _ _)) fun _ => .next _

theorem encodeSymbol_start_answers {y : Symbol} {s : State} (hy : y ≤ Config.eofSym) (hrun : s.eng = .run .start) :
    Answers (encodeSymbol y s) := by
  simp only [encodeSymbol, hrun]
  refine .ite (fun _ => .withCode hy fun _ => ?_) fun _ => .next _
  exact .ite (fun _ => .emitCode (.next _)) fun _ => .next _

theorem encodeSymbol_bits_answers {y : Symbol} {s : State} {k : Nat} (hy : y ≤ Config.eofSym)
    (hrun : s.eng = .run (.ensBits k)) : Answers (encodeSymbol y s) := by
  simp only [encodeSymbol, hrun]
  exact .withCode hy fun _ => .emitCode (.next _)

/-! ### LOAD_TREE -/

theorem ldtRaise_answers (e : ErrCode) (s : State) : Answers (ldtRaise e s) := .next _

/-- The stack holds the parent of a right child, which is a node below the next one (R152). -/
theorem LoadOk.attach_answers {n : NodeIx} {stack : List NodeIx} {attach : Bool} {s : State}
    {k : List NodeIx → State → Result} (hload : LoadOk s.nodes n stack attach) (hk : ∀ rest t, Answers (k rest t)) :
    Answers (ldtAttach n stack attach s k) := by
  obtain ⟨hn, hload⟩ := hload
  cases attach with
  | false => exact hk stack s
  | true =>
    cases stack with
    | nil => exact hload.elim
    | cons p rest =>
      obtain ⟨l, -, -, -, hsize⟩ := hload
      have hp : p.toNat < Config.nodeCap := by omega
      rw [ldtAttach]
      exact .withNode hp (.putNode hp (hk rest))

theorem ldtFlagStep_answers {f : Option (BitVec 1)} {n : NodeIx} {stack : List NodeIx} {attach : Bool} {s : State}
    (hload : LoadOk s.nodes n stack attach) : Answers (ldtFlagStep f n stack attach s) := by
  cases f with
  | none => exact ldtRaise_answers _ s
  | some b =>
    refine .ite (fun _ => ldtRaise_answers _ s) fun hcap => hload.attach_answers fun rest t => ?_
    have hn : n.toNat < Config.nodeCap := Nat.lt_of_le_of_ne hload.1 hcap
    exact .ite (fun _ => .next _) fun _ => .putNode hn fun _ => .next _

theorem ldtSymStep_answers {v : Option Symbol} {n i : NodeIx} {stack : List NodeIx} {s : State}
    (hi : i.toNat < Config.nodeCap) : Answers (ldtSymStep v n i stack s) := by
  cases v with
  | none => exact ldtRaise_answers _ s
  | some y =>
    refine .ite (fun _ => ldtRaise_answers _ s) fun _ => .putNode hi fun t => ?_
    cases stack with
    | nil => exact .next _
    | cons p rest => exact .next _

/-! ### The commands -/

/-- The first step of every command answers (R123). -/
theorem exec_start_answers {i : Instr} {s : State} (hmem : MemInv s) (hrun : s.eng = .run .start) :
    Answers (exec i s) := by
  cases i with
  | srst ignored => exact .next _
  | nop | wrm | ckm | rwd | illegal =>
    simp only [exec, execNop, execWrm, execCkm, execRwd, execIllegal, hrun]
    exact .next _
  | ldt => exact ⟨_, execLdt_start hrun⟩
  | stt =>
    simp only [exec, execStt, hrun]
    refine .ite (fun htree => sttLoopStep_answers ?_) fun _ => .next _
    exact List.forall_mem_singleton.2 (hmem.treeAt_root htree)
  | drv =>
    by_cases htree : s.treeValid = true
    · obtain ⟨t, ht, -⟩ := hmem.tree htree
      rw [exec_drv_of_hasTree hrun ht]
      cases deriveCodes [] t CodeMem.zeros with
      | none => exact .next _
      | some c => exact .next _
    · simp only [exec, execDrv, hrun, if_neg htree]
      exact .next _
  | enc =>
    simp only [exec, execEnc, hrun]
    exact .ite (fun _ => .next _) fun _ => .next _
  | ens b => exact encodeSymbol_start_answers (symbolOfByte_le b) hrun
  | ensEof => exact encodeSymbol_start_answers (BitVec.le_refl _) hrun
  | dec =>
    simp only [exec, execDec, hrun]
    refine .ite (fun _ => .withNode (by decide) ?_) fun _ => .next _
    exact .ite (fun _ => .next _) fun _ => .next _

/-- Where the resume point belongs to the running command its step answers (R22, R60, R152). -/
theorem exec_answers {i : Instr} {s : State} {p : Point} (hmem : MemInv s) (hrun : s.eng = .run p)
    (hpoint : PointOk i s p) : Answers (exec i s) := by
  cases p with
  | start => exact exec_start_answers hmem hrun
  | ldtFlag f n stack attach =>
    obtain ⟨rfl, -, hload⟩ := hpoint
    simp only [exec, execLdt, hrun]
    exact ldtFlagStep_answers hload
  | ldtSym v n j stack =>
    obtain ⟨rfl, -, -, hj, -⟩ := hpoint
    simp only [exec, execLdt, hrun]
    exact ldtSymStep_answers hj
  | sttInternal j stack =>
    obtain ⟨rfl, -, hkind, hstack⟩ := hpoint
    simp only [exec, execStt, hrun]
    obtain ⟨hj, hrest⟩ := List.forall_mem_cons.1 hstack
    obtain ⟨hleft, hright⟩ := NodeMem.treeAt_children hj hkind
    exact .withNode (NodeMem.treeAt_lt hj)
      (sttLoopStep_answers (List.forall_mem_cons.2 ⟨hleft, List.forall_mem_cons.2 ⟨hright, hrest⟩⟩))
  | sttLeaf j stack =>
    obtain ⟨rfl, -, -, hstack⟩ := hpoint
    simp only [exec, execStt, hrun]
    exact .withNode (NodeMem.treeAt_lt (hstack j List.mem_cons_self)) (.next _)
  | sttLoop stack =>
    obtain ⟨rfl, -, hstack⟩ := hpoint
    simp only [exec, execStt, hrun]
    exact sttLoopStep_answers hstack
  | ckmRead v =>
    obtain rfl : i = .ckm := hpoint
    simp only [exec, execCkm, hrun]
    exact .ite (fun _ => .next _) fun _ => .next _
  | wrmWritten =>
    obtain rfl : i = .wrm := hpoint
    simp only [exec, execWrm, hrun]
    exact .next _
  | encRead v =>
    obtain ⟨rfl, -⟩ := hpoint
    simp only [exec, execEnc, hrun]
    exact encReadStep_answers v s
  | encBits y k =>
    obtain ⟨rfl, -, hy, -⟩ := hpoint
    simp only [exec, execEnc, hrun]
    exact .withCode hy fun _ => .emitCode (encAfter_answers y s)
  | ensBits k =>
    rcases hpoint with ⟨b, rfl, -⟩ | ⟨rfl, -⟩
    · exact encodeSymbol_bits_answers (symbolOfByte_le b) hrun
    · exact encodeSymbol_bits_answers (BitVec.le_refl _) hrun
  | decRead r =>
    obtain ⟨rfl, -, hcur, -⟩ := hpoint
    simp only [exec, execDec, hrun]
    exact decReadStep_answers hcur
  | decWritten b =>
    obtain ⟨rfl, htree, -⟩ := hpoint
    simp only [exec, execDec, hrun]
    exact decDescend_answers (s := s.countSymbol.setCur 0) (hmem.treeAt_root htree)
  | rwdDone =>
    obtain rfl : i = .rwd := hpoint
    simp only [exec, execRwd, hrun]
    exact .next _

/-! ### The moves -/

theorem engineTurn_answers {s : State} (h : Inv s) : Answers (engineTurn s) := by
  cases heng : s.eng with
  | idle => exact ⟨s, engineTurn_idle heng⟩
  | run p =>
    rw [engineTurn_run heng]
    exact exec_answers h.memInv heng (h.point p heng)

theorem hostWrite_answers {width offset : Nat} {w : Word32} {s : State} (hok : accessOk width offset = true) :
    Answers (hostWrite width offset w s) := by
  unfold hostWrite
  rw [if_pos hok]
  split
  · exact .ite (fun _ => .next _) fun _ => .next _
  · exact ⟨_, writeCtrl_eq w s⟩
  · exact .next s

/-- A read and a write are refused alike, on an access that R61 excludes alone. -/
theorem takeMove_answers_or_odd {m : Move} {s : State} (h : Inv s) :
    Answers (takeMove m s) ∨
      takeMove m s = .refused .hostAccess ∧ ∃ width offset,
        (m = .read width offset ∨ ∃ w, m = .write width offset w) ∧ (width ≠ 32 ∨ offset % 4 ≠ 0 ∨ 256 ≤ offset) := by
  cases m with
  | engine => exact .inl (engineTurn_answers h)
  | poll => exact .inl (.next _)
  | platformReset => exact .inl (.next _)
  | read width offset =>
    by_cases hodd : width ≠ 32 ∨ offset % 4 ≠ 0 ∨ 256 ≤ offset
    · exact .inr ⟨(oddHostAccessRefused s width offset 0 hodd).1, width, offset, .inl rfl, hodd⟩
    · have hok : accessOk width offset = true := accessOk_iff.2 (by omega)
      exact .inl ⟨_, if_pos hok⟩
  | write width offset w =>
    by_cases hodd : width ≠ 32 ∨ offset % 4 ≠ 0 ∨ 256 ≤ offset
    · exact .inr ⟨(oddHostAccessRefused s width offset w hodd).2, width, offset, .inr ⟨w, rfl⟩, hodd⟩
    · exact .inl (hostWrite_answers (accessOk_iff.2 (by omega)))

/-- Settles O57: a command's step answers from each of its own points, and a host access answers or is refused. -/
theorem stepNeverFaults : Obligations.StepNeverFaults := by
  intro s h
  cases hagenda : s.agenda with
  | nil =>
    rw [step_of_agenda_nil hagenda]
    exact .inl (engineTurn_answers h)
  | cons m rest =>
    rw [step_of_agenda_cons hagenda]
    have hinv : Inv { s with agenda := rest } := h.congr { h.regs with } ⟨rfl, rfl, rfl, rfl, rfl⟩ rfl rfl rfl
    rcases takeMove_answers_or_odd (m := m) hinv with hnext | ⟨hrefused, width, offset, hmove, hodd⟩
    · exact .inl hnext
    · refine .inr ⟨hrefused, width, offset, rest, ?_, hodd⟩
      rcases hmove with rfl | ⟨w, rfl⟩
      · exact .inl rfl
      · exact .inr ⟨w, rfl⟩

end Sys2Proof.Machine
end

section
/-! PROOFS. WRITE_MAGIC, ENCODE and ENCODE_SYM, and what the commands that write OUT leave unchanged: O24, O38, O39,
O40, O41, O47, O48 (spec/30_encoding.md R96; spec/43_encoder.md R170 to R173; spec/60_exceptions.md R212, R215). -/

namespace Sys2Proof.Machine

/-! ### Frames -/

/-- With no memory and no validity register to write, what is left is both streams, the counters and the command's end
(R124, R125). -/
theorem Kept.eq_of_no_memory {i : Instr} {s t : State} (kept : Kept i s t) (hldt : i ≠ .ldt) (hdrv : i ≠ .drv) :
    t = { s with ip := t.ip, inBits := t.inBits, out := t.out, outBits := t.outBits, symCount := t.symCount,
                 done := t.done, err := t.err, errCode := t.errCode, eng := t.eng, cmdLatch := t.cmdLatch,
                 cur := t.cur, draws := t.draws } := by
  rw [← kept.ovr, ← kept.magic, ← kept.input, ← kept.agenda, ← kept.reads, ← kept.treeValid hldt,
    ← kept.nodeCount hldt, ← kept.nodes hldt, ← kept.tableValid hldt hdrv, ← kept.codes hdrv]

/-- Settles O48: neither command owns a memory or a validity register. -/
theorem frameEncodeDecode : Obligations.FrameEncodeDecode := by
  intro s t i hi h
  have hnot : i ≠ .ldt ∧ i ≠ .drv ∧ ∀ ignored, i ≠ .srst ignored := by
    rcases hi with rfl | rfl <;> exact ⟨nofun, nofun, nofun⟩
  obtain ⟨hldt, hdrv, hsrst⟩ := hnot
  have kept := exec_kept hsrst h
  exact ⟨kept.eq_of_no_memory hldt hdrv, fun j => by rw [kept.nodes hldt], fun j => by rw [kept.codes hdrv]⟩

/-- WRITE_MAGIC, STORE_TREE and ENCODE_SYM (R171, R153, R173). -/
def IsWriter (i : Instr) : Prop := i = .wrm ∨ i = .stt ∨ (∃ b, i = .ens b) ∨ i = .ensEof

theorem IsWriter.no_input {i : Instr} (h : IsWriter i) :
    readsInput i = false ∧ i ≠ .rwd ∧ i ≠ .ldt ∧ i ≠ .drv ∧ ∀ ignored, i ≠ .srst ignored := by
  rcases h with rfl | rfl | ⟨b, rfl⟩ | rfl <;> exact ⟨rfl, nofun, nofun, nofun, nofun⟩

/-- Settles O47: the writers own no memory, and no command of theirs reads or rewinds IN. -/
theorem frameWriters : Obligations.FrameWriters := by
  intro s t i hi h
  obtain ⟨hreads, hrwd, hldt, hdrv, hsrst⟩ := IsWriter.no_input hi
  have kept := exec_kept hsrst h
  have hframe := kept.eq_of_no_memory hldt hdrv
  rw [kept.ip hreads hrwd, kept.inBits hreads] at hframe
  have hcount (hi : i = .wrm ∨ i = .stt) : writesSymCount i = false := by rcases hi with rfl | rfl <;> rfl
  exact ⟨hframe, fun hi => kept.symCount (hcount hi), fun j => by rw [kept.nodes hldt],
    fun j => by rw [kept.codes hdrv]⟩

/-! ### WRITE_MAGIC -/

/-- Settles O24: the first step writes the 32 bits of MAGIC and resumes at `wrmWritten`, the second finishes. -/
theorem writeMagicResult : Obligations.WriteMagicResult := by
  intro s hstart
  have ⟨hrun, hdecode⟩ := hstart
  have hfirst : exec .wrm s = .next (s.writeThen 32 s.magic.toNat .wrmWritten) := by simp only [exec, execWrm, hrun]
  have hsecond : exec .wrm (s.writeThen 32 s.magic.toNat .wrmWritten) =
      .next (s.writeThen 32 s.magic.toNat .wrmWritten).finish := rfl
  have hturn : engineTurn (s.writeThen 32 s.magic.toNat .wrmWritten) =
      .next (s.writeThen 32 s.magic.toNat .wrmWritten).finish := by
    rw [engineTurn_run rfl, State.writeThen_cmdLatch, hdecode, hsecond]
  refine ⟨_, _, hfirst, congrArg (s.out ++ ·) (lowBits_eq_map 32 _), hsecond, ?_, rfl⟩
  rw [engineSteps_succ (hstart.turn.trans hfirst), engineSteps_succ hturn, engineSteps_zero]

/-! ### EmitCode -/

@[simp] theorem State.appendOut_nil (s : State) : s.appendOut [] = s := by simp [State.appendOut]

@[simp] theorem length_codeString (c : CodeEntry) : (codeString c).length = c.len.toNat := by simp [codeString]

theorem take_succ_codeString {c : CodeEntry} {k : Nat} (h : k < c.len.toNat) :
    (codeString c).take (k + 1) = (codeString c).take k ++ [codeBit c k] := by
  rw [List.take_succ_eq_append_getElem (by simpa using h)]
  simp [codeString]

/-- EmitCode inside a code appends the code's next bit (R170). -/
theorem emitCode_of_lt {c : CodeEntry} {k : Nat} (h : k < c.len.toNat) (p : Nat → Point) (s : State)
    (rest : State → Result) :
    emitCode c k p s rest = .next ((s.appendOut [codeBit c k]).resumeAt (p (k + 1))) := by
  have hbit : lowBits 1 (codeBit c k).toNat = [codeBit c k] := by cases codeBit c k <;> rfl
  rw [emitCode, if_pos h, State.writeThen, State.writeBits_eq_appendOut, hbit]

/-- After the last bit the command goes on in the same step (R170). -/
theorem emitCode_len (c : CodeEntry) (p : Nat → Point) (s : State) (rest : State → Result) :
    emitCode c c.len.toNat p s rest = rest s := if_neg (Nat.lt_irrefl _)

theorem emitCode_resumeAt {rest : State → Result} {s : State} {q : Point} (hrest : rest (s.resumeAt q) = rest s)
    (c : CodeEntry) (k : Nat) (p : Nat → Point) : emitCode c k p (s.resumeAt q) rest = emitCode c k p s rest := by
  rw [emitCode, emitCode, hrest]
  rfl

/-- EmitCode appends the code in as many steps as it has bits, where the command resumes at `p k` after `k` of them
(R170). -/
theorem emitCode_appends {c : CodeEntry} {p : Nat → Point} {rest : State → Result} {s u : State}
    (hresume : ∀ bits k, engineTurn ((s.appendOut bits).resumeAt (p k)) = emitCode c k p (s.appendOut bits) rest)
    (hturn : engineTurn u = emitCode c 0 p s rest) :
    ∃ w, engineSteps c.len.toNat u = .next w ∧ engineTurn w = rest (s.appendOut (codeString c)) := by
  have hbits : ∀ k ≤ c.len.toNat, ∃ w, engineSteps k u = .next w ∧
      engineTurn w = emitCode c k p (s.appendOut ((codeString c).take k)) rest := by
    intro k hk
    induction k with
    | zero => exact ⟨u, rfl, by simpa using hturn⟩
    | succ k ih =>
      obtain ⟨w, hsteps, hw⟩ := ih (Nat.le_of_succ_le hk)
      rw [emitCode_of_lt hk, ← State.appendOut_append, ← take_succ_codeString hk] at hw
      exact ⟨_, by rw [engineSteps_add hsteps, engineSteps_succ hw, engineSteps_zero], hresume _ _⟩
  obtain ⟨w, hsteps, hw⟩ := hbits _ le_rfl
  rw [emitCode_len, List.take_of_length_le (length_codeString c).le] at hw
  exact ⟨w, hsteps, hw⟩

/-! ### ENCODE_SYM -/

theorem EncodesSymbol.exec_eq {i : Instr} {y : Symbol} (h : EncodesSymbol i y) (s : State) :
    exec i s = encodeSymbol y s := by
  rcases h with ⟨b, rfl, rfl⟩ | ⟨rfl, rfl⟩ <;> rfl

theorem engineTurn_ensBits {y : Symbol} {s : State} (hcmd : EncodesSymbol (decodeCmd s.cmdLatch) y) (k : Nat) :
    engineTurn (s.resumeAt (.ensBits k)) = emitCode (s.codes.read y.toNat) k .ensBits s ensFinish := by
  rw [engineTurn_run rfl, State.resumeAt_cmdLatch, hcmd.exec_eq]
  simp only [encodeSymbol, State.resumeAt_eng, withCode_of_le hcmd.le]
  exact emitCode_resumeAt rfl _ _ _

/-- ENCODE_SYM of a symbol with a code begins with EmitCode in its first step (R173). -/
theorem encodeSymbol_of_valid {y : Symbol} {s : State} (hy : y ≤ Config.eofSym) (hrun : s.eng = .run .start)
    (htable : s.tableValid = true) (hvalid : (s.codes.read y.toNat).valid = true) :
    encodeSymbol y s = emitCode (s.codes.read y.toNat) 0 .ensBits s ensFinish := by
  simp only [encodeSymbol, hrun, htable, if_true, withCode_of_le hy, hvalid]

/-- A command's first EmitCode step appends the first bit of the code, or nothing when it has none. -/
theorem emitCode_zero_out {c : CodeEntry} {p : Nat → Point} {rest : State → Result} {s t : State}
    (hrest : rest s = .next t) (hout : t.out = s.out) :
    ∃ v, emitCode c 0 p s rest = .next v ∧ v.out = s.out ++ (codeString c).take 1 := by
  rcases Nat.eq_zero_or_pos c.len.toNat with hzero | hpos
  · have hnil : codeString c = [] := List.eq_nil_of_length_eq_zero ((length_codeString c).trans hzero)
    exact ⟨t, by rw [← hzero, emitCode_len, hrest], by simp [hnil, hout]⟩
  · exact ⟨_, emitCode_of_lt hpos p s rest, congrArg (s.out ++ ·) (take_succ_codeString hpos).symm⟩

/-- Settles O38: EmitCode of the table's entry, then `SYM_COUNT <- 1; finish`. -/
theorem encodeSymAppendsCode : Obligations.EncodeSymAppendsCode := by
  rintro s i y c hi ⟨hrun, rfl⟩ htable rfl hvalid
  have hexec := (hi.exec_eq s).trans (encodeSymbol_of_valid hi.le hrun htable hvalid)
  obtain ⟨v, hfirst, hvout⟩ := emitCode_zero_out (p := .ensBits) (c := s.codes.read y.toNat) (rest := ensFinish) rfl rfl
  obtain ⟨w, hsteps, hw⟩ := emitCode_appends (s := s) (fun bits => engineTurn_ensBits (s := s.appendOut bits) hi)
    ((engineTurn_run hrun).trans hexec)
  have hdone : engineSteps (_ + 1) s = .next { s.appendOut (codeString _) with symCount := 1 }.finish :=
    (engineSteps_add hsteps).trans (engineSteps_succ (n := 0) hw)
  rw [← length_codeString]
  exact ⟨v, _, hexec.trans hfirst, hvout, by rw [length_codeString, hdone], rfl⟩

/-- Settles O41: the tests of TABLE_VALID and of the symbol's entry stand before the first stream access. -/
theorem encodersRaise : Obligations.EncodersRaise := by
  intro s i y e hrun hcase
  have hraise : exec i s = .next (s.raise e) := by
    rcases hcase with ⟨rfl | hi, htable, rfl⟩ | ⟨hi, htable, hvalid, rfl⟩
    · simp [exec, execEnc, hrun, htable]
    · simp [hi.exec_eq, encodeSymbol, hrun, htable]
    · simp [hi.exec_eq, encodeSymbol, hrun, htable, withCode_of_le hi.le, hvalid]
  exact ⟨_, hraise, rfl⟩

/-! ### The codes of a list of symbols -/

@[simp] theorem Tree.codesOf_singleton (t : Tree) (y : Symbol) : t.codesOf [y] = t.code y := by
  cases h : t.code y <;> simp [Tree.codesOf, h]

theorem Tree.codesOf_cons_eq_some {t : Tree} {y : Symbol} {ys : List Symbol} {codes : List Bool}
    (h : t.codesOf (y :: ys) = some codes) :
    ∃ p q, t.code y = some p ∧ t.codesOf ys = some q ∧ codes = p ++ q := by
  unfold Tree.codesOf at h
  split at h
  · cases h
    exact ⟨_, _, ‹_›, ‹_›, rfl⟩
  · cases h

theorem Tree.codesOf_append_eq_some {t : Tree} {xs ys : List Symbol} {codes : List Bool}
    (h : t.codesOf (xs ++ ys) = some codes) :
    ∃ p q, t.codesOf xs = some p ∧ t.codesOf ys = some q ∧ codes = p ++ q := by
  induction xs generalizing codes with
  | nil => exact ⟨[], codes, rfl, h, rfl⟩
  | cons x xs ih =>
    obtain ⟨p, r, hx, hr, rfl⟩ := Tree.codesOf_cons_eq_some h
    obtain ⟨p', q, hp', hq, rfl⟩ := ih hr
    exact ⟨p ++ p', q, by simp only [Tree.codesOf, hx, hp'], hq, (List.append_assoc p p' q).symm⟩

theorem length_bitsOfBytes (data : List Byte) : (bitsOfBytes data).length = 8 * data.length := by
  induction data with
  | nil => rfl
  | cons b data ih => rw [bitsOfBytes_cons, List.length_append, length_lowBits, ih, List.length_cons]; omega

/-! ### ENCODE: what it has read and written -/

/-- ENCODE has read and counted `n` data bytes, and their codes are `codes` (R172). -/
def State.encoded (n : Nat) (codes : List Bool) (s : State) : State :=
  { (s.consume (8 * n)).appendOut codes with symCount := s.symCount + BitVec.ofNat 32 n }

@[simp] theorem State.encoded_zero_nil (s : State) : s.encoded 0 [] = s := by
  simp [State.encoded, State.consume_zero]

theorem State.encoded_encoded (m n : Nat) (a b : List Bool) (s : State) :
    (s.encoded m a).encoded n b = s.encoded (m + n) (a ++ b) :=
  calc (s.encoded m a).encoded n b
      = { (((s.consume (8 * m)).consume (8 * n)).appendOut a).appendOut b with
          symCount := s.symCount + BitVec.ofNat 32 m + BitVec.ofNat 32 n } := rfl
    _ = s.encoded (m + n) (a ++ b) := by
      rw [State.consume_consume, ← State.appendOut_append, ← Nat.mul_add, BitVec.add_assoc, ← BitVec.ofNat_add,
        State.encoded]

/-- The bits of a further code append after a read as they do before it. -/
theorem State.appendOut_consume_encoded (k n : Nat) (codes more : List Bool) (s : State) :
    ((s.encoded n codes).consume k).appendOut more = (s.encoded n (codes ++ more)).consume k := by
  rw [State.encoded, State.encoded, State.appendOut_append]
  rfl

theorem State.encoded_unread (n : Nat) (codes : List Bool) (s : State) :
    (s.encoded n codes).unread = s.unread.drop (8 * n) := s.consume_unread (8 * n)

/-- A read consumes its size or all that is left (R64 to R66). -/
theorem State.consume_eq_min {s : State} (hcursor : s.ip ≤ s.input.length) (n : Nat) :
    s.consume n = { s with ip := s.ip + min n s.unread.length
                           inBits := s.inBits + BitVec.ofNat 32 (min n s.unread.length) } := by
  have hip : (s.consume n).ip = s.ip + min n s.unread.length := by
    rw [State.consume_ip, State.length_unread]
    split <;> omega
  rw [← hip, State.length_unread]
  rfl

/-- The state once ENCODE has read past the data bytes, by a whole byte or by the tail (R172). -/
theorem State.encoded_consume {s : State} {data : List Byte} {rest : List Bool} (hcursor : s.ip ≤ s.input.length)
    (hunread : s.unread = bitsOfBytes data ++ rest) (codes : List Bool) :
    (s.encoded data.length codes).consume 8 =
      { s with ip := s.ip + 8 * data.length + min 8 rest.length
               inBits := s.inBits + BitVec.ofNat 32 (8 * data.length + min 8 rest.length)
               out := s.out ++ codes, outBits := s.outBits + BitVec.ofNat 32 codes.length
               symCount := s.symCount + BitVec.ofNat 32 data.length } :=
  calc (s.encoded data.length codes).consume 8
      = { ((s.consume (8 * data.length)).consume 8).appendOut codes with
          symCount := s.symCount + BitVec.ofNat 32 data.length } := rfl
    _ = _ := by
      rw [State.consume_consume, State.consume_eq_min hcursor, hunread, List.length_append, length_bitsOfBytes,
        Nat.add_min_add_left, ← Nat.add_assoc]
      rfl

/-! ### ENCODE: its steps -/

theorem symbolOfByte_ne_eof (b : Byte) : symbolOfByte b ≠ Config.eofSym := by
  have heof : Config.eofSym.toNat = 256 := rfl
  have hb := b.isLt
  intro h
  rw [← h, toNat_symbolOfByte] at heof
  omega

theorem execEnc_start {s : State} (hrun : s.eng = .run .start) (htable : s.tableValid = true) :
    exec .enc s = .next (s.readThen 8 .encRead) := by
  simp only [exec, execEnc, hrun, htable, if_true]
  rfl

theorem encAfter_resumeAt (y : Symbol) (q : Point) (s : State) : encAfter y (s.resumeAt q) = encAfter y s := rfl

theorem encReadStep_resumeAt (v : Option Byte) (q : Point) (s : State) :
    encReadStep v (s.resumeAt q) = encReadStep v s := rfl

section Encoding

variable {s u : State} {t : Tree}

theorem engineTurn_encRead (hcmd : decodeCmd s.cmdLatch = .enc) :
    engineTurn (s.readThen 8 .encRead) = encReadStep (s.peekBits 8) (s.consume 8) := by
  rw [engineTurn_run rfl, State.readThen_cmdLatch, hcmd]
  exact encReadStep_resumeAt _ _ _

theorem engineTurn_encBits (hcmd : decodeCmd s.cmdLatch = .enc) {y : Symbol} (hy : y ≤ Config.eofSym) (k : Nat) :
    engineTurn (s.resumeAt (.encBits y k)) = emitCode (s.codes.read y.toNat) k (.encBits y) s (encAfter y) := by
  rw [engineTurn_run rfl, State.resumeAt_cmdLatch, hcmd]
  simp only [exec, execEnc, State.resumeAt_eng, withCode_of_le hy]
  exact emitCode_resumeAt (encAfter_resumeAt _ _ _) _ _ _

/-- A symbol with no code in the tree raises UNENCODABLE_SYMBOL (R172). -/
theorem encReadStep_of_no_code (htable : s.hasTable t) {v : Option Byte} (hcode : t.code (encSymbol v) = none) :
    encReadStep v s = .next (s.raise .unencodableSymbol) := by
  obtain ⟨-, hread⟩ := htable
  have hentry := hread _ (encSymbol_le v)
  rw [Tree.codeEntry, hcode] at hentry
  rw [encReadStep, withCode_of_le (encSymbol_le v), hentry]
  rfl

variable (hcmd : decodeCmd s.cmdLatch = .enc) (hsize : t.size ≤ Config.nodeCap) (htable : s.hasTable t)
include hcmd hsize htable

/-- ENCODE appends the code of the symbol it has read, and stands where the symbol is done (R170, R172). -/
theorem encReadStep_appends {v : Option Byte} {p : List Bool} (hcode : t.code (encSymbol v) = some p)
    (hturn : engineTurn u = encReadStep v s) :
    ∃ w, engineSteps p.length u = .next w ∧ engineTurn w = encAfter (encSymbol v) (s.appendOut p) := by
  have hle := encSymbol_le v
  obtain ⟨-, hread⟩ := htable
  have hentry := hread _ hle
  obtain ⟨-, hvalid, -, hstring⟩ := codeTableHoldsCodes t _ p hsize hcode
  rw [← hentry] at hvalid hstring
  rw [encReadStep, withCode_of_le hle, if_pos hvalid] at hturn
  have hemit := emitCode_appends (fun bits => engineTurn_encBits (s := s.appendOut bits) hcmd hle) hturn
  rwa [← length_codeString, hstring] at hemit

/-! The data bytes -/

/-- One data byte takes a step for each bit of its code and one more, which counts it and reads on (R172). -/
theorem engineSteps_encByte {b : Byte} {p more : List Bool} (hunread : s.unread = lowBits 8 b.toNat ++ more)
    (hcode : t.code (symbolOfByte b) = some p) :
    engineSteps (p.length + 1) (s.readThen 8 .encRead) = .next ((s.encoded 1 p).readThen 8 .encRead) := by
  have hturn := engineTurn_encRead hcmd
  rw [State.peekBits_lowBits hunread] at hturn
  obtain ⟨w, hsteps, hw⟩ := encReadStep_appends (s := s.consume 8) (v := some b) hcmd hsize htable hcode hturn
  have hafter : encAfter (symbolOfByte b) ((s.consume 8).appendOut p) = .next ((s.encoded 1 p).readThen 8 .encRead) :=
    if_neg (symbolOfByte_ne_eof b)
  rw [engineSteps_add hsteps, engineSteps_succ (hw.trans hafter), engineSteps_zero]

theorem engineSteps_encBytes {data : List Byte} {codes rest : List Bool} (hunread : s.unread = bitsOfBytes data ++ rest)
    (hcodes : t.codesOf (data.map symbolOfByte) = some codes) :
    engineSteps (data.length + codes.length) (s.readThen 8 .encRead) =
      .next ((s.encoded data.length codes).readThen 8 .encRead) := by
  induction data generalizing s codes with
  | nil =>
    cases hcodes
    rw [List.length_nil, State.encoded_zero_nil]
    rfl
  | cons b data ih =>
    obtain ⟨p, q, hcode, hq, rfl⟩ := Tree.codesOf_cons_eq_some hcodes
    rw [bitsOfBytes_cons, List.append_assoc] at hunread
    have hbyte := engineSteps_encByte hcmd hsize htable hunread hcode
    have hmore : (s.encoded 1 p).unread = bitsOfBytes data ++ rest := by
      rw [State.encoded_unread, hunread, List.drop_left' (length_lowBits 8 _)]
    have hdata := ih (s := s.encoded 1 p) hcmd htable hmore hq
    rw [State.encoded_encoded, Nat.add_comm 1] at hdata
    have hcount : (b :: data).length + (p ++ q).length = p.length + 1 + (data.length + q.length) := by
      rw [List.length_cons, List.length_append]
      omega
    rw [hcount, engineSteps_add hbyte]
    exact hdata

end Encoding

/-! ### ENCODE: whole runs -/

/-- From its start ENCODE gets through the data bytes to the read after them. -/
theorem Started.enc_readsBytes {s : State} {t : Tree} {data : List Byte} {codes rest : List Bool}
    (hstart : Started .enc s) (hvalid : s.tableValid = true) (hsize : t.size ≤ Config.nodeCap) (htable : s.hasTable t)
    (hunread : s.unread = bitsOfBytes data ++ rest) (hcodes : t.codesOf (data.map symbolOfByte) = some codes) :
    engineSteps (data.length + codes.length + 1) s = .next ((s.encoded data.length codes).readThen 8 .encRead) ∧
      (s.encoded data.length codes).unread = rest := by
  have ⟨hrun, hcmd⟩ := hstart
  rw [engineSteps_succ (hstart.turn.trans (execEnc_start hrun hvalid)), State.encoded_unread, hunread]
  exact ⟨engineSteps_encBytes hcmd hsize htable hunread hcodes, List.drop_left' (length_bitsOfBytes data)⟩

/-- Settles O39: the data bytes, then a read that returns EXH for fewer than 8 bits, then the code of EOF. -/
theorem encodeAppendsPayload : Obligations.EncodeAppendsPayload := by
  intro s t data tail payload hstart hvalid htree htable hcursor hunread htail hpayload
  have ⟨hrun, hcmd⟩ := hstart
  obtain ⟨-, -, hsize, -⟩ := htree
  obtain ⟨codes, last, hcodes, hlast, rfl⟩ := Tree.codesOf_append_eq_some hpayload
  rw [Tree.codesOf_singleton] at hlast
  obtain ⟨hdata, hrest⟩ := hstart.enc_readsBytes hvalid hsize htable hunread hcodes
  have heof := engineTurn_encRead (s := s.encoded data.length codes) hcmd
  rw [State.peekBits_none (by rwa [hrest])] at heof
  obtain ⟨w, hemit, hw⟩ := encReadStep_appends (s := (s.encoded data.length codes).consume 8) (v := none) hcmd hsize
    htable hlast heof
  have hcount : data.length + 1 + (codes ++ last).length + 1 = data.length + codes.length + 1 + (last.length + 1) := by
    rw [List.length_append]
    omega
  have hend : s.ip + 8 * data.length + tail.length = s.input.length := by
    have hlen := s.length_unread
    rw [hunread, List.length_append, length_bitsOfBytes] at hlen
    omega
  rw [State.appendOut_consume_encoded] at hw
  have hfinish : engineTurn w = .next ((s.encoded data.length (codes ++ last)).consume 8).finish := hw
  refine ⟨_, _, execEnc_start hrun hvalid, rfl,
    by rw [hcount, engineSteps_add hdata, engineSteps_add hemit, engineSteps_succ hfinish, engineSteps_zero], ?_⟩
  rw [State.encoded_consume hcursor hunread, Nat.min_eq_right htail.le, hend]
  rfl

/-- Settles O40: after the data bytes the read gives a byte with no code, or EXH where EOF has none. -/
theorem encodeUnencodable : Obligations.EncodeUnencodable := by
  intro s t data rest codes hstart hvalid htree htable hcursor hunread hcodes hcase
  have ⟨_, hcmd⟩ := hstart
  obtain ⟨-, -, hsize, -⟩ := htree
  obtain ⟨hdata, hrest⟩ := hstart.enc_readsBytes hvalid hsize htable hunread hcodes
  have hnone : t.code (encSymbol ((s.encoded data.length codes).peekBits 8)) = none := by
    rcases hcase with ⟨b, more, rfl, hcode⟩ | ⟨hshort, hcode⟩
    · rw [State.peekBits_lowBits (v := b) (rest := more) hrest]
      exact hcode
    · rw [State.peekBits_none (by rwa [hrest])]
      exact hcode
  have hraise := engineTurn_encRead (s := s.encoded data.length codes) hcmd
  rw [encReadStep_of_no_code (s := (s.encoded data.length codes).consume 8) htable hnone,
    State.encoded_consume hcursor hunread] at hraise
  exact ⟨_, _, (engineSteps_add hdata).trans (engineSteps_succ (n := 0) hraise), rfl⟩

end Sys2Proof.Machine
end

section
/-! PROOFS. CHECK_MAGIC and DECODE over whole and cut payloads: O23, O42, O43, O44 (spec/44_decoder.md R190 to R195;
spec/60_exceptions.md R213). -/

namespace Sys2Proof.Machine

/-! ### CHECK_MAGIC -/

/-- A read returns `v` exactly where the bits of `v` stand next (R64, R65). -/
theorem State.peekBits_eq_some_iff {n : Nat} {v : BitVec n} {s : State} :
    s.peekBits n = some v ↔ s.unread.take n = lowBits n v.toNat := by
  constructor
  · intro hpeek
    have hfits : n ≤ s.unread.length := by
      by_contra hshort
      rw [State.peekBits_none (Nat.lt_of_not_le hshort)] at hpeek
      cases hpeek
    have hlen : (s.unread.take n).length = n := List.length_take_of_le hfits
    have hlt := bitsValue_lt (s.unread.take n)
    rw [State.peekBits_some hfits] at hpeek
    cases hpeek
    have hspelt := lowBits_bitsValue (s.unread.take n)
    rw [hlen] at hlt hspelt
    rw [BitVec.toNat_ofNat, Nat.mod_eq_of_lt hlt, hspelt]
  · intro hbits
    exact State.peekBits_lowBits (rest := s.unread.drop n) (by rw [← hbits, List.take_append_drop])

/-- Settles O23: the second step compares the word read with MAGIC, and EXH is no word. -/
theorem checkMagicResult : Obligations.CheckMagicResult := by
  intro s hstart hcursor
  have ⟨hrun, hdecode⟩ := hstart
  have hfirst : exec .ckm s = .next (s.readThen 32 .ckmRead) := by simp only [exec, execCkm, hrun]
  have hsteps {u : State} (hsecond : exec .ckm (s.readThen 32 .ckmRead) = .next u) : engineSteps 2 s = .next u := by
    have hturn : engineTurn (s.readThen 32 .ckmRead) = .next u := by
      rw [engineTurn_run rfl, State.readThen_cmdLatch, hdecode, hsecond]
    rw [engineSteps_succ (hstart.turn.trans hfirst), engineSteps_succ hturn, engineSteps_zero]
  have hconsume := State.consume_eq_min hcursor 32
  have hip : (s.consume 32).ip = s.ip + min 32 s.unread.length := by rw [hconsume]
  have hinBits : (s.consume 32).inBits = s.inBits + BitVec.ofNat 32 (min 32 s.unread.length) := by rw [hconsume]
  by_cases hmagic : s.unread.take 32 = lowBits 32 s.magic.toNat
  · have hsecond : exec .ckm (s.readThen 32 .ckmRead) = .next (s.readThen 32 .ckmRead).finish :=
      if_pos (State.peekBits_eq_some_iff.2 hmagic)
    exact ⟨_, _, hfirst, rfl, hsecond, hsteps hsecond, hip, hinBits, rfl, fun _ => ⟨rfl, rfl, rfl⟩,
      fun hne => absurd hmagic hne⟩
  · have hsecond : exec .ckm (s.readThen 32 .ckmRead) = .next ((s.readThen 32 .ckmRead).raise .invalidMagic) :=
      if_neg fun hpeek => hmagic (State.peekBits_eq_some_iff.1 hpeek)
    exact ⟨_, _, hfirst, rfl, hsecond, hsteps hsecond, hip, hinBits, rfl, fun heq => absurd heq hmagic,
      fun _ => ⟨rfl, rfl, rfl⟩⟩

/-! ### DECODE: the test of one node -/

/-- At the EOF leaf DECODE finishes, whatever the read returned (R191). -/
theorem decReadStep_of_eof {s : State} (hcur : s.cur.toNat < Config.nodeCap)
    (heof : nodeIsEof (s.nodes.read s.cur.toNat) = true) (r : Option (BitVec 1)) :
    decReadStep r s = .next s.finish := by
  rw [decReadStep, withNode_of_lt hcur, if_pos heof]

/-- At any other node EXH raises TRUNCATED_STREAM (R191, R213). -/
theorem decReadStep_none {s : State} (hcur : s.cur.toNat < Config.nodeCap)
    (heof : nodeIsEof (s.nodes.read s.cur.toNat) = false) :
    decReadStep none s = .next (s.raise .truncatedStream) := by
  rw [decReadStep, withNode_of_lt hcur, if_neg (Bool.eq_false_iff.1 heof)]

/-- Settles O44. -/
theorem decodeEofBeforeExhaustion : Obligations.DecodeEofBeforeExhaustion := by
  intro s r hrun hcur
  have hexec : exec .dec s = decReadStep r s := by simp only [exec, execDec, hrun]
  refine ⟨fun heof => ⟨_, hexec.trans (decReadStep_of_eof hcur heof r), rfl⟩, ?_⟩
  rintro heof rfl
  exact ⟨_, hexec.trans (decReadStep_none hcur heof), rfl⟩

/-- An internal node's bit selects the child at which DECODE reads on (R191). -/
theorem decReadStep_of_internal {s : State} (hcur : s.cur.toNat < Config.nodeCap)
    (hleaf : nodeIsLeaf (s.nodes.read s.cur.toNat) = false) (r : BitVec 1) :
    decReadStep (some r) s = decDescend r s := by
  simp [decReadStep, withNode_of_lt hcur, nodeIsEof, hleaf]

/-- A data leaf's byte is written (R191). -/
theorem decReadStep_of_data {s : State} (hcur : s.cur.toNat < Config.nodeCap)
    {v : Symbol} (hnode : s.nodes.read s.cur.toNat = leafNode v) (hdata : v ≠ Config.eofSym) (r : BitVec 1) :
    decReadStep (some r) s = .next (s.writeThen 8 v.toNat (.decWritten r)) := by
  simp [decReadStep, withNode_of_lt hcur, hnode, leafNode, nodeIsEof, nodeIsLeaf, hdata]

theorem decReadStep_resumeAt (r : Option (BitVec 1)) (p : Point) (s : State) :
    decReadStep r (s.resumeAt p) = decReadStep r s := by
  cases r <;> rfl

/-! ### DECODE: what it has read and written -/

/-- DECODE has written and counted the bytes `data` (R191). -/
def State.emitted (data : List Byte) (s : State) : State :=
  { s.appendOut (bitsOfBytes data) with symCount := s.symCount + BitVec.ofNat 32 data.length }

@[simp] theorem State.emitted_nil (s : State) : s.emitted [] = s := by simp [State.emitted, bitsOfBytes]

@[simp] theorem State.emitted_cmdLatch (data : List Byte) (s : State) : (s.emitted data).cmdLatch = s.cmdLatch := rfl

@[simp] theorem State.emitted_unread (data : List Byte) (s : State) : (s.emitted data).unread = s.unread := rfl

theorem State.emitted_consume (k : Nat) (data : List Byte) (s : State) :
    (s.emitted data).consume k = (s.consume k).emitted data := rfl

theorem State.emitted_emitted (a b : List Byte) (s : State) : (s.emitted a).emitted b = s.emitted (a ++ b) :=
  calc (s.emitted a).emitted b
      = { (s.appendOut (bitsOfBytes a)).appendOut (bitsOfBytes b) with
          symCount := s.symCount + BitVec.ofNat 32 a.length + BitVec.ofNat 32 b.length } := rfl
    _ = s.emitted (a ++ b) := by
      rw [← State.appendOut_append, BitVec.add_assoc, ← BitVec.ofNat_add, ← List.length_append, State.emitted,
        bitsOfBytes, bitsOfBytes, bitsOfBytes, List.flatMap_append]

/-- DECODE has read `k` bits of IN and emitted the bytes `data` (R191). -/
def State.decoded (k : Nat) (data : List Byte) (s : State) : State := (s.consume k).emitted data

theorem State.decoded_decoded (m n : Nat) (a b : List Byte) (s : State) :
    (s.decoded m a).decoded n b = s.decoded (m + n) (a ++ b) :=
  calc (s.decoded m a).decoded n b
      = (((s.consume m).consume n).emitted a).emitted b := rfl
    _ = s.decoded (m + n) (a ++ b) := by rw [State.consume_consume, State.emitted_emitted, State.decoded]

theorem State.decoded_unread (k : Nat) (data : List Byte) (s : State) :
    (s.decoded k data).unread = s.unread.drop k := s.consume_unread k

/-- The state once DECODE has made one read more, which gives a bit or EXH (R64 to R66). -/
theorem State.decoded_consume {s : State} (hcursor : s.ip ≤ s.input.length) (k : Nat) (data : List Byte) :
    (s.decoded k data).consume 1 =
      { s with ip := s.ip + min (k + 1) s.unread.length
               inBits := s.inBits + BitVec.ofNat 32 (min (k + 1) s.unread.length)
               out := s.out ++ bitsOfBytes data, outBits := s.outBits + BitVec.ofNat 32 (8 * data.length)
               symCount := s.symCount + BitVec.ofNat 32 data.length } :=
  calc (s.decoded k data).consume 1
      = ((s.consume k).consume 1).emitted data := rfl
    _ = _ := by
      rw [State.consume_consume, State.consume_eq_min hcursor, State.emitted, State.appendOut, length_bitsOfBytes]

/-! ### DECODE: its walk down the tree -/

/-- The subtree `t` stands at node `j`, all of it inside NODE (R40). -/
def NodeMem.rooted (m : NodeMem) (j : NodeIx) (t : Tree) : Prop :=
  m.holds j.toNat t ∧ j.toNat + t.size ≤ Config.nodeCap

theorem NodeMem.rooted.lt {m : NodeMem} {j : NodeIx} {t : Tree} (h : m.rooted j t) : j.toNat < Config.nodeCap :=
  NodeMem.treeAt_lt ⟨t, h⟩

theorem State.hasTree.rooted {s : State} {t : Tree} (h : s.hasTree t) : s.nodes.rooted 0 t := by
  obtain ⟨-, -, hsize, hholds⟩ := h
  exact ⟨hholds, by simpa using hsize⟩

theorem NodeMem.rooted.read_leaf {m : NodeMem} {j : NodeIx} {v : Symbol} (h : m.rooted j (.leaf v)) :
    m.read j.toNat = leafNode v := by
  obtain ⟨⟨hnode, -⟩, -⟩ := h
  exact hnode

theorem NodeMem.rooted.not_leaf {m : NodeMem} {j : NodeIx} {l r : Tree} (h : m.rooted j (.node l r)) :
    nodeIsLeaf (m.read j.toNat) = false := by
  obtain ⟨⟨hnode, -⟩, -⟩ := h
  rw [hnode]
  rfl

/-- Of all subtrees only EOF's leaf has an EOF leaf at its root (R39, R191). -/
theorem NodeMem.rooted.not_eof {m : NodeMem} {j : NodeIx} {t : Tree} (h : m.rooted j t)
    (ht : t ≠ .leaf Config.eofSym) : nodeIsEof (m.read j.toNat) = false := by
  cases t with
  | leaf v =>
    have hv : v ≠ Config.eofSym := fun heq => ht (heq ▸ rfl)
    rw [h.read_leaf]
    exact beq_false_of_ne hv
  | node l r => rw [nodeIsEof, h.not_leaf, Bool.false_and]

/-- The subtree a bit selects: 0 = left, 1 = right (R97). -/
def Tree.branch (b : Bool) (l r : Tree) : Tree := if b then r else l

/-- The child a bit selects holds the subtree it selects (R40, R191). -/
theorem NodeMem.rooted.child {m : NodeMem} {j : NodeIx} {l r : Tree} (h : m.rooted j (.node l r)) (b : Bool) :
    m.rooted (childOf (m.read j.toNat) (BitVec.ofBool b)) (Tree.branch b l r) := by
  obtain ⟨⟨hnode, hl, hr⟩, hsize⟩ := h
  simp only [Tree.size] at hsize
  rw [hnode]
  cases b with
  | false =>
    have hleft : (BitVec.ofNat 10 (j.toNat + 1)).toNat = j.toNat + 1 := toNat_nodeIx (by omega)
    exact ⟨hleft.symm ▸ hl, (show (BitVec.ofNat 10 (j.toNat + 1)).toNat + l.size ≤ _ by omega)⟩
  | true =>
    have hright : (BitVec.ofNat 10 (j.toNat + 1 + l.size)).toNat = j.toNat + 1 + l.size := toNat_nodeIx (by omega)
    exact ⟨hright.symm ▸ hr, (show (BitVec.ofNat 10 (j.toNat + 1 + l.size)).toNat + r.size ≤ _ by omega)⟩

/-- The engine stands where DECODE next reads a bit from `s` and tests the root of the subtree `t`, and `s` is the state
before that read but for CUR and the resume point (R191). -/
def Decoding (t : Tree) (s u : State) : Prop :=
  decodeCmd s.cmdLatch = .dec ∧ ∃ j : NodeIx, s.nodes.rooted j t ∧
    engineTurn u = decReadStep (s.peekBits 1) ((s.consume 1).setCur j)

/-- DECODE waits for a bit with CUR at the root of `t`. -/
theorem decoding_readThen {t : Tree} {s : State} {j : NodeIx} (hcmd : decodeCmd s.cmdLatch = .dec)
    (hroot : s.nodes.rooted j t) : Decoding t s ((s.setCur j).readThen 1 .decRead) := by
  refine ⟨hcmd, j, hroot, ?_⟩
  rw [engineTurn_run rfl, State.readThen_cmdLatch, State.setCur_cmdLatch, hcmd]
  exact decReadStep_resumeAt _ _ _

/-- At the EOF leaf the read takes a bit or none, and DECODE finishes (R191, R192). -/
theorem Decoding.turn_eof {s u : State} (h : Decoding (.leaf Config.eofSym) s u) :
    engineTurn u = .next (s.consume 1).finish := by
  obtain ⟨-, j, hroot, hturn⟩ := h
  have heof : nodeIsEof (s.nodes.read j.toNat) = true := by
    rw [hroot.read_leaf]
    rfl
  exact hturn.trans (decReadStep_of_eof (s := (s.consume 1).setCur j) hroot.lt heof _)

/-- With no bit left at any other node DECODE raises (R191, R195). -/
theorem Decoding.turn_exhausted {t : Tree} {s u : State} (h : Decoding t s u) (ht : t ≠ .leaf Config.eofSym)
    (hunread : s.unread = []) : engineTurn u = .next ((s.consume 1).raise .truncatedStream) := by
  obtain ⟨-, j, hroot, hturn⟩ := h
  rw [State.peekBits_none (by simp [hunread])] at hturn
  exact hturn.trans (decReadStep_none (s := (s.consume 1).setCur j) hroot.lt (hroot.not_eof ht))

/-- An internal node sends DECODE on to the subtree the bit selects (R191). -/
theorem Decoding.turn_internal {l r : Tree} {s u : State} {b : Bool} {more : List Bool}
    (h : Decoding (.node l r) s u) (hunread : s.unread = b :: more) :
    ∃ w, engineTurn u = .next w ∧ Decoding (Tree.branch b l r) (s.consume 1) w := by
  obtain ⟨hcmd, j, hroot, hturn⟩ := h
  rw [State.peekBits_flag hunread, decReadStep_of_internal (s := (s.consume 1).setCur j) hroot.lt hroot.not_leaf,
    decDescend, withNode_of_lt (i := ((s.consume 1).setCur j).cur) hroot.lt] at hturn
  exact ⟨_, hturn, decoding_readThen (s := s.consume 1) hcmd (hroot.child b)⟩

theorem decDescend_resumeAt (r : BitVec 1) (p : Point) (s : State) : decDescend r (s.resumeAt p) = decDescend r s := rfl

/-- After a data leaf's byte the bit in hand leads on from the root, as if it were read there (R191). -/
theorem engineTurn_decWritten {a : Byte} {b : BitVec 1} {j : NodeIx} {s : State} (hcmd : decodeCmd s.cmdLatch = .dec) :
    engineTurn ((s.setCur j).writeThen 8 a.toNat (.decWritten b)) = decDescend b ((s.emitted [a]).setCur 0) := by
  rw [engineTurn_run rfl, State.writeThen_cmdLatch, State.setCur_cmdLatch, hcmd]
  exact decDescend_resumeAt b _ ((s.emitted [a]).setCur 0)

/-- A data leaf's byte is written when a bit follows its code, and DECODE stands in front of that bit at the root
(R191). -/
theorem Decoding.turn_data {l r : Tree} {s u : State} {a : Byte} {b : Bool} {more : List Bool}
    (h : Decoding (.leaf (symbolOfByte a)) s u) (htree : s.nodes.rooted 0 (.node l r))
    (hunread : s.unread = b :: more) :
    ∃ w, engineTurn u = .next w ∧ Decoding (.node l r) (s.emitted [a]) w := by
  obtain ⟨hcmd, j, hroot, hturn⟩ := h
  rw [State.peekBits_flag hunread, decReadStep_of_data (s := (s.consume 1).setCur j) hroot.lt
    hroot.read_leaf (symbolOfByte_ne_eof a), toNat_symbolOfByte] at hturn
  refine ⟨_, hturn, hcmd, 0, htree, ?_⟩
  have hpeek : (s.emitted [a]).peekBits 1 = some (BitVec.ofBool b) :=
    State.peekBits_flag (by rw [State.emitted_unread, hunread])
  rw [hpeek, State.emitted_consume,
    decReadStep_of_internal (s := ((s.consume 1).emitted [a]).setCur 0) htree.lt htree.not_leaf]
  exact engineTurn_decWritten (s := s.consume 1) hcmd

/-! ### DECODE: whole and cut codes -/

theorem Tree.eq_leaf_of_code_nil {t : Tree} {y : Symbol} (h : t.code y = some []) : t = .leaf y := by
  cases t with
  | leaf v =>
    rw [Tree.code_leaf, Option.ite_none_right_eq_some] at h
    rw [h.1]
  | node l r => rcases Tree.code_node_eq_some h with ⟨q, -, hq⟩ | ⟨q, -, hq⟩ <;> cases hq

/-- The rest of a code belongs to the subtree its first bit selects (R97). -/
theorem Tree.exists_node_of_code_cons {t : Tree} {y : Symbol} {b : Bool} {p : List Bool}
    (h : t.code y = some (b :: p)) : ∃ l r, t = .node l r ∧ (Tree.branch b l r).code y = some p := by
  cases t with
  | leaf v =>
    rw [Tree.code_leaf, Option.ite_none_right_eq_some] at h
    cases h.2
  | node l r =>
    refine ⟨l, r, rfl, ?_⟩
    rcases Tree.code_node_eq_some h with ⟨q, hq, hbits⟩ | ⟨q, hq, hbits⟩ <;> cases hbits <;> exact hq

/-- DECODE reads the bits `pre` of a code, and stands where the subtree with the rest of the code begins (R191). -/
theorem Decoding.reads_code {t : Tree} {s u : State} {y : Symbol} {pre post more : List Bool} (h : Decoding t s u)
    (hcode : t.code y = some (pre ++ post)) (hunread : s.unread = pre ++ more) :
    ∃ t' w, engineSteps pre.length u = .next w ∧ Decoding t' (s.consume pre.length) w ∧ t'.code y = some post := by
  induction pre generalizing t s u with
  | nil => exact ⟨t, u, rfl, by rwa [List.length_nil, State.consume_zero], hcode⟩
  | cons b pre ih =>
    obtain ⟨l, r, rfl, hbranch⟩ := Tree.exists_node_of_code_cons hcode
    obtain ⟨v, hturn, hv⟩ := h.turn_internal hunread
    have hrest : (s.consume 1).unread = pre ++ more := by rw [State.consume_unread, hunread]; rfl
    obtain ⟨t', w, hsteps, hw, hpost⟩ := ih hv hbranch hrest
    rw [State.consume_consume, Nat.add_comm] at hw
    exact ⟨t', w, (engineSteps_succ hturn).trans hsteps, hw, hpost⟩

/-- A whole code leads to its leaf (R191). -/
theorem Decoding.reads_to_leaf {t : Tree} {s u : State} {y : Symbol} {p more : List Bool} (h : Decoding t s u)
    (hcode : t.code y = some p) (hunread : s.unread = p ++ more) :
    ∃ w, engineSteps p.length u = .next w ∧ Decoding (.leaf y) (s.consume p.length) w := by
  obtain ⟨t', w, hsteps, hw, hleaf⟩ := h.reads_code (post := []) (by rwa [List.append_nil]) hunread
  exact ⟨w, hsteps, Tree.eq_leaf_of_code_nil hleaf ▸ hw⟩

/-- A data byte with a bit behind its code is emitted, and DECODE stands at the root again in front of that bit
(R191). -/
theorem Decoding.reads_byte {l r : Tree} {s u : State} {a : Byte} {b : Bool} {p more : List Bool}
    (h : Decoding (.node l r) s u) (htree : s.nodes.rooted 0 (.node l r))
    (hcode : (Tree.node l r).code (symbolOfByte a) = some p) (hunread : s.unread = p ++ b :: more) :
    ∃ w, engineSteps (p.length + 1) u = .next w ∧ Decoding (.node l r) (s.decoded p.length [a]) w := by
  obtain ⟨v, hsteps, hv⟩ := h.reads_to_leaf hcode hunread
  obtain ⟨w, hturn, hw⟩ := hv.turn_data htree (by rw [State.consume_unread, hunread, List.drop_left])
  exact ⟨w, by rw [engineSteps_add hsteps, engineSteps_succ hturn, engineSteps_zero], hw⟩

/-! ### DECODE: whole payloads -/

theorem Tree.payload_nil (t : Tree) : t.payload [] = t.code Config.eofSym := t.codesOf_singleton _

theorem Tree.payload_cons_eq_some {t : Tree} {a : Byte} {data : List Byte} {payload : List Bool}
    (h : t.payload (a :: data) = some payload) :
    ∃ p q, t.code (symbolOfByte a) = some p ∧ t.payload data = some q ∧ payload = p ++ q :=
  Tree.codesOf_cons_eq_some h

/-- EOF has a code in every tree with a payload (R96). -/
theorem Tree.eof_mem_of_payload {t : Tree} {data : List Byte} {payload : List Bool}
    (h : t.payload data = some payload) : Config.eofSym ∈ t.symbols := by
  obtain ⟨-, q, -, hq, -⟩ := Tree.codesOf_append_eq_some h
  rw [Tree.codesOf_singleton] at hq
  exact (t.code_isSome_iff _).1 (hq ▸ rfl)

/-- With a data byte in the payload the root is an internal node, since the byte and EOF have leaves of their own. -/
theorem Tree.exists_node_of_payload_cons {t : Tree} {a : Byte} {data : List Byte} {payload : List Bool}
    (h : t.payload (a :: data) = some payload) : ∃ l r, t = .node l r := by
  have heof := Tree.eof_mem_of_payload h
  obtain ⟨p, -, hcode, -⟩ := Tree.payload_cons_eq_some h
  have hbyte : symbolOfByte a ∈ t.symbols := (t.code_isSome_iff _).1 (hcode ▸ rfl)
  cases t with
  | leaf v =>
    simp only [Tree.symbols, List.mem_singleton] at heof hbyte
    exact absurd (hbyte.trans heof.symm) (symbolOfByte_ne_eof a)
  | node l r => exact ⟨l, r, rfl⟩

/-- Below an internal root every payload has a bit (R98). -/
theorem Tree.payload_node_ne_nil {l r : Tree} {data : List Byte} {payload : List Bool}
    (h : (Tree.node l r).payload data = some payload) : payload ≠ [] := by
  obtain ⟨p, q, -, hq, rfl⟩ := Tree.codesOf_append_eq_some h
  rw [Tree.codesOf_singleton] at hq
  intro hnil
  obtain ⟨-, rfl⟩ := List.append_eq_nil_iff.1 hnil
  cases Tree.eq_leaf_of_code_nil hq

/-- DECODE emits the data of a whole payload and stands at the EOF leaf, one step for each bit and one for each byte
(R191, R254). -/
theorem Decoding.reads_payload {t : Tree} {s u : State} {data : List Byte} {payload rest : List Bool}
    (h : Decoding t s u) (htree : s.nodes.rooted 0 t) (hpayload : t.payload data = some payload)
    (hunread : s.unread = payload ++ rest) :
    ∃ w, engineSteps (payload.length + data.length) u = .next w ∧
      Decoding (.leaf Config.eofSym) (s.decoded payload.length data) w := by
  induction data generalizing s u payload with
  | nil =>
    rw [Tree.payload_nil] at hpayload
    rw [State.decoded, State.emitted_nil]
    exact h.reads_to_leaf hpayload hunread
  | cons a data ih =>
    obtain ⟨l, r, rfl⟩ := Tree.exists_node_of_payload_cons hpayload
    obtain ⟨p, q, hcode, hq, rfl⟩ := Tree.payload_cons_eq_some hpayload
    obtain ⟨b, more, rfl⟩ := List.exists_cons_of_ne_nil (Tree.payload_node_ne_nil hq)
    rw [List.append_assoc] at hunread
    obtain ⟨v, hbyte, hv⟩ := h.reads_byte htree hcode hunread
    obtain ⟨w, hdata, hw⟩ := ih hv htree hq (by rw [State.decoded_unread, hunread, List.drop_left])
    rw [State.decoded_decoded, ← List.length_append] at hw
    have hcount : (p ++ b :: more).length + (a :: data).length = p.length + 1 + ((b :: more).length + data.length) := by
      rw [List.length_append, List.length_cons (a := a)]
      omega
    exact ⟨w, by rw [hcount, engineSteps_add hbyte, hdata], hw⟩

/-- DECODE's first step reads a bit at the root, unless the root is a data leaf (R191). -/
theorem execDec_start {s : State} {t : Tree} (hrun : s.eng = .run .start) (htree : s.hasTree t)
    (heof : Config.eofSym ∈ t.symbols) : exec .dec s = .next ((s.setCur 0).readThen 1 .decRead) := by
  obtain ⟨hvalid, -, -, hholds⟩ := htree
  have hroot : ¬(nodeIsLeaf (s.nodes.read 0) && !nodeIsEof (s.nodes.read 0)) = true := by
    cases t with
    | leaf v =>
      rw [Tree.symbols, List.mem_singleton] at heof
      rw [hholds.1, ← heof]
      decide
    | node l r =>
      rw [hholds.1]
      exact Bool.false_ne_true
  simp only [exec, execDec, hrun, hvalid, if_true]
  rw [withNode_of_lt (by decide)]
  exact if_neg hroot

/-- Settles O42: the read at the EOF leaf takes one bit more, or none where IN ends. -/
theorem decodeEmitsData : Obligations.DecodeEmitsData := by
  intro s t data payload rest hstart htree hcursor hpayload hunread
  have ⟨hrun, hcmd⟩ := hstart
  have hfirst := execDec_start hrun htree (Tree.eof_mem_of_payload hpayload)
  obtain ⟨w, hsteps, hw⟩ := (decoding_readThen hcmd htree.rooted).reads_payload htree.rooted hpayload hunread
  have hcount : payload.length + 1 + data.length + 1 = payload.length + data.length + 1 + 1 := by omega
  refine ⟨_, _, hfirst, rfl,
    by rw [hcount, engineSteps_succ (hstart.turn.trans hfirst), engineSteps_add hsteps, engineSteps_succ hw.turn_eof,
      engineSteps_zero], ?_⟩
  rw [State.decoded_consume hcursor, hunread, List.length_append, Nat.add_min_add_left, ← Nat.add_assoc]
  rfl

/-! ### DECODE: cut payloads -/

/-- Where IN ends inside a code, or behind a data byte's, DECODE stands at another node than the EOF leaf (R195). -/
theorem Decoding.reads_cut_code {t : Tree} {s u : State} {y : Symbol} {post : List Bool} (h : Decoding t s u)
    (hcode : t.code y = some (s.unread ++ post)) (hcut : y ≠ Config.eofSym ∨ post ≠ []) :
    ∃ t' w, engineSteps s.unread.length u = .next w ∧ t' ≠ .leaf Config.eofSym ∧
      Decoding t' (s.decoded s.unread.length []) w := by
  obtain ⟨t', w, hsteps, hw, hpost⟩ := h.reads_code hcode (List.append_nil _).symm
  refine ⟨t', w, hsteps, ?_, by rwa [State.decoded, State.emitted_nil]⟩
  rintro rfl
  rw [Tree.code_leaf, Option.ite_none_right_eq_some, Option.some.injEq] at hpost
  obtain ⟨heof, hnil⟩ := hpost
  exact hcut.elim (absurd heof) (absurd hnil.symm)

/-- DECODE of a cut payload emits whole bytes and reads all of IN, where it stands at another node than the EOF leaf
(R195). -/
theorem Decoding.reads_cut_payload {t : Tree} {s u : State} {data : List Byte} {missing : List Bool}
    (h : Decoding t s u) (htree : s.nodes.rooted 0 t) (hpayload : t.payload data = some (s.unread ++ missing))
    (hmissing : missing ≠ []) :
    ∃ k m codes t' w, engineSteps k u = .next w ∧ m ≤ data.length ∧
      t.codesOf ((data.take m).map symbolOfByte) = some codes ∧ codes <+: s.unread ∧ t' ≠ .leaf Config.eofSym ∧
      Decoding t' (s.decoded s.unread.length (data.take m)) w := by
  induction data generalizing s u with
  | nil =>
    rw [Tree.payload_nil] at hpayload
    obtain ⟨t', w, hsteps, ht', hw⟩ := h.reads_cut_code hpayload (.inr hmissing)
    exact ⟨_, 0, [], t', w, hsteps, le_rfl, rfl, List.nil_prefix, ht', hw⟩
  | cons a data ih =>
    obtain ⟨l, r, rfl⟩ := Tree.exists_node_of_payload_cons hpayload
    obtain ⟨p, q, hcode, hq, hpq⟩ := Tree.payload_cons_eq_some hpayload
    have hcases : (∃ post, p = s.unread ++ post) ∨ ∃ b more, s.unread = p ++ b :: more ∧ q = b :: more ++ missing := by
      rcases List.append_eq_append_iff.1 hpq with ⟨post, hp, -⟩ | ⟨more, hunread, hmore⟩
      · exact .inl ⟨post, hp⟩
      · cases more with
        | nil => exact .inl ⟨[], by rw [hunread, List.append_nil, List.append_nil]⟩
        | cons b more => exact .inr ⟨b, more, hunread, hmore⟩
    rcases hcases with ⟨post, rfl⟩ | ⟨b, more, hunread, rfl⟩
    · obtain ⟨t', w, hsteps, ht', hw⟩ := h.reads_cut_code hcode (.inl (symbolOfByte_ne_eof a))
      exact ⟨_, 0, [], t', w, hsteps, Nat.zero_le _, rfl, List.nil_prefix, ht', hw⟩
    · obtain ⟨v, hbyte, hv⟩ := h.reads_byte htree hcode hunread
      have hrest : (s.decoded p.length [a]).unread = b :: more := by rw [State.decoded_unread, hunread, List.drop_left]
      obtain ⟨k, m, codes, t', w, hdata, hm, hcodes, hprefix, ht', hw⟩ := ih hv htree (hrest.symm ▸ hq)
      rw [State.decoded_decoded, hrest, ← List.length_append, ← hunread] at hw
      rw [hrest] at hprefix
      refine ⟨_, m + 1, p ++ codes, t', w, (engineSteps_add hbyte).trans hdata, Nat.succ_le_succ hm, ?_, ?_, ht', hw⟩
      · simp only [List.take_succ_cons, List.map_cons, Tree.codesOf, hcode, hcodes]
      · rw [hunread]
        exact (List.prefix_append_right_inj p).2 hprefix

/-- Settles O43: the read past the end of IN returns EXH at a node that is not the EOF leaf. -/
theorem decodeTruncated : Obligations.DecodeTruncated := by
  intro s t data missing hstart htree hcursor hpayload hmissing
  have ⟨hrun, hcmd⟩ := hstart
  have hfirst := execDec_start hrun htree (Tree.eof_mem_of_payload hpayload)
  obtain ⟨k, m, codes, t', w, hsteps, hm, hcodes, hprefix, ht', hw⟩ :=
    (decoding_readThen hcmd htree.rooted).reads_cut_payload htree.rooted hpayload hmissing
  have hraise := hw.turn_exhausted ht' (by rw [State.decoded_unread, List.drop_length])
  rw [← engineSteps_succ (hstart.turn.trans hfirst)] at hsteps
  refine ⟨_, m, codes, _, (engineSteps_add hsteps).trans (engineSteps_succ (n := 0) hraise), hm, hcodes, hprefix, ?_⟩
  have hend : s.ip + s.unread.length = s.input.length := by rw [State.length_unread]; omega
  rw [State.decoded_consume hcursor, Nat.min_eq_right (Nat.le_succ _), hend, List.length_take_of_le hm]
  rfl

end Sys2Proof.Machine
end

section
/-! PROOFS. The host's programs: an engine step neither looks at the host's lists nor depends on them, so a command that
ends with DONE takes the program to its next line; and O59 (spec/30_encoding.md R96, R99, R100; spec/43_encoder.md R174;
spec/44_decoder.md R194). -/

namespace Sys2Proof.Machine

/-! ### An engine step under any moves and reads of the host -/

/-- The host's moves still to come and the values it has read, put in place of those in `s` (log 6). -/
def State.setHost (agenda : List Move) (reads : List Word32) (s : State) : State :=
  { s with agenda := agenda, reads := reads }

/-- What a meaning answers, with `f` applied to a next state. -/
def mapNext (f : State → State) : Result → Result
  | .next s => .next (f s)
  | .fault r => .fault r
  | .refused r => .refused r

@[simp] theorem State.setHost_eng (agenda : List Move) (reads : List Word32) (s : State) :
    (s.setHost agenda reads).eng = s.eng := rfl

/-- The meaning does the same whatever moves are to come and whatever the host has read. -/
def HostBlind (f : State → Result) : Prop :=
  ∀ agenda reads s, f (s.setHost agenda reads) = mapNext (State.setHost agenda reads) (f s)

theorem ite_mapNext {c : Prop} [Decidable c] {f : State → State} {a b a' b' : Result} (ha : a' = mapNext f a)
    (hb : b' = mapNext f b) : (if c then a' else b') = mapNext f (if c then a else b) := by
  rw [ha, hb, apply_ite (mapNext f)]

section Operations

variable {agenda : List Move} {reads : List Word32} {s : State}

theorem withNode_setHost {i : NodeIx} {k k' : Node → Result}
    (hk : ∀ e, k' e = mapNext (State.setHost agenda reads) (k e)) :
    withNode i (s.setHost agenda reads) k' = mapNext (State.setHost agenda reads) (withNode i s k) :=
  ite_mapNext (hk _) rfl

theorem putNode_setHost {i : NodeIx} {e : Node} {k : State → Result} (hk : HostBlind k) :
    putNode i e (s.setHost agenda reads) k = mapNext (State.setHost agenda reads) (putNode i e s k) :=
  ite_mapNext (hk _ _ { s with nodes := s.nodes.write i.toNat e }) rfl

theorem withCode_setHost {y : Symbol} {k k' : CodeEntry → Result}
    (hk : ∀ c, k' c = mapNext (State.setHost agenda reads) (k c)) :
    withCode y (s.setHost agenda reads) k' = mapNext (State.setHost agenda reads) (withCode y s k) :=
  ite_mapNext (hk _) rfl

theorem emitCode_setHost {c : CodeEntry} {k : Nat} {p : Nat → Point} {rest : State → Result} (hrest : HostBlind rest) :
    emitCode c k p (s.setHost agenda reads) rest = mapNext (State.setHost agenda reads) (emitCode c k p s rest) :=
  ite_mapNext rfl (hrest _ _ _)

theorem ldtAttach_setHost {i : NodeIx} {stack : List NodeIx} {attach : Bool} {k : List NodeIx → State → Result}
    (hk : ∀ rest, HostBlind (k rest)) :
    ldtAttach i stack attach (s.setHost agenda reads) k =
      mapNext (State.setHost agenda reads) (ldtAttach i stack attach s k) := by
  cases attach with
  | false => exact hk _ _ _ _
  | true =>
    cases stack with
    | nil => rfl
    | cons p rest => exact withNode_setHost (s := s) fun _ => putNode_setHost (hk _)

end Operations

/-! DECODE -/

theorem decDescend_hostBlind (r : BitVec 1) : HostBlind (decDescend r) := fun _ _ _ => withNode_setHost fun _ => rfl

theorem decReadStep_hostBlind (r : Option (BitVec 1)) : HostBlind (decReadStep r) := by
  refine fun _ _ _ => withNode_setHost fun _ => ite_mapNext rfl ?_
  cases r with
  | none => rfl
  | some b => exact ite_mapNext rfl (decDescend_hostBlind b _ _ _)

theorem execDec_hostBlind : HostBlind execDec := by
  intro agenda reads s
  simp only [execDec, State.setHost_eng]
  split
  · exact ite_mapNext (withNode_setHost fun _ => ite_mapNext rfl rfl) rfl
  · exact decReadStep_hostBlind _ _ _ _
  · exact decDescend_hostBlind _ _ _ (s.countSymbol.setCur 0)
  · rfl

/-! ENCODE and ENCODE_SYM -/

theorem encAfter_hostBlind (y : Symbol) : HostBlind (encAfter y) := fun _ _ _ => ite_mapNext rfl rfl

theorem encReadStep_hostBlind (v : Option Byte) : HostBlind (encReadStep v) := fun _ _ _ =>
  withCode_setHost fun _ => ite_mapNext (emitCode_setHost (encAfter_hostBlind _)) rfl

theorem execEnc_hostBlind : HostBlind execEnc := by
  intro agenda reads s
  simp only [execEnc, State.setHost_eng]
  split
  · exact ite_mapNext rfl rfl
  · exact encReadStep_hostBlind _ _ _ _
  · exact withCode_setHost fun _ => emitCode_setHost (encAfter_hostBlind _)
  · rfl

theorem ensFinish_hostBlind : HostBlind ensFinish := fun _ _ _ => rfl

theorem encodeSymbol_hostBlind (y : Symbol) : HostBlind (encodeSymbol y) := by
  intro agenda reads s
  simp only [encodeSymbol, State.setHost_eng]
  split
  · exact ite_mapNext (withCode_setHost fun _ => ite_mapNext (emitCode_setHost ensFinish_hostBlind) rfl) rfl
  · exact withCode_setHost fun _ => emitCode_setHost ensFinish_hostBlind
  · rfl

/-! STORE_TREE -/

theorem sttLoopStep_hostBlind (stack : List NodeIx) : HostBlind (sttLoopStep stack) := by
  intro agenda reads s
  cases stack with
  | nil => rfl
  | cons i rest =>
    simp only [sttLoopStep]
    exact withNode_setHost fun _ => ite_mapNext rfl rfl

theorem execStt_hostBlind : HostBlind execStt := by
  intro agenda reads s
  simp only [execStt, State.setHost_eng]
  split
  · exact ite_mapNext (sttLoopStep_hostBlind _ _ _ _) rfl
  · exact withNode_setHost fun _ => rfl
  · exact withNode_setHost fun _ => sttLoopStep_hostBlind _ _ _ _
  · exact sttLoopStep_hostBlind _ _ _ _
  · rfl

/-! LOAD_TREE -/

theorem ldtReadFlag_hostBlind (n : NodeIx) (stack : List NodeIx) (attach : Bool) :
    HostBlind (ldtReadFlag n stack attach) := fun _ _ _ => rfl

theorem ldtFlagStep_hostBlind (f : Option (BitVec 1)) (n : NodeIx) (stack : List NodeIx) (attach : Bool) :
    HostBlind (ldtFlagStep f n stack attach) := by
  intro agenda reads s
  cases f with
  | none => rfl
  | some b =>
    exact ite_mapNext rfl (ldtAttach_setHost fun _ _ _ _ =>
      ite_mapNext rfl (putNode_setHost (ldtReadFlag_hostBlind _ _ _)))

theorem ldtSymStep_hostBlind (v : Option Symbol) (n i : NodeIx) (stack : List NodeIx) :
    HostBlind (ldtSymStep v n i stack) := by
  intro agenda reads s
  cases v with
  | none => rfl
  | some y =>
    refine ite_mapNext rfl (putNode_setHost fun _ _ _ => ?_)
    cases stack <;> rfl

theorem execLdt_hostBlind : HostBlind execLdt := by
  intro agenda reads s
  simp only [execLdt, State.setHost_eng]
  split
  · rfl
  · exact ldtFlagStep_hostBlind _ _ _ _ _ _ _
  · exact ldtSymStep_hostBlind _ _ _ _ _ _ _
  · rfl

/-! DERIVE -/

theorem drvLoop_hostBlind (fuel : Nat) (stack : List (NodeIx × Nat × Nat)) : HostBlind (drvLoop fuel stack) := by
  intro agenda reads s
  induction fuel generalizing stack s with
  | zero => cases stack <;> rfl
  | succ fuel ih =>
    cases stack with
    | nil => rfl
    | cons top rest =>
      exact withNode_setHost fun e =>
        ite_mapNext (withCode_setHost fun _ => ite_mapNext rfl (ih _ (s.putCode e.sym _))) (ih _ _)

theorem execDrv_hostBlind : HostBlind execDrv := by
  intro agenda reads s
  simp only [execDrv, State.setHost_eng]
  split
  · exact ite_mapNext (drvLoop_hostBlind _ _ _ _ s.flagTableStale.zeroCodes) rfl
  · rfl

/-! The engine's turn -/

theorem exec_hostBlind (i : Instr) : HostBlind (exec i) := by
  intro agenda reads s
  cases i with
  | nop =>
    simp only [exec, execNop, State.setHost_eng]
    split <;> rfl
  | ldt => exact execLdt_hostBlind _ _ _
  | stt => exact execStt_hostBlind _ _ _
  | drv => exact execDrv_hostBlind _ _ _
  | ckm =>
    simp only [exec, execCkm, State.setHost_eng]
    split
    · rfl
    · exact ite_mapNext rfl rfl
    · rfl
  | wrm =>
    simp only [exec, execWrm, State.setHost_eng]
    split <;> rfl
  | enc => exact execEnc_hostBlind _ _ _
  | ens b => exact encodeSymbol_hostBlind _ _ _ _
  | ensEof => exact encodeSymbol_hostBlind _ _ _ _
  | dec => exact execDec_hostBlind _ _ _
  | rwd =>
    simp only [exec, execRwd, State.setHost_eng]
    split <;> rfl
  | srst ignored => rfl
  | illegal w =>
    simp only [exec, execIllegal, State.setHost_eng]
    split <;> rfl

theorem engineTurn_hostBlind : HostBlind engineTurn := by
  intro agenda reads s
  simp only [engineTurn, State.setHost_eng]
  split
  · rfl
  · exact exec_hostBlind _ _ _ _

/-! ### Runs of the system -/

/-- Some number of steps of the system leads from `s` to `t`. -/
def Runs (s t : State) : Prop := ∃ n, core.run n s = .next t

theorem core_run_succ {n : Nat} {s t : State} (h : step s = .next t) : core.run (n + 1) s = core.run n t := by
  have hstep : core.step s = .next t := h
  simp only [Host.Core.run, hstep]

theorem core_run_add {m n : Nat} {s t : State} (h : core.run m s = .next t) : core.run (m + n) s = core.run n t := by
  induction m generalizing s with
  | zero =>
    cases h
    rw [Nat.zero_add]
  | succ m ih =>
    rw [Nat.add_right_comm]
    cases hstep : core.step s with
    | next u =>
      simp only [Host.Core.run, hstep] at h ⊢
      exact ih h
    | fault r => simp [Host.Core.run, hstep] at h
    | refused r => simp [Host.Core.run, hstep] at h

theorem Runs.of_step {s t : State} (h : step s = .next t) : Runs s t := ⟨1, core_run_succ h⟩

theorem Runs.trans {s t u : State} (hst : Runs s t) (htu : Runs t u) : Runs s u := by
  obtain ⟨m, hm⟩ := hst
  obtain ⟨n, hn⟩ := htu
  exact ⟨m + n, (core_run_add hm).trans hn⟩

/-! ### One line of a program -/

theorem State.busy_eq_false_iff (s : State) : s.busy = false ↔ s.eng = .idle := by
  unfold State.busy
  cases s.eng <;> simp

theorem step_poll (s : State) (rest : List Move) (reads : List Word32) :
    step (s.setHost (.poll :: rest) reads) =
      .next (s.setHost (if s.busy then .engine :: .poll :: rest else if s.err then [] else rest)
        (reads ++ [s.statusWord])) := rfl

theorem step_engine {s u : State} (hturn : engineTurn s = .next u) (rest : List Move) (reads : List Word32) :
    step (s.setHost (.engine :: rest) reads) = .next (u.setHost rest reads) :=
  (engineTurn_hostBlind rest reads s).trans (congrArg (mapNext _) hturn)

/-- The host waits while the engine takes the steps of a command, and goes on once it has ended without an error (R99,
log 15). -/
theorem runs_poll {k : Nat} {s t : State} (hsteps : engineSteps k s = .next t) (hidle : t.eng = .idle)
    (herr : t.err = false) (rest : List Move) (reads : List Word32) :
    ∃ reads', Runs (s.setHost (.poll :: rest) reads) (t.setHost rest reads') := by
  induction k generalizing s reads with
  | zero =>
    cases hsteps
    have hpoll := step_poll t rest reads
    simp only [(State.busy_eq_false_iff t).2 hidle, herr, Bool.false_eq_true, if_false] at hpoll
    exact ⟨_, .of_step hpoll⟩
  | succ k ih =>
    cases hturn : engineTurn s with
    | next u =>
      rw [engineSteps_succ hturn] at hsteps
      cases heng : s.eng with
      | idle =>
        rw [engineTurn_idle heng] at hturn
        cases hturn
        exact ih hsteps reads
      | run p =>
        have hpoll := step_poll s rest reads
        rw [if_pos ((busy_iff s).2 ⟨p, heng⟩)] at hpoll
        obtain ⟨reads', hrun⟩ := ih hsteps (reads ++ [s.statusWord])
        exact ⟨reads', (Runs.of_step hpoll).trans ((Runs.of_step (step_engine hturn _ _)).trans hrun)⟩
    | fault r => simp [engineSteps, hturn] at hsteps
    | refused r => simp [engineSteps, hturn] at hsteps

/-- From `s`, where no command runs, the command `i` runs from its acceptance to DONE in `t`. -/
structure Executes (i : Instr) (s t : State) : Prop where
  steps : ∃ k, engineSteps k (s.accept (encode i).word) = .next t
  idle : t.eng = .idle
  done : t.done = true
  err : t.err = false

/-- The host still has the instructions `instrs` to run from `s`, and has read `reads`. -/
def State.atProgram (instrs : List Instr) (reads : List Word32) (s : State) : State :=
  s.setHost (instrs.flatMap instrMoves) reads

/-- The host gets from one place in a program to another, whatever it has read (R99). -/
def Proceeds (is : List Instr) (s : State) (is' : List Instr) (s' : State) : Prop :=
  ∀ reads, ∃ reads', Runs (s.atProgram is reads) (s'.atProgram is' reads')

theorem Proceeds.trans {is is' is'' : List Instr} {s s' s'' : State} (h : Proceeds is s is' s')
    (h' : Proceeds is' s' is'' s'') : Proceeds is s is'' s'' := by
  intro reads
  obtain ⟨reads', hrun⟩ := h reads
  obtain ⟨reads'', hrun'⟩ := h' reads'
  exact ⟨reads'', hrun.trans hrun'⟩

/-- A command that ends with DONE takes the host to the next instruction (R99). -/
theorem Executes.proceeds {i : Instr} {s t : State} (h : Executes i s t) (hidle : s.eng = .idle)
    (hport : (encode i).port = .cmd) (is : List Instr) : Proceeds (i :: is) s is t := by
  intro reads
  obtain ⟨k, hsteps⟩ := h.steps
  obtain ⟨reads', hrun⟩ := runs_poll hsteps h.idle h.err (is.flatMap instrMoves) reads
  have hmoves : (i :: is).flatMap instrMoves = .write 32 0x00 (encode i).word :: .poll :: is.flatMap instrMoves := by
    simp only [List.flatMap_cons, instrMoves, moveOf, hport]
    rfl
  have hwrite : step (s.atProgram (i :: is) reads) =
      .next ((s.accept (encode i).word).setHost (.poll :: is.flatMap instrMoves) reads) := by
    rw [State.atProgram, hmoves, step_of_agenda_cons rfl, takeMove_write_cmd, writeCmd_of_idle]
    · rfl
    · exact (State.busy_eq_false_iff _).2 hidle
  exact ⟨reads', (Runs.of_step hwrite).trans hrun⟩

/-! ### The commands of COMPRESS and DECOMPRESS -/

theorem started_accept {i : Instr} (hwf : i.wf = true) (hport : (encode i).port = .cmd) (s : State) :
    Started i (s.accept (encode i).word) := by
  have hdecode := decodeEncode i hwf
  simp only [decode, hport, Except.ok.injEq] at hdecode
  exact ⟨rfl, hdecode⟩

/-- A cursor moved over `bits` leaves what stood behind them, and stays inside IN (R62). -/
theorem State.unread_of_ip {s u : State} {bits rest : List Bool} (hunread : s.unread = bits ++ rest)
    (hcursor : s.ip ≤ s.input.length) (hinput : u.input = s.input) (hip : u.ip = s.ip + bits.length) :
    u.unread = rest ∧ u.ip ≤ u.input.length := by
  have hlen := s.length_unread
  rw [hunread, List.length_append] at hlen
  constructor
  · calc u.unread = s.unread.drop bits.length := by rw [State.unread, State.unread, hinput, hip, List.drop_drop]
      _ = rest := by rw [hunread, List.drop_left]
  · rw [hinput, hip]
    omega

/-- The tree `t` and its table stand in the block, and the bits `rest` are still to be read. -/
structure Prepared (t : Tree) (rest : List Bool) (s : State) : Prop where
  tree : s.hasTree t
  table : s.hasTable t
  tableValid : s.tableValid = true
  unread : s.unread = rest
  cursor : s.ip ≤ s.input.length

section Commands

variable {s : State} {t : Tree} {rest : List Bool}

/-- In front of MAGIC_VALUE CHECK_MAGIC ends with DONE (R190). -/
theorem executes_ckm (hunread : s.unread = lowBits 32 s.magic.toNat ++ rest) (hcursor : s.ip ≤ s.input.length) :
    ∃ u, Executes .ckm s u ∧ u.unread = rest ∧ u.ip ≤ u.input.length ∧ u.out = s.out := by
  obtain ⟨-, u, -, -, -, hsteps, hip, -, hu, hpass, -⟩ := checkMagicResult _ (started_accept rfl rfl s) hcursor
  have hmagic : s.unread.take 32 = lowBits 32 s.magic.toNat := by
    rw [hunread, List.take_left' (length_lowBits 32 _)]
  obtain ⟨hdone, herr, -⟩ := hpass hmagic
  have hread : min 32 s.unread.length = (lowBits 32 s.magic.toNat).length := by
    rw [← hmagic, List.length_take]
  obtain ⟨hrest, hcursor'⟩ :=
    State.unread_of_ip hunread hcursor (by rw [hu]; rfl) (hip.trans (congrArg (s.ip + ·) hread))
  exact ⟨u, ⟨⟨_, hsteps⟩, by rw [hu], hdone, herr⟩, hrest, hcursor', by rw [hu]; rfl⟩

theorem executes_ldt (hunread : s.unread = t.serialize ++ rest) (hcursor : s.ip ≤ s.input.length)
    (hsyms : t.symsOk = true) (hsize : t.size ≤ Config.nodeCap) :
    ∃ u, Executes .ldt s u ∧ u.hasTree t ∧ u.unread = rest ∧ u.ip ≤ u.input.length ∧ u.out = s.out ∧
      u.magic = s.magic := by
  obtain ⟨u, hsteps, htree, hip, -, hu⟩ :=
    loadTreeLoadsSerializedTree _ t rest (started_accept rfl rfl s) hcursor hunread hsyms hsize
  obtain ⟨hrest, hcursor'⟩ := State.unread_of_ip hunread hcursor (by rw [hu]; rfl) hip
  exact ⟨u, ⟨⟨_, hsteps⟩, by rw [hu], by rw [hu], by rw [hu]; rfl⟩, htree, hrest, hcursor', by rw [hu]; rfl,
    by rw [hu]; rfl⟩

theorem executes_drv (htree : s.hasTree t) (hnodup : t.symbols.Nodup) (hunread : s.unread = rest)
    (hcursor : s.ip ≤ s.input.length) :
    ∃ u, Executes .drv s u ∧ Prepared t rest u ∧ u.out = s.out ∧ u.magic = s.magic := by
  have hstart := started_accept (i := .drv) rfl rfl s
  obtain ⟨u, hexec, htable, hu⟩ := deriveBuildsTable _ t hstart htree hnodup
  have hsteps := engineSteps_succ (n := 0) (hstart.turn.trans hexec)
  exact ⟨u, ⟨⟨_, hsteps⟩, by rw [hu], by rw [hu], by rw [hu]; rfl⟩,
    ⟨by rw [hu]; exact htree, htable, by rw [hu], by rw [hu]; exact hunread, by rw [hu]; exact hcursor⟩,
    by rw [hu]; rfl, by rw [hu]; rfl⟩

theorem executes_wrm (h : Prepared t rest s) :
    ∃ u, Executes .wrm s u ∧ Prepared t rest u ∧ u.out = s.out ++ lowBits 32 s.magic.toNat := by
  obtain ⟨v, u, -, hout, -, hsteps, hu⟩ := writeMagicResult _ (started_accept rfl rfl s)
  exact ⟨u, ⟨⟨_, hsteps⟩, by rw [hu], by rw [hu], by rw [hu]; rfl⟩,
    by rw [hu]; exact ⟨h.tree, h.table, h.tableValid, h.unread, h.cursor⟩,
    by rw [hu, lowBits_eq_map]; exact hout⟩

theorem executes_stt (h : Prepared t rest s) :
    ∃ u, Executes .stt s u ∧ Prepared t rest u ∧ u.out = s.out ++ t.serialize := by
  obtain ⟨-, u, -, -, hsteps, hu⟩ := storeTreeAppendsSerializedTree _ t (started_accept rfl rfl s) h.tree
  exact ⟨u, ⟨⟨_, hsteps⟩, by rw [hu], by rw [hu], by rw [hu]; rfl⟩,
    by rw [hu]; exact ⟨h.tree, h.table, h.tableValid, h.unread, h.cursor⟩,
    by rw [hu]; rfl⟩

theorem executes_enc {data : List Byte} {payload : List Bool} (h : Prepared t (bitsOfBytes data) s)
    (hpayload : t.payload data = some payload) : ∃ u, Executes .enc s u ∧ u.out = s.out ++ payload := by
  obtain ⟨-, u, -, -, hsteps, hu⟩ := encodeAppendsPayload _ t data [] payload (started_accept rfl rfl s) h.tableValid
    h.tree h.table h.cursor (h.unread.trans (List.append_nil _).symm) (by decide) hpayload
  exact ⟨u, ⟨⟨_, hsteps⟩, by rw [hu], by rw [hu], by rw [hu]; rfl⟩, by rw [hu]; rfl⟩

theorem executes_dec {data : List Byte} {payload : List Bool} (htree : s.hasTree t) (hcursor : s.ip ≤ s.input.length)
    (hpayload : t.payload data = some payload) (hunread : s.unread = payload ++ rest) :
    ∃ u, Executes .dec s u ∧ u.out = s.out ++ bitsOfBytes data := by
  obtain ⟨-, u, -, -, hsteps, hu⟩ :=
    decodeEmitsData _ t data payload rest (started_accept rfl rfl s) htree hcursor hpayload hunread
  exact ⟨u, ⟨⟨_, hsteps⟩, by rw [hu], by rw [hu], by rw [hu]; rfl⟩, by rw [hu]; rfl⟩

end Commands

/-! ### Whole programs -/

/-- A program whose instructions the host gets through ends, with its last command's results (R99, R226). -/
theorem Proceeds.run_ends {lines : List Line} {bits : List Bool} {s u : State}
    (h : Proceeds (lines.flatMap Line.instrs) { s with input := bits, ip := 0 } [] u) (hidle : u.eng = .idle) :
    ∃ n v, core.run n (s.withProgram bits lines) = .next v ∧ v.runEnded = true ∧ v.done = u.done ∧ v.out = u.out := by
  obtain ⟨reads, n, hrun⟩ := h s.reads
  have hbusy : (u.atProgram [] reads).busy = false := (State.busy_eq_false_iff _).2 hidle
  refine ⟨n, _, hrun, ?_, rfl, rfl⟩
  rw [State.runEnded, hbusy]
  rfl

/-- COMPRESS runs LDT, DRV, WRM, STT and ENC, of which the last three each append a part of the file (R96, R100,
R174). -/
theorem compress_ends {s : State} {t : Tree} {data : List Byte} {payload : List Bool} (hidle : s.eng = .idle)
    (hsyms : t.symsOk = true) (hsize : t.size ≤ Config.nodeCap) (hnodup : t.symbols.Nodup)
    (hpayload : t.payload data = some payload) :
    ∃ n u, core.run n (s.withProgram (t.serialize ++ bitsOfBytes data) [.pseudo .compress]) = .next u ∧
      u.runEnded = true ∧ u.done = true ∧ u.out = s.out ++ fileBits s.magic t payload := by
  obtain ⟨a, hldt, htree, haunread, hacursor, haout, hamagic⟩ :=
    executes_ldt (s := { s with input := t.serialize ++ bitsOfBytes data, ip := 0 }) rfl (Nat.zero_le _) hsyms hsize
  obtain ⟨b, hdrv, hb, hbout, hbmagic⟩ := executes_drv htree hnodup haunread hacursor
  obtain ⟨c, hwrm, hc, hcout⟩ := executes_wrm hb
  obtain ⟨d, hstt, hd, hdout⟩ := executes_stt hc
  obtain ⟨e, henc, heout⟩ := executes_enc hd hpayload
  have hprogram := (hldt.proceeds hidle rfl _).trans <| (hdrv.proceeds hldt.idle rfl _).trans <|
    (hwrm.proceeds hdrv.idle rfl _).trans <| (hstt.proceeds hwrm.idle rfl _).trans <| henc.proceeds hstt.idle rfl []
  obtain ⟨n, u, hrun, hended, hdone, hout⟩ := Proceeds.run_ends (lines := [.pseudo .compress]) hprogram henc.idle
  refine ⟨n, u, hrun, hended, hdone.trans henc.done, ?_⟩
  rw [hout, heout, hdout, hcout, hbout, haout, hbmagic, hamagic, fileBits]
  simp only [List.append_assoc]

/-- DECOMPRESS runs CKM, LDT and DEC, each of which reads its part of the file (R96, R100, R194). -/
theorem decompress_ends {s : State} {t : Tree} {data : List Byte} {payload pad : List Bool} (hidle : s.eng = .idle)
    (hsyms : t.symsOk = true) (hsize : t.size ≤ Config.nodeCap) (hpayload : t.payload data = some payload) :
    ∃ n u, core.run n (s.withProgram (fileBits s.magic t payload ++ pad) [.pseudo .decompress]) = .next u ∧
      u.runEnded = true ∧ u.done = true ∧ u.out = s.out ++ bitsOfBytes data := by
  have hfile : ({ s with input := fileBits s.magic t payload ++ pad, ip := 0 } : State).unread =
      lowBits 32 s.magic.toNat ++ (t.serialize ++ (payload ++ pad)) := by
    simp [State.unread, fileBits]
  obtain ⟨a, hckm, haunread, hacursor, haout⟩ := executes_ckm hfile (Nat.zero_le _)
  obtain ⟨b, hldt, htree, hbunread, hbcursor, hbout, -⟩ := executes_ldt haunread hacursor hsyms hsize
  obtain ⟨c, hdec, hcout⟩ := executes_dec htree hbcursor hpayload hbunread
  have hprogram := (hckm.proceeds hidle rfl _).trans <| (hldt.proceeds hckm.idle rfl _).trans <|
    hdec.proceeds hldt.idle rfl []
  obtain ⟨n, u, hrun, hended, hdone, hout⟩ := Proceeds.run_ends (lines := [.pseudo .decompress]) hprogram hdec.idle
  exact ⟨n, u, hrun, hended, hdone.trans hdec.done, by rw [hout, hcout, hbout, haout]⟩

/-- Settles O59. -/
theorem compressDecompressRoundTrip : Obligations.CompressDecompressRoundTrip := by
  intro s s' t data payload pad hidle hidle' hmagic hsyms hsize hnodup hpayload
  exact ⟨compress_ends hidle hsyms hsize hnodup hpayload, hmagic ▸ decompress_ends hidle' hsyms hsize hpayload⟩

end Sys2Proof.Machine
end

section
/-! PROOFS. Every command ends: what a command has still to do shrinks with each of its steps, and STORE_TREE comes to
the end of its stack; O53 (spec/70_reset_and_hazards.md R253; spec/40_command_control.md R122). -/

namespace Sys2Proof.Machine

/-! ### The work a command has still to do -/

/-- A bound on the reads to come after one that returned `v` and left `unread` bits: after EXH no command reads
again. -/
def readsAfter {n : Nat} (v : Option (BitVec n)) (unread : Nat) : Nat :=
  match v with
  | none => 0
  | some _ => unread + 1

@[simp] theorem readsAfter_none (n unread : Nat) : readsAfter (none : Option (BitVec n)) unread = 0 := rfl

@[simp] theorem readsAfter_some {n : Nat} (v : BitVec n) (unread : Nat) : readsAfter (some v) unread = unread + 1 := rfl

/-- A bound on the reads a command still makes from its resume point (R150, R172, R191), but for STORE_TREE, which
reads nothing. -/
def Point.readsLeft (unread : Nat) : Point → Nat
  | .start | .decWritten _ => unread + 1
  | .ldtFlag f _ _ _ => readsAfter f unread
  | .ldtSym v _ _ _ => readsAfter v unread
  | .ckmRead v => readsAfter v unread
  | .encRead v => readsAfter v unread
  | .decRead r => readsAfter r unread
  | .encBits y _ => if y = Config.eofSym then 0 else unread + 1
  | .sttInternal _ _ | .sttLeaf _ _ | .sttLoop _ | .wrmWritten | .ensBits _ | .rwdDone => 0

/-- A bound on the steps a command still takes before its next read, but for STORE_TREE; LEN is below 512 (R41). -/
def Point.stepsToRead : Point → Nat
  | .start | .encRead _ | .decRead _ => 512
  | .encBits _ k | .ensBits k => 512 - k
  | .ldtFlag _ _ _ _ | .ldtSym _ _ _ _ | .sttInternal _ _ | .sttLeaf _ _ | .sttLoop _ | .ckmRead _ | .wrmWritten
  | .decWritten _ | .rwdDone => 0

/-- The measure of a running command: each read outweighs the steps up to the next one. -/
def State.work (s : State) : Nat :=
  match s.eng with
  | .idle => 0
  | .run p => 513 * p.readsLeft s.unread.length + p.stepsToRead + 1

theorem State.work_of_run {s : State} {p : Point} (h : s.eng = .run p) :
    s.work = 513 * p.readsLeft s.unread.length + p.stepsToRead + 1 := by simp only [State.work, h]

theorem State.work_pos {s : State} {p : Point} (h : s.eng = .run p) : 0 < s.work := by
  rw [State.work_of_run h]
  exact Nat.succ_pos _

theorem State.work_of_idle {s : State} (h : s.eng = .idle) : s.work = 0 := by simp only [State.work, h]

/-- A step that resumes with no more reads to come and fewer steps before the next one. -/
theorem State.work_lt_of_resume {s t : State} {p q : Point} (hs : s.eng = .run p) (ht : t.eng = .run q)
    (hreads : q.readsLeft t.unread.length ≤ p.readsLeft s.unread.length) (hsteps : q.stepsToRead < p.stepsToRead) :
    t.work < s.work := by
  rw [State.work_of_run hs, State.work_of_run ht]
  omega

theorem Point.stepsToRead_le (p : Point) : p.stepsToRead ≤ 512 := by
  cases p with
  | encBits _ k | ensBits k => exact Nat.sub_le 512 k
  | start | encRead | decRead => exact Nat.le_refl 512
  | ldtFlag | ldtSym | sttInternal | sttLeaf | sttLoop | ckmRead | wrmWritten | decWritten | rwdDone =>
    exact Nat.zero_le 512

/-- A read either takes bits off IN or returns EXH, after which no read follows (R64, R65). -/
theorem State.work_readThen_le {n : Nat} (hn : 0 < n) {p : Option (BitVec n) → Point}
    (hp : ∀ v unread, (p v).readsLeft unread = readsAfter v unread) (s : State) :
    (s.readThen n p).work ≤ 513 * (s.unread.length + 1) := by
  have hsteps := (p (s.peekBits n)).stepsToRead_le
  rw [State.work_of_run (s := s.readThen n p) rfl, hp]
  have hunread : (s.readThen n p).unread.length = s.unread.length - n := by
    rw [← List.length_drop, ← State.consume_unread]
    rfl
  rw [hunread]
  rcases Nat.lt_or_ge s.unread.length n with hshort | hlong
  · rw [State.peekBits_none hshort] at hsteps ⊢
    rw [readsAfter_none]
    omega
  · rw [State.peekBits_some hlong] at hsteps ⊢
    rw [readsAfter_some]
    omega

/-- The step from a point before which reads are still to come. -/
theorem State.work_readThen_lt {n : Nat} (hn : 0 < n) {p : Option (BitVec n) → Point}
    (hp : ∀ v unread, (p v).readsLeft unread = readsAfter v unread) {s u : State} {q : Point} (hrun : s.eng = .run q)
    (hq : q.readsLeft s.unread.length = s.unread.length + 1) (hu : u.unread = s.unread) :
    (u.readThen n p).work < s.work := by
  have hle := State.work_readThen_le hn hp u
  rw [State.work_of_run hrun, hq, ← hu]
  omega

/-! ### Every step but STORE_TREE's does some of it -/

/-- EmitCode has at most 511 bits to append, and then goes on with what follows the code (R170). -/
theorem emitCode_work {c : CodeEntry} {k : Nat} {p : Nat → Point} {q : Point} {s t : State} {rest : State → Result}
    (hrun : s.eng = .run q) (hq : q.stepsToRead = 512 - k) (hp : (p (k + 1)).stepsToRead = 512 - (k + 1))
    (hreads : (p (k + 1)).readsLeft s.unread.length ≤ q.readsLeft s.unread.length)
    (hrest : rest s = .next t → t.work < s.work) (h : emitCode c k p s rest = .next t) : t.work < s.work := by
  rcases emitCode_next h with ⟨hk, rfl⟩ | ⟨-, h⟩
  · have hlen : c.len.toNat < 512 := c.len.isLt
    exact State.work_lt_of_resume hrun rfl hreads (by omega)
  · exact hrest h

theorem execNop_work {s t : State} (h : execNop s = .next t) : t.work < s.work := by
  unfold execNop at h
  split at h <;> cases h
  exact State.work_pos ‹_›

theorem execIllegal_work {w : Word32} {s t : State} (h : execIllegal w s = .next t) : t.work < s.work := by
  unfold execIllegal at h
  split at h <;> cases h
  exact State.work_pos ‹_›

theorem execRwd_work {s t : State} (h : execRwd s = .next t) : t.work < s.work := by
  unfold execRwd at h
  split at h
  · rename_i hrun
    cases h
    exact State.work_lt_of_resume hrun rfl (Nat.zero_le _) (Nat.zero_lt_succ 511)
  · cases h
    exact State.work_pos ‹_›
  · cases h

theorem execWrm_work {s t : State} (h : execWrm s = .next t) : t.work < s.work := by
  unfold execWrm at h
  split at h
  · rename_i hrun
    cases h
    exact State.work_lt_of_resume hrun rfl (Nat.zero_le _) (Nat.zero_lt_succ 511)
  · cases h
    exact State.work_pos ‹_›
  · cases h

theorem execCkm_work {s t : State} (h : execCkm s = .next t) : t.work < s.work := by
  unfold execCkm at h
  split at h
  · cases h
    exact State.work_readThen_lt (by decide) (fun _ _ => rfl) ‹_› rfl rfl
  · split at h <;> cases h <;> exact State.work_pos ‹_›
  · cases h

/-- DERIVE's loop goes on to the end of the command in one step (R140). -/
theorem drvLoop_idle {fuel : Nat} {stack : List (NodeIx × Nat × Nat)} {s t : State}
    (h : drvLoop fuel stack s = .next t) : t.eng = .idle := by
  induction fuel generalizing stack s with
  | zero =>
    cases stack with
    | nil =>
      cases h
      rfl
    | cons => cases h
  | succ fuel ih =>
    cases stack with
    | nil =>
      cases h
      rfl
    | cons top rest =>
      obtain ⟨-, h⟩ := withNode_next h
      split at h
      · obtain ⟨-, h⟩ := withCode_next h
        split at h
        · cases h
          rfl
        · exact ih h
      · exact ih h

theorem execDrv_work {s t : State} (h : execDrv s = .next t) : t.work < s.work := by
  unfold execDrv at h
  split at h
  · rename_i hrun
    have hidle : t.eng = .idle := by
      split at h
      · exact drvLoop_idle h
      · cases h
        rfl
    rw [State.work_of_idle hidle]
    exact State.work_pos hrun
  · cases h

/-! DECODE -/

theorem decDescend_work {r : BitVec 1} {s u t : State} {q : Point} (hrun : s.eng = .run q)
    (hq : q.readsLeft s.unread.length = s.unread.length + 1) (h : decDescend r u = .next t) (hu : u.unread = s.unread) :
    t.work < s.work := by
  obtain ⟨-, h⟩ := withNode_next h
  cases h
  exact State.work_readThen_lt (by decide) (fun _ _ => rfl) hrun hq hu

theorem execDec_work {s t : State} (h : execDec s = .next t) : t.work < s.work := by
  unfold execDec at h
  split at h
  · rename_i hrun
    split at h
    · obtain ⟨-, h⟩ := withNode_next h
      split at h <;> cases h
      · exact State.work_pos hrun
      · exact State.work_readThen_lt (by decide) (fun _ _ => rfl) hrun rfl rfl
    · cases h
      exact State.work_pos hrun
  · rename_i r hrun
    obtain ⟨-, h⟩ := withNode_next h
    split at h
    · cases h
      exact State.work_pos hrun
    · split at h
      · cases h
        exact State.work_pos hrun
      · split at h
        · cases h
          exact State.work_lt_of_resume hrun rfl (Nat.le_refl _) (Nat.zero_lt_succ 511)
        · exact decDescend_work hrun rfl h rfl
  · rename_i b hrun
    exact decDescend_work hrun rfl h rfl
  · cases h

/-! ENCODE and ENCODE_SYM -/

theorem encAfter_work {y : Symbol} {s t : State} {q : Point} (hrun : s.eng = .run q)
    (hq : y ≠ Config.eofSym → q.readsLeft s.unread.length = s.unread.length + 1) (h : encAfter y s = .next t) :
    t.work < s.work := by
  unfold encAfter at h
  split at h <;> cases h
  · exact State.work_pos hrun
  · exact State.work_readThen_lt (by decide) (fun _ _ => rfl) hrun (hq ‹_›) rfl

theorem readsLeft_encBits {y : Symbol} (k unread : Nat) (hy : y ≠ Config.eofSym) :
    (Point.encBits y k).readsLeft unread = unread + 1 := if_neg hy

/-- After EXH the code is that of EOF, which ENCODE's last read has brought about (R172). -/
theorem readsLeft_encSymbol (v : Option Byte) (k unread : Nat) :
    (Point.encBits (encSymbol v) k).readsLeft unread = readsAfter v unread := by
  cases v with
  | none => rfl
  | some b => exact readsLeft_encBits k unread (symbolOfByte_ne_eof b)

theorem execEnc_work {s t : State} (h : execEnc s = .next t) : t.work < s.work := by
  unfold execEnc at h
  split at h
  · rename_i hrun
    split at h <;> cases h
    · exact State.work_readThen_lt (by decide) (fun _ _ => rfl) hrun rfl rfl
    · exact State.work_pos hrun
  · rename_i v hrun
    obtain ⟨-, h⟩ := withCode_next h
    split at h
    · have hreads := readsLeft_encSymbol v 1 s.unread.length
      refine emitCode_work hrun rfl rfl hreads.le (encAfter_work hrun fun hy => ?_) h
      exact hreads.symm.trans (readsLeft_encBits 1 _ hy)
    · cases h
      exact State.work_pos hrun
  · rename_i y k hrun
    obtain ⟨-, h⟩ := withCode_next h
    exact emitCode_work hrun rfl rfl (Nat.le_refl _) (encAfter_work hrun (readsLeft_encBits k _)) h
  · cases h

theorem ensFinish_work {s t : State} {q : Point} (hrun : s.eng = .run q) (h : ensFinish s = .next t) :
    t.work < s.work := by
  cases h
  exact State.work_pos hrun

theorem encodeSymbol_work {y : Symbol} {s t : State} (h : encodeSymbol y s = .next t) : t.work < s.work := by
  unfold encodeSymbol at h
  split at h
  · rename_i hrun
    split at h
    · obtain ⟨-, h⟩ := withCode_next h
      split at h
      · exact emitCode_work hrun rfl rfl (Nat.zero_le _) (ensFinish_work hrun) h
      · cases h
        exact State.work_pos hrun
    · cases h
      exact State.work_pos hrun
  · rename_i k hrun
    obtain ⟨-, h⟩ := withCode_next h
    exact emitCode_work hrun rfl rfl (Nat.le_refl _) (ensFinish_work hrun) h
  · cases h

/-! LOAD_TREE -/

theorem ldtNode_work {b : BitVec 1} {n : NodeIx} {rest : List NodeIx} {s u t : State} {q : Point}
    (hrun : s.eng = .run q) (hq : q.readsLeft s.unread.length = s.unread.length + 1)
    (h : ldtNode b n rest u = .next t) (hu : u.unread = s.unread) : t.work < s.work := by
  unfold ldtNode at h
  split at h
  · cases h
    exact State.work_readThen_lt (by decide) (fun _ _ => rfl) hrun hq hu
  · obtain ⟨-, h⟩ := putNode_next h
    cases h
    exact State.work_readThen_lt (by decide) (fun _ _ => rfl) hrun hq hu

theorem ldtRaise_work {e : ErrCode} {s t : State} {q : Point} (hrun : s.eng = .run q) (h : ldtRaise e s = .next t) :
    t.work < s.work := by
  cases h
  exact State.work_pos hrun

theorem execLdt_work {s t : State} (h : execLdt s = .next t) : t.work < s.work := by
  unfold execLdt at h
  split at h
  · rename_i hrun
    cases h
    exact State.work_readThen_lt (by decide) (fun _ _ => rfl) hrun rfl rfl
  · rename_i f n stack attach hrun
    rcases ldtFlagStep_next h with ⟨e, -, h⟩ | ⟨b, rfl, -, h⟩
    · exact ldtRaise_work hrun h
    · rcases ldtAttach_next h with ⟨-, h⟩ | ⟨p, rest, -, -, -, h⟩
      · exact ldtNode_work hrun rfl h rfl
      · exact ldtNode_work hrun rfl h rfl
  · rename_i v n j stack hrun
    unfold ldtSymStep at h
    split at h
    · exact ldtRaise_work hrun h
    · split at h
      · exact ldtRaise_work hrun h
      · obtain ⟨-, h⟩ := putNode_next h
        split at h <;> cases h
        · exact State.work_pos hrun
        · exact State.work_readThen_lt (by decide) (fun _ _ => rfl) hrun rfl rfl
  · cases h

/-- Each step of a command but STORE_TREE leaves it with less work to do; SRST is no command (R128). -/
theorem exec_work {i : Instr} {s t : State} (hstt : i ≠ .stt) (hsrst : ∀ ignored, i ≠ .srst ignored)
    (h : exec i s = .next t) : t.work < s.work := by
  cases i with
  | nop => exact execNop_work h
  | ldt => exact execLdt_work h
  | stt => exact absurd rfl hstt
  | drv => exact execDrv_work h
  | ckm => exact execCkm_work h
  | wrm => exact execWrm_work h
  | enc => exact execEnc_work h
  | ens b => exact encodeSymbol_work h
  | ensEof => exact encodeSymbol_work h
  | dec => exact execDec_work h
  | rwd => exact execRwd_work h
  | srst ignored => exact absurd rfl (hsrst ignored)
  | illegal w => exact execIllegal_work (w := w) h

/-! ### The end of the running command -/

/-- Some number of engine steps takes the engine to IDLE (R122, R253). -/
def CommandEnds (s : State) : Prop := ∃ k t, engineSteps k s = .next t ∧ t.eng = .idle

theorem CommandEnds.of_idle {s : State} (h : s.eng = .idle) : CommandEnds s := ⟨0, s, rfl, h⟩

theorem CommandEnds.of_steps {k : Nat} {s t : State} (h : engineSteps k s = .next t) (ht : CommandEnds t) :
    CommandEnds s := by
  obtain ⟨n, u, hsteps, hidle⟩ := ht
  exact ⟨k + n, u, (engineSteps_add h).trans hsteps, hidle⟩

theorem CommandEnds.of_turn {s t : State} (h : engineTurn s = .next t) (ht : CommandEnds t) : CommandEnds s :=
  .of_steps (k := 1) (engineSteps_succ h) ht

/-- A command other than STORE_TREE ends, since its work shrinks from step to step. -/
theorem Inv.commandEnds_of_ne_stt {s : State} (h : Inv s) (hstt : decodeCmd s.cmdLatch ≠ .stt) : CommandEnds s := by
  induction hwork : s.work using Nat.strong_induction_on generalizing s with
  | _ work ih =>
    obtain ⟨t, hturn⟩ := engineTurn_answers h
    rcases engineTurn_cases hturn with ⟨hidle, -⟩ | ⟨p, -, hexec, ends⟩
    · exact .of_idle hidle
    · refine .of_turn hturn ?_
      cases heng : t.eng with
      | idle => exact .of_idle heng
      | run q =>
        have hless : t.work < work := hwork ▸ exec_work hstt (decodeCmd_ne_srst _) hexec
        exact ih t.work hless (engineTurn_inv h hturn) ((ends.cmdLatch heng).symm ▸ hstt) rfl

/-! STORE_TREE -/

/-- Tree by tree STORE_TREE comes to the end of its stack (R153). -/
theorem Storing.commandEnds {stack : List NodeIx} {s u : State} (h : Storing stack s u)
    (hstack : ∀ j ∈ stack, s.nodes.treeAt j.toNat) : CommandEnds u := by
  induction stack generalizing s u with
  | nil => exact .of_turn h.2 (.of_idle rfl)
  | cons j rest ih =>
    obtain ⟨⟨t, hholds, hsize⟩, hrest⟩ := List.forall_mem_cons.1 hstack
    have hroot : BitVec.ofNat 10 j.toNat = j := by simp
    obtain ⟨w, hsteps, hstoring⟩ := storing_tree (hroot.symm ▸ h) hholds hsize
    exact .of_steps hsteps (ih hstoring hrest)

theorem storing_sttLoop {s : State} (hstt : decodeCmd s.cmdLatch = .stt) (stack : List NodeIx) :
    Storing stack s (s.resumeAt (.sttLoop stack)) := ⟨hstt, (engineTurn_stt hstt _).trans (execStt_sttLoop stack s)⟩

/-- From each of its points STORE_TREE comes to its loop test over roots of trees (R153). -/
theorem Inv.commandEnds_of_stt {s : State} {p : Point} (h : Inv s) (hrun : s.eng = .run p)
    (hstt : decodeCmd s.cmdLatch = .stt) : CommandEnds s := by
  obtain ⟨t, hturn⟩ := engineTurn_answers h
  have hexec : execStt s = .next t := by rwa [engineTurn_run hrun, hstt] at hturn
  have storing {stack} (hloop : sttLoopStep stack s = .next t) : Storing stack s s := ⟨hstt, hturn.trans hloop.symm⟩
  unfold execStt at hexec
  split at hexec
  · split at hexec
    · rename_i htree
      exact (storing hexec).commandEnds (List.forall_mem_singleton.2 (h.memInv.treeAt_root htree))
    · cases hexec
      exact .of_turn hturn (.of_idle rfl)
  · rename_i j stack heng
    obtain ⟨-, -, -, hstack⟩ := h.point _ heng
    obtain ⟨-, hexec⟩ := withNode_next hexec
    cases hexec
    have hloop := storing_sttLoop (s := s.writeBits 9 (s.nodes.read j.toNat).sym.toNat) hstt stack
    exact .of_turn hturn (hloop.commandEnds (List.forall_mem_cons.1 hstack).2)
  · rename_i j stack heng
    obtain ⟨-, -, hkind, hstack⟩ := h.point _ heng
    obtain ⟨-, hexec⟩ := withNode_next hexec
    obtain ⟨hj, hrest⟩ := List.forall_mem_cons.1 hstack
    obtain ⟨hleft, hright⟩ := NodeMem.treeAt_children hj hkind
    exact (storing hexec).commandEnds (List.forall_mem_cons.2 ⟨hleft, List.forall_mem_cons.2 ⟨hright, hrest⟩⟩)
  · rename_i stack heng
    obtain ⟨-, -, hstack⟩ := h.point _ heng
    exact (storing hexec).commandEnds hstack
  · cases hexec

/-- Settles O53: STORE_TREE uses up its stack, and every other command its work. -/
theorem everyCommandEnds : Obligations.EveryCommandEnds := by
  intro s h
  show CommandEnds s
  cases heng : s.eng with
  | idle => exact .of_idle heng
  | run p =>
    by_cases hstt : decodeCmd s.cmdLatch = .stt
    · exact h.commandEnds_of_stt heng hstt
    · exact h.commandEnds_of_ne_stt hstt

end Sys2Proof.Machine
end

section
/-! PROOFS. Two machines whose NODE, CODE, CMDLATCH and CUR differ only where those have no meaning go through the same
steps; O58 (spec/70_reset_and_hazards.md R241; spec/10_state.md R42). -/

namespace Sys2Proof.Machine

/-! ### What the two tree memories share -/

/-- Below index `n` both tree memories read the same. -/
def AgreeBelow (n : Nat) (m m' : NodeMem) : Prop := ∀ j, j < n → m'.read j = m.read j

/-- The same tree stands at node `j` of both tree memories. -/
def ShareTree (m m' : NodeMem) (j : NodeIx) : Prop := ∃ t, m.rooted j t ∧ m'.rooted j t

/-- The same store makes both memories agree on its entry. -/
theorem read_write_agree {m m' : NodeMem} {i j : Nat} (e : Node) (h : j ≠ i → m'.read j = m.read j) :
    (m'.write i e).read j = (m.write i e).read j := by
  by_cases hj : j = i
  · rw [hj, NodeMem.read_write_same, NodeMem.read_write_same]
  · rw [NodeMem.read_write_other m' e hj, NodeMem.read_write_other m e hj, h hj]

theorem AgreeBelow.write {n : Nat} {m m' : NodeMem} (h : AgreeBelow n m m') (i : Nat) (e : Node) :
    AgreeBelow n (m.write i e) (m'.write i e) := fun j hj => read_write_agree e fun _ => h j hj

theorem AgreeBelow.write_next {n : Nat} {m m' : NodeMem} (h : AgreeBelow n m m') (e : Node) :
    AgreeBelow (n + 1) (m.write n e) (m'.write n e) := fun j hj => read_write_agree e fun hne => h j (by omega)

theorem ShareTree.read {m m' : NodeMem} {j : NodeIx} (h : ShareTree m m' j) : m'.read j.toNat = m.read j.toNat := by
  obtain ⟨t, ⟨ht, -⟩, ht', -⟩ := h
  exact NodeMem.read_eq_of_holds ht ht' (Nat.le_refl _) (Nat.lt_add_of_pos_right t.size_pos)

theorem ShareTree.child {m m' : NodeMem} {j : NodeIx} (h : ShareTree m m' j)
    (hkind : (m.read j.toNat).kind = .internal) (r : BitVec 1) : ShareTree m m' (childOf (m.read j.toNat) r) := by
  have hread := h.read
  obtain ⟨t, ht, ht'⟩ := h
  cases t with
  | leaf v =>
    rw [ht.read_leaf] at hkind
    cases hkind
  | node left right =>
    have child (b : Bool) : ShareTree m m' (childOf (m.read j.toNat) (BitVec.ofBool b)) :=
      ⟨_, ht.child b, hread ▸ ht'.child b⟩
    rcases BitVec.eq_zero_or_eq_one r with rfl | rfl
    · exact child false
    · exact child true

/-! ### What the two states share -/

/-- The states differ in NODE, CODE, CMDLATCH and CUR alone, and hold the same tree and the same table as far as their
flags say so (R40, R241). -/
structure Twins (s s' : State) : Prop where
  shown : s' = { s with nodes := s'.nodes, codes := s'.codes, cmdLatch := s'.cmdLatch, cur := s'.cur }
  tree : s.treeValid = true → ∃ t, s.hasTree t ∧ s'.hasTree t
  codes : s.tableValid = true → s'.codes = s.codes

/-- What a command that stands at a resume point may still read of NODE and CUR is the same in both states. -/
def PointShared (m m' : NodeMem) (cur cur' : NodeIx) : Point → Prop
  | .ldtFlag _ n _ _ => AgreeBelow n.toNat m m'
  | .ldtSym _ _ i _ => AgreeBelow i.toNat m m'
  | .sttInternal i stack | .sttLeaf i stack => ∀ j ∈ i :: stack, ShareTree m m' j
  | .sttLoop stack => ∀ j ∈ stack, ShareTree m m' j
  | .decRead _ => cur' = cur ∧ ShareTree m m' cur
  | _ => True

/-- The relation between the two machines that every step keeps. -/
structure Alike (s s' : State) : Prop extends Twins s s' where
  running : ∀ p, s.eng = .run p → s'.cmdLatch = s.cmdLatch ∧ PointShared s.nodes s'.nodes s.cur s'.cur p

namespace Twins

variable {s s' : State}

theorem eng (h : Twins s s') : s'.eng = s.eng := by rw [h.shown]

theorem treeValid (h : Twins s s') : s'.treeValid = s.treeValid := by rw [h.shown]

theorem tableValid (h : Twins s s') : s'.tableValid = s.tableValid := by rw [h.shown]

theorem magic (h : Twins s s') : s'.magic = s.magic := by rw [h.shown]

theorem draws (h : Twins s s') : s'.draws = s.draws := by rw [h.shown]

theorem reads (h : Twins s s') : s'.reads = s.reads := by rw [h.shown]

theorem agenda (h : Twins s s') : s'.agenda = s.agenda := by rw [h.shown]

theorem err (h : Twins s s') : s'.err = s.err := by rw [h.shown]

theorem busy (h : Twins s s') : s'.busy = s.busy := by
  rw [h.shown]
  rfl

theorem peekBits (h : Twins s s') (n : Nat) : s'.peekBits n = s.peekBits n := by
  rw [h.shown]
  rfl

theorem readReg (h : Twins s s') (offset : Nat) : s'.readReg offset = s.readReg offset := by
  rw [h.shown]
  rfl

theorem observe (h : Twins s s') : s'.observe = s.observe := by
  rw [h.shown]
  rfl

theorem shareRoot (h : Twins s s') (htree : s.treeValid = true) : ShareTree s.nodes s'.nodes 0 := by
  obtain ⟨t, ht, ht'⟩ := h.tree htree
  exact ⟨t, ht.rooted, ht'.rooted⟩

/-! Updates -/

/-- An update that stores to neither memory and does the same to what the states share. -/
theorem update {u u' : State} (h : Twins s s')
    (hshown : u' = { u with nodes := u'.nodes, codes := u'.codes, cmdLatch := u'.cmdLatch, cur := u'.cur })
    (hu : SameMemory s u := by exact ⟨rfl, rfl, rfl, rfl, rfl⟩)
    (hu' : SameMemory s' u' := by exact ⟨rfl, rfl, rfl, rfl, rfl⟩) : Twins u u' := by
  obtain ⟨htree, htable, hcount, hnodes, hcodes⟩ := hu
  obtain ⟨htree', -, hcount', hnodes', hcodes'⟩ := hu'
  refine ⟨hshown, ?_, ?_⟩
  · simpa only [State.hasTree, htree, hcount, hnodes, htree', hcount', hnodes'] using h.tree
  · simpa only [htable, hcodes, hcodes'] using h.codes

theorem consume (h : Twins s s') (n : Nat) : Twins (s.consume n) (s'.consume n) := h.update (by rw [h.shown]; rfl)

theorem writeBits (h : Twins s s') (n v : Nat) : Twins (s.writeBits n v) (s'.writeBits n v) :=
  h.update (by rw [h.shown]; rfl)

theorem rewind (h : Twins s s') : Twins s.rewind s'.rewind := h.update (by rw [h.shown]; rfl)

theorem countSymbol (h : Twins s s') : Twins s.countSymbol s'.countSymbol := h.update (by rw [h.shown]; rfl)

theorem setSymCount (h : Twins s s') (c : Word32) : Twins { s with symCount := c } { s' with symCount := c } :=
  h.update (by rw [h.shown])

theorem setCur (h : Twins s s') (i : NodeIx) : Twins (s.setCur i) (s'.setCur i) := h.update (by rw [h.shown]; rfl)

theorem resumeAt (h : Twins s s') (p : Point) : Twins (s.resumeAt p) (s'.resumeAt p) :=
  h.update (by rw [h.shown]; rfl)

theorem finish (h : Twins s s') : Twins s.finish s'.finish := h.update (by rw [h.shown]; rfl)

theorem raise (h : Twins s s') (e : ErrCode) : Twins (s.raise e) (s'.raise e) := h.update (by rw [h.shown]; rfl)

theorem accept (h : Twins s s') (w : Word32) : Twins (s.accept w) (s'.accept w) := h.update (by rw [h.shown]; rfl)

theorem flagOverrun (h : Twins s s') : Twins s.flagOverrun s'.flagOverrun := h.update (by rw [h.shown]; rfl)

/-! LOAD_TREE's and DERIVE's updates, and the reset -/

/-- With no tree and no table there is nothing to compare in the memories. -/
theorem of_unloaded (hun : Unloaded s)
    (hshown : s' = { s with nodes := s'.nodes, codes := s'.codes, cmdLatch := s'.cmdLatch, cur := s'.cur }) :
    Twins s s' := by
  obtain ⟨htree, htable, -⟩ := hun
  exact ⟨hshown, fun h => absurd (htree.symm.trans h) nofun, fun h => absurd (htable.symm.trans h) nofun⟩

theorem flagsUnload (h : Twins s s') : Twins s.flagsUnload s'.flagsUnload :=
  of_unloaded ⟨rfl, rfl, rfl⟩ (by rw [h.shown]; rfl)

theorem writeNode (h : Twins s s') (hun : Unloaded s) (i : Nat) (e : Node) :
    Twins { s with nodes := s.nodes.write i e } { s' with nodes := s'.nodes.write i e } :=
  of_unloaded hun (by rw [h.shown])

theorem flagsLoaded (h : Twins s s') (hstale : s.tableValid = false) {n : NodeIx} {t : Tree}
    (ht : (s.flagsLoaded n).hasTree t) (ht' : (s'.flagsLoaded n).hasTree t) :
    Twins (s.flagsLoaded n) (s'.flagsLoaded n) :=
  ⟨by rw [h.shown]; rfl, fun _ => ⟨t, ht, ht'⟩, fun h => absurd (hstale.symm.trans h) nofun⟩

theorem forgetNodes (h : Twins s s') (hun : Unloaded s) : Twins s.forgetNodes s'.forgetNodes :=
  of_unloaded hun (by rw [h.shown]; rfl)

theorem resetBlock (h : Twins s s') : Twins s.resetBlock s'.resetBlock :=
  of_unloaded ⟨rfl, rfl, rfl⟩ (by rw [h.shown]; rfl)

theorem flagTableStale (h : Twins s s') : Twins s.flagTableStale s'.flagTableStale :=
  ⟨by rw [h.shown]; rfl, h.tree, nofun⟩

theorem forgetCodes (h : Twins s s') : Twins s.forgetCodes s'.forgetCodes :=
  ⟨by rw [h.shown]; rfl, h.tree, fun _ => by rw [State.forgetCodes, h.draws]; rfl⟩

theorem derived (h : Twins s s') (c : CodeMem) :
    Twins ({ s with codes := c } : State).flagTableValid ({ s' with codes := c } : State).flagTableValid :=
  ⟨by rw [h.shown]; rfl, h.tree, fun _ => rfl⟩

end Twins

namespace Alike

variable {s s' : State}

theorem latch (h : Alike s s') {p : Point} (hrun : s.eng = .run p) : s'.cmdLatch = s.cmdLatch := by
  obtain ⟨hlatch, -⟩ := h.running p hrun
  exact hlatch

/-! How a step ends -/

theorem finish (h : Twins s s') : Alike s.finish s'.finish := ⟨h.finish, nofun⟩

theorem raise (h : Twins s s') (e : ErrCode) : Alike (s.raise e) (s'.raise e) := ⟨h.raise e, nofun⟩

theorem resumeAt (h : Twins s s') (hlatch : s'.cmdLatch = s.cmdLatch) {p : Point}
    (hp : PointShared s.nodes s'.nodes s.cur s'.cur p) : Alike (s.resumeAt p) (s'.resumeAt p) :=
  ⟨h.resumeAt p, fun q hq => by
    cases hq
    exact ⟨hlatch, hp⟩⟩

theorem readThen (h : Twins s s') (hlatch : s'.cmdLatch = s.cmdLatch) (n : Nat) {p : Option (BitVec n) → Point}
    (hp : ∀ v, PointShared s.nodes s'.nodes s.cur s'.cur (p v)) : Alike (s.readThen n p) (s'.readThen n p) := by
  rw [State.readThen, State.readThen, h.peekBits]
  exact resumeAt (h.consume n) hlatch (hp _)

theorem writeThen (h : Twins s s') (hlatch : s'.cmdLatch = s.cmdLatch) (n v : Nat) {p : Point}
    (hp : PointShared s.nodes s'.nodes s.cur s'.cur p) : Alike (s.writeThen n v p) (s'.writeThen n v p) :=
  resumeAt (h.writeBits n v) hlatch hp

/-! The host's moves -/

theorem setHost (h : Alike s s') {agenda agenda' : List Move} {reads reads' : List Word32} (hagenda : agenda' = agenda)
    (hreads : reads' = reads) :
    Alike { s with agenda := agenda, reads := reads } { s' with agenda := agenda', reads := reads' } := by
  subst hagenda hreads
  exact ⟨h.update (by rw [h.shown]), h.running⟩

theorem flagOverrun (h : Alike s s') : Alike s.flagOverrun s'.flagOverrun := ⟨h.toTwins.flagOverrun, h.running⟩

/-- Acceptance latches the same word in both, and what CUR holds then does not matter (R120). -/
theorem accept (h : Twins s s') (w : Word32) : Alike (s.accept w) (s'.accept w) :=
  ⟨h.accept w, fun p hp => by
    cases hp
    exact ⟨rfl, trivial⟩⟩

theorem resetBlock (h : Twins s s') : Alike s.resetBlock s'.resetBlock := ⟨h.resetBlock, nofun⟩

end Alike

/-! ### The same answer -/

/-- Both results are next states related by `Alike`, or both stop for the same reason. -/
inductive SameAnswer : Result → Result → Prop
  | next {t t' : State} (h : Alike t t') : SameAnswer (.next t) (.next t')
  | fault (r : Fault) : SameAnswer (.fault r) (.fault r)
  | refused (r : Refusal) : SameAnswer (.refused r) (.refused r)

namespace SameAnswer

variable {s s' : State}

theorem ite {c : Prop} [Decidable c] {a b a' b' : Result} (ha : c → SameAnswer a a') (hb : ¬c → SameAnswer b b') :
    SameAnswer (if c then a else b) (if c then a' else b') := by
  split
  · exact ha ‹_›
  · exact hb ‹_›

theorem withNode {i : NodeIx} {k k' : Node → Result}
    (hread : s'.nodes.read i.toNat = s.nodes.read i.toNat)
    (hk : SameAnswer (k (s.nodes.read i.toNat)) (k' (s.nodes.read i.toNat))) :
    SameAnswer (withNode i s k) (withNode i s' k') := by
  rw [Machine.withNode, Machine.withNode, hread]
  exact ite (fun _ => hk) fun _ => .fault _

theorem putNode {i : NodeIx} {e : Node} {k k' : State → Result}
    (hk : SameAnswer (k { s with nodes := s.nodes.write i.toNat e })
      (k' { s' with nodes := s'.nodes.write i.toNat e })) :
    SameAnswer (putNode i e s k) (putNode i e s' k') := ite (fun _ => hk) fun _ => .fault _

theorem withCode {y : Symbol} {k k' : CodeEntry → Result} (hcodes : s'.codes = s.codes)
    (hk : ∀ c, SameAnswer (k c) (k' c)) : SameAnswer (withCode y s k) (withCode y s' k') := by
  rw [Machine.withCode, Machine.withCode, hcodes]
  exact ite (fun _ => hk _) fun _ => .fault _

theorem emitCode {c : CodeEntry} {k : Nat} {p : Nat → Point} {rest : State → Result} (h : Twins s s')
    (hlatch : s'.cmdLatch = s.cmdLatch) (hp : PointShared s.nodes s'.nodes s.cur s'.cur (p (k + 1)))
    (hrest : SameAnswer (rest s) (rest s')) : SameAnswer (emitCode c k p s rest) (emitCode c k p s' rest) :=
  ite (fun _ => .next (.writeThen h hlatch _ _ hp)) fun _ => hrest

end SameAnswer

/-! ### The commands -/

section Commands

variable {s s' : State}

theorem execNop_alike (h : Alike s s') : SameAnswer (execNop s) (execNop s') := by
  simp only [execNop, h.eng]
  split
  · exact .next (.finish h.toTwins)
  · exact .fault _

theorem execIllegal_alike (h : Alike s s') (w : Word32) : SameAnswer (execIllegal w s) (execIllegal w s') := by
  simp only [execIllegal, h.eng]
  split
  · exact .next (.raise h.toTwins _)
  · exact .fault _

theorem execRwd_alike (h : Alike s s') : SameAnswer (execRwd s) (execRwd s') := by
  simp only [execRwd, h.eng]
  split
  · rename_i hrun
    have hlatch := h.latch hrun
    exact .next (.resumeAt h.rewind hlatch trivial)
  · exact .next (.finish h.toTwins)
  · exact .fault _

theorem execCkm_alike (h : Alike s s') : SameAnswer (execCkm s) (execCkm s') := by
  simp only [execCkm, h.eng, h.magic]
  split
  · rename_i hrun
    have hlatch := h.latch hrun
    exact .next (.readThen h.toTwins hlatch 32 fun _ => trivial)
  · exact .ite (fun _ => .next (.finish h.toTwins)) fun _ => .next (.raise h.toTwins _)
  · exact .fault _

theorem execWrm_alike (h : Alike s s') : SameAnswer (execWrm s) (execWrm s') := by
  simp only [execWrm, h.eng, h.magic]
  split
  · rename_i hrun
    have hlatch := h.latch hrun
    exact .next (.writeThen h.toTwins hlatch 32 _ trivial)
  · exact .next (.finish h.toTwins)
  · exact .fault _

/-! DECODE -/

theorem decReadBit_alike (h : Twins s s') (hlatch : s'.cmdLatch = s.cmdLatch) (hcur : s'.cur = s.cur)
    (hshare : ShareTree s.nodes s'.nodes s.cur) : SameAnswer (decReadBit s) (decReadBit s') :=
  .next (.readThen h hlatch 1 fun _ => ⟨hcur, hshare⟩)

theorem decDescend_alike (h : Twins s s') (hlatch : s'.cmdLatch = s.cmdLatch) (hcur : s'.cur = s.cur)
    (hshare : ShareTree s.nodes s'.nodes s.cur) (hkind : (s.nodes.read s.cur.toNat).kind = .internal) (r : BitVec 1) :
    SameAnswer (decDescend r s) (decDescend r s') := by
  rw [decDescend, decDescend, hcur]
  exact .withNode hshare.read (decReadBit_alike (h.setCur _) hlatch rfl (hshare.child hkind r))

theorem decReadStep_alike (h : Twins s s') (hlatch : s'.cmdLatch = s.cmdLatch) (hcur : s'.cur = s.cur)
    (hshare : ShareTree s.nodes s'.nodes s.cur) (r : Option (BitVec 1)) :
    SameAnswer (decReadStep r s) (decReadStep r s') := by
  rw [decReadStep, decReadStep, hcur]
  refine .withNode hshare.read (.ite (fun _ => .next (.finish h)) fun _ => ?_)
  cases r with
  | none => exact .next (.raise h _)
  | some b =>
    refine .ite (fun _ => .next (.writeThen h hlatch 8 _ trivial)) fun hleaf => ?_
    exact decDescend_alike h hlatch hcur hshare (kind_internal_of_not_leaf hleaf) b

theorem execDec_alike (h : Alike s s') (hpoint : AtPoint .dec s) : SameAnswer (execDec s) (execDec s') := by
  simp only [execDec, h.eng, h.treeValid]
  split
  · rename_i hrun
    have hlatch := h.latch hrun
    refine .ite (fun htree => ?_) fun _ => .next (.raise h.toTwins _)
    have hroot := h.shareRoot htree
    refine .withNode hroot.read (.ite (fun _ => .next (.raise h.toTwins _)) fun _ => ?_)
    exact decReadBit_alike (h.setCur 0) hlatch rfl hroot
  · rename_i r hrun
    obtain ⟨hlatch, hcur, hshare⟩ := h.running _ hrun
    exact decReadStep_alike h.toTwins hlatch hcur hshare r
  · rename_i b hrun
    have hlatch := h.latch hrun
    obtain ⟨-, htree, hinner⟩ := hpoint _ hrun
    exact decDescend_alike (h.countSymbol.setCur 0) hlatch rfl (h.shareRoot htree)
      (kind_internal_of_not_leaf (Bool.eq_false_iff.1 hinner)) b
  · exact .fault _

/-! ENCODE and ENCODE_SYM -/

theorem encAfter_alike (h : Twins s s') (hlatch : s'.cmdLatch = s.cmdLatch) (y : Symbol) :
    SameAnswer (encAfter y s) (encAfter y s') :=
  .ite (fun _ => .next (.finish h)) fun _ => .next (.readThen h.countSymbol hlatch 8 fun _ => trivial)

theorem execEnc_alike (h : Alike s s') (hpoint : AtPoint .enc s) : SameAnswer (execEnc s) (execEnc s') := by
  simp only [execEnc, h.eng, h.tableValid]
  split
  · rename_i hrun
    have hlatch := h.latch hrun
    exact .ite (fun _ => .next (.readThen h.toTwins hlatch 8 fun _ => trivial)) fun _ => .next (.raise h.toTwins _)
  · rename_i v hrun
    have hlatch := h.latch hrun
    obtain ⟨-, htable⟩ := hpoint _ hrun
    refine .withCode (h.codes htable) fun _ => .ite (fun _ => ?_) fun _ => .next (.raise h.toTwins _)
    exact .emitCode h.toTwins hlatch trivial (encAfter_alike h.toTwins hlatch _)
  · rename_i y k hrun
    have hlatch := h.latch hrun
    obtain ⟨-, htable, -⟩ := hpoint _ hrun
    exact .withCode (h.codes htable) fun _ => .emitCode h.toTwins hlatch trivial (encAfter_alike h.toTwins hlatch y)
  · exact .fault _

theorem ensFinish_alike (h : Twins s s') : SameAnswer (ensFinish s) (ensFinish s') := .next (.finish (h.setSymCount 1))

theorem encodeSymbol_alike {i : Instr} {y : Symbol} (hi : EncodesSymbol i y) (h : Alike s s') (hpoint : AtPoint i s) :
    SameAnswer (encodeSymbol y s) (encodeSymbol y s') := by
  simp only [encodeSymbol, h.eng, h.tableValid]
  split
  · rename_i hrun
    have hlatch := h.latch hrun
    refine .ite (fun htable => ?_) fun _ => .next (.raise h.toTwins _)
    refine .withCode (h.codes htable) fun _ => .ite (fun _ => ?_) fun _ => .next (.raise h.toTwins _)
    exact .emitCode h.toTwins hlatch trivial (ensFinish_alike h.toTwins)
  · rename_i k hrun
    have hlatch := h.latch hrun
    obtain ⟨htable, -⟩ := (pointOk_ensBits hi s k).1 (hpoint _ hrun)
    exact .withCode (h.codes htable) fun _ => .emitCode h.toTwins hlatch trivial (ensFinish_alike h.toTwins)
  · exact .fault _

/-! STORE_TREE -/

theorem sttLoopStep_alike (h : Twins s s') (hlatch : s'.cmdLatch = s.cmdLatch) {stack : List NodeIx}
    (hstack : ∀ j ∈ stack, ShareTree s.nodes s'.nodes j) :
    SameAnswer (sttLoopStep stack s) (sttLoopStep stack s') := by
  cases stack with
  | nil => exact .next (.finish h)
  | cons i rest =>
    rw [sttLoopStep, sttLoopStep]
    exact .withNode (hstack i List.mem_cons_self).read
      (.ite (fun _ => .next (.writeThen h hlatch 1 1 hstack)) fun _ => .next (.writeThen h hlatch 1 0 hstack))

theorem execStt_alike (h : Alike s s') (hpoint : AtPoint .stt s) : SameAnswer (execStt s) (execStt s') := by
  simp only [execStt, h.eng, h.treeValid]
  split
  · rename_i hrun
    have hlatch := h.latch hrun
    refine .ite (fun htree => ?_) fun _ => .next (.raise h.toTwins _)
    exact sttLoopStep_alike h.toTwins hlatch (List.forall_mem_singleton.2 (h.shareRoot htree))
  · rename_i i stack hrun
    obtain ⟨hlatch, hstack⟩ := h.running _ hrun
    obtain ⟨hi, hrest⟩ := List.forall_mem_cons.1 hstack
    exact .withNode hi.read (.next (.writeThen h.toTwins hlatch 9 _ hrest))
  · rename_i i stack hrun
    obtain ⟨hlatch, hstack⟩ := h.running _ hrun
    obtain ⟨hi, hrest⟩ := List.forall_mem_cons.1 hstack
    obtain ⟨-, -, hkind, -⟩ := hpoint _ hrun
    have hchildren := List.forall_mem_cons.2 ⟨hi.child hkind 0, List.forall_mem_cons.2 ⟨hi.child hkind 1, hrest⟩⟩
    exact .withNode hi.read (sttLoopStep_alike h.toTwins hlatch hchildren)
  · rename_i stack hrun
    obtain ⟨hlatch, hstack⟩ := h.running _ hrun
    exact sttLoopStep_alike h.toTwins hlatch hstack
  · exact .fault _

/-! LOAD_TREE -/

theorem ldtRaise_alike (h : Twins s s') (hun : Unloaded s) (e : ErrCode) : SameAnswer (ldtRaise e s) (ldtRaise e s') :=
  .next (.raise (h.forgetNodes hun) e)

theorem ldtNode_alike (h : Twins s s') (hlatch : s'.cmdLatch = s.cmdLatch) (hun : Unloaded s) {n : NodeIx}
    (hn : n.toNat < Config.nodeCap) (hagree : AgreeBelow n.toNat s.nodes s'.nodes) (b : BitVec 1) (rest : List NodeIx) :
    SameAnswer (ldtNode b n rest s) (ldtNode b n rest s') := by
  refine .ite (fun _ => .next (.readThen h hlatch 9 fun _ => hagree)) fun _ => .putNode (.next ?_)
  have hnext : AgreeBelow (n + 1).toNat (s.nodes.write n.toNat (openNode n)) (s'.nodes.write n.toNat (openNode n)) := by
    rw [toNat_add_one hn]
    exact hagree.write_next _
  exact .readThen (h.writeNode hun _ _) hlatch 1 fun _ => hnext

theorem ldtFlagStep_alike (h : Twins s s') (hlatch : s'.cmdLatch = s.cmdLatch) (hun : Unloaded s) {n : NodeIx}
    {stack : List NodeIx} {attach : Bool} (hload : LoadOk s.nodes n stack attach)
    (hagree : AgreeBelow n.toNat s.nodes s'.nodes) (f : Option (BitVec 1)) :
    SameAnswer (ldtFlagStep f n stack attach s) (ldtFlagStep f n stack attach s') := by
  obtain ⟨hcap, hload⟩ := hload
  cases f with
  | none => exact ldtRaise_alike h hun _
  | some b =>
    refine .ite (fun _ => ldtRaise_alike h hun _) fun hne => ?_
    have hn : n.toNat < Config.nodeCap := Nat.lt_of_le_of_ne hcap hne
    cases attach with
    | false => exact ldtNode_alike h hlatch hun hn hagree b stack
    | true =>
      cases stack with
      | nil => exact hload.elim
      | cons p rest =>
        obtain ⟨l, -, -, -, hsize⟩ := hload
        rw [ldtAttach, ldtAttach]
        have hread := hagree p.toNat (by omega)
        refine .withNode hread (.putNode ?_)
        exact ldtNode_alike (h.writeNode hun _ _) hlatch hun hn (hagree.write _ _) b rest

/-- The last leaf completes the same tree in both memories (R150). -/
theorem ldtSymStep_alike (h : Twins s s') (hlatch : s'.cmdLatch = s.cmdLatch) (hun : Unloaded s) {n i : NodeIx}
    {stack : List NodeIx} (hni : n.toNat = i.toNat + 1) (hi : i.toNat < Config.nodeCap)
    (hspine : Spine s.nodes stack i.toNat) (hagree : AgreeBelow i.toNat s.nodes s'.nodes) (v : Option Symbol) :
    SameAnswer (ldtSymStep v n i stack s) (ldtSymStep v n i stack s') := by
  cases v with
  | none => exact ldtRaise_alike h hun _
  | some y =>
    refine .ite (fun _ => ldtRaise_alike h hun _) fun hy => .putNode ?_
    have hagree' : AgreeBelow n.toNat (s.nodes.write i.toNat (leafNode y)) (s'.nodes.write i.toNat (leafNode y)) := by
      rw [hni]
      exact hagree.write_next _
    have htwins := h.writeNode hun i.toNat (leafNode y)
    cases stack with
    | cons p rest => exact .next (.readThen htwins hlatch 1 fun _ => hagree')
    | nil =>
      have hleaf := s.nodes.holds_leaf i.toNat (BitVec.not_lt.1 hy)
      obtain ⟨u, hu, hsize⟩ := (hspine.write (leafNode y) (Nat.le_refl _)).close_root hleaf
      have hcount : n.toNat = u.size := by rw [hni, hsize, Tree.size]
      have hcap : u.size ≤ Config.nodeCap := by omega
      obtain ⟨-, hstale, -⟩ := hun
      have hu' := NodeMem.holds_congr (fun j _ hj => hagree' j (by omega)) hu
      exact .next (.finish (htwins.flagsLoaded hstale ⟨rfl, hcount, hcap, hu⟩ ⟨rfl, hcount, hcap, hu'⟩))

theorem execLdt_alike (h : Alike s s') (hpoint : AtPoint .ldt s) : SameAnswer (execLdt s) (execLdt s') := by
  simp only [execLdt, h.eng]
  split
  · rename_i hrun
    have hlatch := h.latch hrun
    exact .next (.readThen h.flagsUnload hlatch 1 fun _ => nofun)
  · rename_i f n stack attach hrun
    obtain ⟨hlatch, hagree⟩ := h.running _ hrun
    obtain ⟨-, hun, hload⟩ := hpoint _ hrun
    exact ldtFlagStep_alike h.toTwins hlatch hun hload hagree f
  · rename_i v n i stack hrun
    obtain ⟨hlatch, hagree⟩ := h.running _ hrun
    obtain ⟨-, hun, hni, hi, hspine⟩ := hpoint _ hrun
    exact ldtSymStep_alike h.toTwins hlatch hun hni hi hspine hagree v
  · exact .fault _

/-! DERIVE -/

theorem drvRaise_alike (h : Twins s s') (e : ErrCode) : SameAnswer (drvRaise e s) (drvRaise e s') :=
  .next (.raise h.forgetCodes e)

/-- DERIVE clears CODE first, so what it leaves there comes from the tree alone (R140). -/
theorem execDrv_alike (h : Alike s s') : SameAnswer (exec .drv s) (exec .drv s') := by
  by_cases hrun : s.eng = .run .start
  · by_cases htree : s.treeValid = true
    · obtain ⟨t, ht, ht'⟩ := h.tree htree
      rw [exec_drv_of_hasTree hrun ht, exec_drv_of_hasTree (h.eng.trans hrun) ht']
      cases deriveCodes [] t CodeMem.zeros with
      | none => exact drvRaise_alike h.flagTableStale _
      | some c => exact .next (.finish (h.derived c))
    · simp only [exec, execDrv, h.eng, hrun, h.treeValid, if_neg htree]
      exact drvRaise_alike h.toTwins _
  · simp only [exec, execDrv, h.eng]
    exact .fault _

/-! ### Every step -/

theorem execSrst_alike (h : Alike s s') (ignored : BitVec 31) : SameAnswer (execSrst ignored s) (execSrst ignored s') :=
  .next (.resetBlock h.toTwins)

/-- One step of any command, from a point of that command. -/
theorem exec_alike {i : Instr} (h : Alike s s') (hpoint : AtPoint i s) : SameAnswer (exec i s) (exec i s') := by
  cases i with
  | nop => exact execNop_alike h
  | ldt => exact execLdt_alike h hpoint
  | stt => exact execStt_alike h hpoint
  | drv => exact execDrv_alike h
  | ckm => exact execCkm_alike h
  | wrm => exact execWrm_alike h
  | enc => exact execEnc_alike h hpoint
  | ens b => exact encodeSymbol_alike (.inl ⟨b, rfl, rfl⟩) h hpoint
  | ensEof => exact encodeSymbol_alike (.inr ⟨rfl, rfl⟩) h hpoint
  | dec => exact execDec_alike h hpoint
  | rwd => exact execRwd_alike h
  | srst ignored => exact execSrst_alike h ignored
  | illegal w => exact execIllegal_alike h w

theorem engineTurn_alike (h : Alike s s') (hinv : Inv s) : SameAnswer (engineTurn s) (engineTurn s') := by
  cases heng : s.eng with
  | idle =>
    rw [engineTurn_idle heng, engineTurn_idle (h.eng.trans heng)]
    exact .next h
  | run p =>
    rw [engineTurn_run heng, engineTurn_run (h.eng.trans heng), h.latch heng]
    exact exec_alike h hinv.point

theorem hostRead_alike (h : Alike s s') (width offset : Nat) :
    SameAnswer (hostRead width offset s) (hostRead width offset s') := by
  rw [hostRead, hostRead]
  exact .ite (fun _ => .next (h.setHost h.agenda (by rw [h.reads, h.readReg]))) fun _ => .refused _

theorem writeCmd_alike (h : Alike s s') (w : Word32) : SameAnswer (writeCmd w s) (writeCmd w s') := by
  rw [writeCmd, writeCmd, h.busy]
  exact .ite (fun _ => .next h.flagOverrun) fun _ => .next (.accept h.toTwins w)

theorem writeCtrl_alike (h : Alike s s') (w : Word32) : SameAnswer (writeCtrl w s) (writeCtrl w s') := by
  rw [writeCtrl_eq, writeCtrl_eq]
  cases w.getLsbD 0 with
  | true => exact .next (.resetBlock h.toTwins)
  | false => exact .next h

theorem hostWrite_alike (h : Alike s s') (width offset : Nat) (w : Word32) :
    SameAnswer (hostWrite width offset w s) (hostWrite width offset w s') := by
  refine .ite (fun _ => ?_) fun _ => .refused _
  split
  · exact writeCmd_alike h w
  · exact writeCtrl_alike h w
  · exact .next h

theorem takeMove_alike (h : Alike s s') (hinv : Inv s) (m : Move) : SameAnswer (takeMove m s) (takeMove m s') := by
  cases m with
  | engine => exact engineTurn_alike h hinv
  | read width offset => exact hostRead_alike h width offset
  | write width offset w => exact hostWrite_alike h width offset w
  | poll => exact .next (h.setHost (by rw [h.busy, h.err, h.agenda]) (by rw [h.reads, h.readReg]))
  | platformReset => exact .next (.resetBlock h.toTwins)

theorem step_alike (h : Alike s s') (hinv : Inv s) : SameAnswer (step s) (step s') := by
  cases hagenda : s.agenda with
  | nil =>
    rw [step_of_agenda_nil hagenda, step_of_agenda_nil (h.agenda.trans hagenda)]
    exact engineTurn_alike h hinv
  | cons m rest =>
    rw [step_of_agenda_cons hagenda, step_of_agenda_cons (h.agenda.trans hagenda)]
    have hinv' : Inv { s with agenda := rest } := hinv.congr { hinv.regs with } ⟨rfl, rfl, rfl, rfl, rfl⟩ rfl rfl rfl
    exact takeMove_alike (h.setHost rfl h.reads) hinv' m

end Commands

/-! ### Runs -/

theorem SameAnswer.of_next {t : State} {r : Result} (h : SameAnswer (.next t) r) : ∃ t', r = .next t' ∧ Alike t t' := by
  cases h with
  | next h => exact ⟨_, rfl, h⟩

theorem SameAnswer.of_refused {reason : Refusal} {r : Result} (h : SameAnswer (.refused reason) r) :
    r = .refused reason := by
  cases h
  rfl

theorem core_run_refused {s : State} {reason : Refusal} (h : step s = .refused reason) (n : Nat) :
    core.run (n + 1) s = .refused reason := by
  have hstep : core.step s = .refused reason := h
  simp only [Host.Core.run, hstep]

theorem Alike.sameShown {s s' : State} (h : Alike s s') : SameShown (.next s) (.next s') :=
  ⟨h.observe.symm, h.reads.symm, h.agenda.symm⟩

/-- Two machines that are alike stay so step by step, and neither faults (R241). -/
theorem Alike.run_sameShown {s s' : State} (h : Alike s s') (hinv : Inv s) (n : Nat) :
    SameShown (core.run n s) (core.run n s') := by
  induction n generalizing s s' with
  | zero => exact h.sameShown
  | succ n ih =>
    have hsame := step_alike h hinv
    rcases stepNeverFaults s hinv with ⟨t, hstep⟩ | ⟨hstep, -⟩
    · rw [hstep] at hsame
      obtain ⟨t', hstep', halike⟩ := hsame.of_next
      rw [core_run_succ hstep, core_run_succ hstep']
      exact ih halike (stepKeepsMachineInvariant s t hinv hstep)
    · rw [hstep] at hsame
      rw [core_run_refused hstep, core_run_refused hsame.of_refused]
      exact rfl

theorem Inv.unloaded {s : State} (h : Inv s) (htree : s.treeValid = false) : Unloaded s := by
  have hnoTree : s.treeValid ≠ true := Bool.eq_false_iff.1 htree
  exact ⟨htree, Bool.eq_false_iff.2 fun htable => hnoTree (h.regs.table htable),
    Decidable.not_not.1 fun hcount => hnoTree (h.count.2 hcount)⟩

/-- Settles O58: with no tree loaded and no command running, the memories and the working registers need share nothing,
and the two machines are alike from the start. -/
theorem unspecifiedContentsNeverShow : Obligations.UnspecifiedContentsNeverShow := by
  intro s nodes codes latch cur n hinv hidle htree _ _
  have htwins := Twins.of_unloaded (s' := { s with nodes := nodes, codes := codes, cmdLatch := latch, cur := cur })
    (hinv.unloaded htree) rfl
  exact Alike.run_sameShown ⟨htwins, fun p hrun => absurd (hidle.symm.trans hrun) nofun⟩ hinv n

end Sys2Proof.Machine
end
